-- ==== Sys2Proof/Word.lean ====
section
/-! DEFINITION. The word types of the LZ77 codec block: bytes of the two memories and of the stream, 32-bit host
registers, and the 16-bit packed value of a match token (00_scope.md R8, R10; 30_encoding.md R74). -/

namespace Sys2Proof

/-- One byte of IN, OUT or the stream (20_memory.md R50, R56). -/
abbrev Byte := BitVec 8

/-- A host register's content (10_state.md R21). -/
abbrev Word := BitVec 32

/-- The packed value of a match token (30_encoding.md R74). -/
abbrev Half := BitVec 16

end Sys2Proof
end

