-- ==== Sys2Proof/Config.lean ====
section
/-! DEFINITION. What an instance of the block fixes (00_scope.md R6, R7, R9) and the values the spec leaves open
(93_implementation_defined.md U1, U2, U8, U9), which are constants without a body: no proof can see them. -/

namespace Sys2Proof

/-- The legal values of `length_bits`: "2 ≤ length_bits ≤ 8" (00_scope.md R6). No other value can be configured
(10_state.md R22), so none can be written down. -/
inductive LengthBits where
  | l2 | l3 | l4 | l5 | l6 | l7 | l8
deriving DecidableEq, Repr

/-- `L = length_bits` (00_scope.md R6). -/
def LengthBits.toNat : LengthBits → Nat
  | .l2 => 2
  | .l3 => 3
  | .l4 => 4
  | .l5 => 5
  | .l6 => 6
  | .l7 => 7
  | .l8 => 8

/-- `O = offset_bits = 16 - length_bits` (00_scope.md R6). -/
def LengthBits.offsetBits (l : LengthBits) : Nat := 16 - l.toNat

/-- `W = window_size = 2^offset_bits - 1` (00_scope.md R7). -/
def LengthBits.windowSize (l : LengthBits) : Nat := 2 ^ l.offsetBits - 1

/-- `M = max_match_length = length_mask = 2^length_bits - 1` (00_scope.md R7). -/
def LengthBits.maxMatch (l : LengthBits) : Nat := 2 ^ l.toNat - 1

/-- The parameters of one instance (00_scope.md R9): the split and the physical sizes of the two memories, each in
0 .. 2^32 - 1. No command and no host action changes them (10_state.md R21). -/
structure Config where
  lengthBits : LengthBits
  inSize     : Word
  outSize    : Word
deriving DecidableEq, Repr

/-- The default instance: `length_bits = 5` is the spec's default (00_scope.md R6). The spec gives no default for the two
sizes; here the largest of their range. DESIGN CHOICE, log 2, unsafe. -/
def Config.default : Config := { lengthBits := .l5, inSize := 0xFFFFFFFF, outSize := 0xFFFFFFFF }

/-- The identity string of an instance, `MTTools-LZ77/L<length_bits>` (00_scope.md R1). -/
def Config.identity (c : Config) : String := "MTTools-LZ77/L" ++ toString c.lengthBits.toNat

/-- The byte written by the `i`-th draw: an ill-referenced copy step writes "one byte whose value is unspecified"
(42_decompressor.md R140). A free value, log 6. -/
opaque Config.freeByte : Nat → Byte

/-- The word of the `i`-th draw: a host register after reset and before its first write (10_state.md R37, U9).
A free value, log 3. -/
opaque Config.freeWord : Nat → Word

/-- What IN holds at an index the host has not written (10_state.md R37, U9). A free value, log 5. -/
opaque Config.unwrittenIn : Nat → Byte

/-- What OUT holds, in the `e`-th unspecified content it has had, at an index nothing has written since
(10_state.md R37, U8, U9). A free value, log 5 and log 17. -/
opaque Config.unwrittenOut : (e : Nat) → Nat → Byte

end Sys2Proof
end

