-- ==== Sys2Proof/Machine/Memory.lean ====
section
/-! DEFINITION. A byte memory as plain data in one canonical form (20_memory.md R50, R56, R57): a list of cells with strictly
rising addresses. An address that is not listed has never been written and has no value here; what the machine reads
there is said in Machine/Ops.lean (log 5). -/

namespace Sys2Proof.Machine

/-- IN or OUT: the bytes that have been written, by index, strictly rising (20_memory.md R50). -/
abbrev Memory := List Host.Cell

/-- The byte written last at index `a`; none if nothing has been written there (20_memory.md R57). -/
def Memory.read : Memory → Nat → Option Byte
  | [], _ => none
  | (b, v) :: rest, a => if a = b then some v else Memory.read rest a

/-- `MemWrite(space, a, 1, v)` (00_scope.md R11). -/
def Memory.write : Memory → Nat → Byte → Memory
  | [], a, v => [(a, v)]
  | (b, w) :: rest, a, v =>
    if a < b then (a, v) :: (b, w) :: rest
    else if a = b then (a, v) :: rest
    else (b, w) :: Memory.write rest a v

/-- The canonical form: addresses strictly rising, so that equal memories are equal lists. -/
abbrev Memory.wf (m : Memory) : Prop := List.Pairwise (fun x y : Host.Cell => x.1 < y.1) m

/-- Every listed address is below `n`. -/
abbrev Memory.below (m : Memory) (n : Nat) : Prop := ∀ c ∈ m, c.1 < n

end Sys2Proof.Machine
end

