-- ==== Sys2Proof/Machine/State.lean ====
section
/-! DEFINITION. The state of the block as plain data (10_state.md R20 to R39, 20_memory.md R50), the reasons a step can
stop, and the state after reset (R37, 70_reset_and_hazards.md R185). -/

namespace Sys2Proof.Machine

/-- The running command, latched at its start (10_state.md R33). -/
inductive Mode where
  | compress | decompress
deriving DecidableEq, Repr

/-- The control state (10_state.md R33, 43_commands_and_control.md R155). -/
inductive Phase where
  | idle | awaitingTag | processingGroup
deriving DecidableEq, Repr

/-- Which operation of an iteration is next in PROCESSING_GROUP: the token (FINDMATCH, LIT or MATCH), its body (EMIT_LIT or
EMIT_MATCH; COPY_BYTE), or the advance (NEXT_BIT). The model's own sub-step of 43_commands_and_control.md R157, log 1. -/
inductive Stage where
  | token | body | advance
deriving DecidableEq, Repr

/-- `tok_kind`, the polarity of the tag bit: 1 = Literal, 0 = Match (10_state.md R31). -/
inductive TokenKind where
  | literal | matched
deriving DecidableEq, Repr

/-- The six host registers by name (10_state.md R21; 92_eei_decisions.md D2). -/
inductive HostReg where
  | cfg | cmd | inLen | outLimit | result | status
deriving DecidableEq, Repr

/-- The register's number (10_state.md, table of section 2). -/
def HostReg.number : HostReg → Nat
  | .cfg => 0
  | .cmd => 1
  | .inLen => 2
  | .outLimit => 3
  | .result => 4
  | .status => 5

/-- A move of the host (43_commands_and_control.md R160), hardware reset (70_reset_and_hazards.md R185), or `wait`: the
host lets one step go by (log 14). -/
inductive HostMove where
  | writeReg (r : HostReg) (v : Word)
  | readReg (r : HostReg)
  | writeIn (a : Nat) (v : Byte)
  | writeOut (a : Nat) (v : Byte)
  | readOut (a : Nat)
  | reset
  | wait
deriving DecidableEq, Repr

/-- Everything the spec gives the machine (10_state.md R21), the instance's parameters (00_scope.md R9) and the model's own
bookkeeping, last. Cursors and counts are natural numbers, as the rules have them (00_scope.md R10, 10_state.md R27);
their widths are an invariant (log 7). -/
structure State where
  /-- The instance: `length_bits`, `IN_SIZE`, `OUT_SIZE` (00_scope.md R9). Constant (10_state.md R21). -/
  config    : Config
  /-- `IN_LEN` (10_state.md R24). -/
  inLen     : Word
  /-- `OUT_LIMIT` (10_state.md R24). -/
  outLimit  : Word
  /-- `RESULT` (10_state.md R25). -/
  result    : Word
  /-- `STATUS`: bit 0 BUSY, bit 1 DONE (10_state.md R26). -/
  status    : Word
  /-- `mode` (10_state.md R33). -/
  mode      : Mode
  /-- `phase` (10_state.md R33). -/
  phase     : Phase
  /-- `ip`, the input cursor (10_state.md R28). -/
  ip        : Nat
  /-- `op`, the output position (10_state.md R28). -/
  op        : Nat
  /-- `bit`, the bit cursor (10_state.md R28, R35). -/
  bit       : Byte
  /-- `tag`, the tag byte of the open group (10_state.md R28). -/
  tag       : Byte
  /-- `tagpos`, the OUT index of the open group's tag byte (10_state.md R29). -/
  tagpos    : Nat
  /-- `ws`, window start (10_state.md R30). -/
  ws        : Nat
  /-- `ub`, upper bound on the match length (10_state.md R30). -/
  ub        : Nat
  /-- `cand`, the candidate examined last (10_state.md R30). -/
  cand      : Nat
  /-- `k`, the common prefix of that candidate (10_state.md R30). -/
  k         : Nat
  /-- `best_len` (10_state.md R30). -/
  bestLen   : Nat
  /-- `best_start` (10_state.md R30). -/
  bestStart : Nat
  /-- `tok_kind` (10_state.md R31). -/
  tokKind   : TokenKind
  /-- `tok_byte` (10_state.md R31). -/
  tokByte   : Byte
  /-- `tok_off` (10_state.md R31). -/
  tokOff    : Nat
  /-- `tok_len` (10_state.md R31). -/
  tokLen    : Nat
  /-- `val`, the packed value read (10_state.md R32). -/
  val       : Half
  /-- `m_len` (10_state.md R32). -/
  mLen      : Nat
  /-- `m_off` (10_state.md R32). -/
  mOff      : Nat
  /-- `cnt`, bytes of the current match still to copy (10_state.md R32). -/
  cnt       : Nat
  /-- The IN memory (10_state.md R38). -/
  inMem     : Memory
  /-- The OUT memory (10_state.md R38). -/
  outMem    : Memory
  /-- The model's own: the sub-step of the iteration (log 1). -/
  stage     : Stage
  /-- The model's own: how many values have been drawn (log 6). -/
  draws     : Nat
  /-- The model's own: the command met an ill-referenced match (42_decompressor.md R140, log 6). -/
  illRef    : Bool
  /-- The model's own: which unspecified content OUT's unlisted bytes have (U8, log 17). -/
  outEpoch  : Nat
  /-- The model's own: the host's moves still to come, oldest first (log 14). -/
  host      : List HostMove
  /-- The model's own: what the host's last read returned (log 16). -/
  hostData  : Word
deriving DecidableEq, Repr

/-- Why the model stops with a fault. The hardware raises nothing (60_exceptions.md R170); each of these marks a point at
which the spec gives no effect, and a run from reset meets the first two nowhere (log 8, log 10, log 18). -/
inductive Fault where
  /-- An operation was run in a state outside the `requires` clause of its rule. Raised by the meanings of TAG, LIT, MATCH,
  COPY_BYTE, FINDMATCH, OPEN_GROUP, EMIT_LIT, EMIT_MATCH and NEXT_BIT. Safe. -/
  | requiresViolated
  /-- A MATCH row was run on an instance with another `length_bits` (30_encoding.md R74). Raised by the MATCH meanings. Safe. -/
  | otherLengthBits
  /-- The host named an index its memory does not have (20_memory.md R53). Raised by host accesses to IN and OUT. Safe. -/
  | noSuchIndex
deriving DecidableEq, Repr

/-- Why the model gives no meaning. -/
inductive Refusal where
  /-- An operation without a meaning in this model. Raised by no operation: every row has its meaning. Safe. -/
  | notModelled (mnemonic : String)
  /-- `IN_LEN > IN_SIZE` or `OUT_LIMIT > OUT_SIZE` at a command start: U6, "refuse" (20_memory.md R53). Raised by COMPRESS and
  DECOMPRESS. Safe. -/
  | argumentsExceedMemory
  /-- The final `op` exceeds 2^32 - 1: U4, "refuse the command" (10_state.md R27). Raised at completion, which follows the
  last NEXT_BIT. Safe. -/
  | resultOutOfDomain
deriving DecidableEq, Repr

/-- The state right after reset (10_state.md R37, 70_reset_and_hazards.md R185): IDLE, STATUS = 0, the default instance,
memories with nothing listed, no host move. IN_LEN, OUT_LIMIT and RESULT are unspecified: drawn values (DESIGN CHOICE,
log 3). The working registers are unspecified: zero, mode COMPRESS, tok_kind 0 (DESIGN CHOICE, log 4, unsafe). -/
def State.reset : State where
  config    := Config.default
  inLen     := Config.freeWord 0
  outLimit  := Config.freeWord 1
  result    := Config.freeWord 2
  status    := 0
  mode      := .compress
  phase     := .idle
  ip        := 0
  op        := 0
  bit       := 0
  tag       := 0
  tagpos    := 0
  ws        := 0
  ub        := 0
  cand      := 0
  k         := 0
  bestLen   := 0
  bestStart := 0
  tokKind   := .matched
  tokByte   := 0
  tokOff    := 0
  tokLen    := 0
  val       := 0
  mLen      := 0
  mOff      := 0
  cnt       := 0
  inMem     := []
  outMem    := []
  stage     := .token
  draws     := 3
  illRef    := false
  outEpoch  := 0
  host      := []
  hostData  := 0

end Sys2Proof.Machine
end

