-- ==== Sys2Proof/Machine/Flags.lean ====
section
/-! DEFINITION. The flag-like state (10_state.md R34, R35): the tag bit under the bit cursor, and the BUSY and DONE bits of
STATUS (R26). There are no condition codes. -/

namespace Sys2Proof.Machine

/-- `STATUS.BUSY`, bit 0 (10_state.md R26). -/
def State.busy (s : State) : Bool := s.status.getLsbD 0

/-- `STATUS.DONE`, bit 1 (10_state.md R26). -/
def State.done (s : State) : Bool := s.status.getLsbD 1

/-- STATUS while a command runs: BUSY = 1, DONE = 0, bits 31:2 zero (10_state.md R26, 43_commands_and_control.md R152). -/
def statusRunning : Word := 1#32

/-- STATUS after a completion: BUSY = 0, DONE = 1, bits 31:2 zero (10_state.md R26, 43_commands_and_control.md R156). -/
def statusComplete : Word := 2#32

/-- `tag & bit ≠ 0`: the current token is a literal (10_state.md R34, 42_decompressor.md R132). -/
def State.tagBitSet (s : State) : Bool := decide (s.tag &&& s.bit ≠ 0#8)

/-- `tag | bit`: the tag with the current token marked a literal (41_token_encoder.md R112). -/
def State.tagWithBit (s : State) : Byte := s.tag ||| s.bit

/-- `(bit << 1) & 0xFF` (43_commands_and_control.md R154). -/
def shiftCursor (bit : Byte) : Byte := bit <<< 1

end Sys2Proof.Machine
end

