-- ==== Sys2Proof/Machine/Operands.lean ====
section
/-! DEFINITION. The operands the rules name: `n`, `limit`, `L`, `W`, `M` (10_state.md R24, 00_scope.md R7), the bytes of IN and
OUT, and the finder's window and bound (40_match_finder.md R91, R92). -/

namespace Sys2Proof.Machine

/-- `n`, the value of IN_LEN (10_state.md R24). -/
def State.n (s : State) : Nat := s.inLen.toNat

/-- `limit`, the value of OUT_LIMIT (10_state.md R24). -/
def State.limit (s : State) : Nat := s.outLimit.toNat

/-- `L`, the instance's split (00_scope.md R6). -/
def State.split (s : State) : LengthBits := s.config.lengthBits

/-- `MemRead(IN, a, 1)` (00_scope.md R11): the byte written last, or the unspecified content of an index never written
(10_state.md R37, U9; log 5). -/
def State.inByte (s : State) (a : Nat) : Byte := (s.inMem.read a).getD (Config.unwrittenIn a)

/-- `MemRead(OUT, a, 1)` (00_scope.md R11), with unspecified content as for IN (log 5, log 17). -/
def State.outByte (s : State) (a : Nat) : Byte := (s.outMem.read a).getD (Config.unwrittenOut s.outEpoch a)

/-- The bytes of IN from `ip` on that lie below `n`, at most `count` of them: the engine reads IN only at indices below
IN_LEN (20_memory.md R51). -/
def State.streamBytes (s : State) (count : Nat) : List Byte :=
  (List.range (min count (s.n - s.ip))).map (fun j => s.inByte (s.ip + j))

/-- `max(0, ip - W)` (40_match_finder.md R91). -/
def State.windowStart (s : State) : Nat := s.ip - s.split.windowSize

/-- `min(M, n - ip)` (40_match_finder.md R92). -/
def State.lengthBound (s : State) : Nat := min s.split.maxMatch (s.n - s.ip)

/-- The host's view of CFG: `length_bits` in bits 3:0, other bits 0 (10_state.md R22). -/
def State.cfgWord (s : State) : Word := BitVec.ofNat 32 s.split.toNat

end Sys2Proof.Machine
end

