-- ==== Sys2Proof/Machine/Ops.lean ====
section
/-! DEFINITION. The operations the meanings share: the guarded write, the draw, completion, command start and the control
transfer after a token (00_scope.md R11; 43_commands_and_control.md R152 to R156). The block raises no exception
(60_exceptions.md R170, R174), so there is no exception entry and no return. -/

namespace Sys2Proof.Machine

/-- What every meaning answers. -/
abbrev Result := Host.Outcome State Fault Refusal

/-- `GWrite(a, v)`: write OUT at `a` if `a < OUT_LIMIT`, else access nothing (00_scope.md R11, 41_token_encoder.md R117). -/
def State.gwrite (s : State) (a : Nat) (v : Byte) : State :=
  { s with outMem := if a < s.limit then s.outMem.write a v else s.outMem }

/-- The operation `t` where the rule's `requires` clause holds. Outside it the spec gives no effect: a fault (log 8). -/
def requiring (p : Bool) (t : Result) : Result := if p then t else .fault .requiresViolated

/-- The state at a completion: RESULT takes `op`, BUSY is cleared, DONE set, the phase is IDLE
(43_commands_and_control.md R156). -/
def State.finish (s : State) : State :=
  { s with result := BitVec.ofNat 32 s.op, status := statusComplete, phase := .idle }

/-- Completion (43_commands_and_control.md R156). A final `op` above 2^32 - 1 is out of domain and refused (10_state.md R27,
U4; log 12). -/
def complete (s : State) : Result :=
  if s.op < 2 ^ 32 then .next s.finish else .refused .resultOutOfDomain

/-- The state a command start leaves: mode latched, DONE cleared, BUSY set, cursors, bit cursor and tag 0, AWAITING_TAG
(43_commands_and_control.md R152). `stage` and `illRef` are the model's own. -/
def State.started (s : State) (m : Mode) : State :=
  { s with mode := m, status := statusRunning, ip := 0, op := 0, bit := 0#8, tag := 0#8,
           phase := .awaitingTag, stage := .token, illRef := false }

/-- A CMD write of 1 or 2: the command start of 43_commands_and_control.md R152, with completion at once when IN_LEN = 0
(R155). While a command runs the write is ignored (10_state.md R23; log 25). Arguments larger than the memories are
refused (20_memory.md R53, U6; log 13). -/
def startCommand (m : Mode) (s : State) : Result :=
  if s.phase = .idle ∧ s.busy = false then
    if s.n ≤ s.config.inSize.toNat ∧ s.limit ≤ s.config.outSize.toNat then
      if s.n = 0 then complete (s.started m) else .next (s.started m)
    else .refused .argumentsExceedMemory
  else .next s

/-- The control transfer after a token and NEXT_BIT (43_commands_and_control.md R153, R155): completion when `ip ≥ n`, else
on to the next tag or the next token. -/
def endIteration (s : State) : Result :=
  if s.n ≤ s.ip then complete { s with stage := .token }
  else .next { s with stage := .token, phase := if s.bit = 0#8 then .awaitingTag else .processingGroup }

end Sys2Proof.Machine
end

