-- ==== Sys2Proof/Machine/Commands.lean ====
section
/-! DEFINITION. COMPRESS, DECOMPRESS and the operation both commands share, NEXT_BIT (43_commands_and_control.md). -/

namespace Sys2Proof.Machine

/-- COMPRESS (43_commands_and_control.md R150): the command start with mode COMPRESS. COMPRESS_LOOP (41_token_encoder.md
R110) is what the following steps run, operation by operation (R157, log 1). -/
def execCompress (s : State) : Result := startCommand .compress s

/-- DECOMPRESS (43_commands_and_control.md R151): the command start with mode DECOMPRESS; DECOMPRESS_LOOP
(42_decompressor.md R130) is what the following steps run. -/
def execDecompress (s : State) : Result := startCommand .decompress s

/-- NEXT_BIT (43_commands_and_control.md R154), requires `bit ≠ 0`; then the control transfer of R155. -/
def execNextBit (s : State) : Result :=
  requiring (decide (s.bit ≠ 0#8)) (endIteration { s with bit := shiftCursor s.bit })

end Sys2Proof.Machine
end

