-- ==== Sys2Proof/Syntax.lean ====
section
/-! DEFINITION. The operations of the block, one constructor per row of spec/opcode_table.json (30_encoding.md R83): two
host commands, the stream items TAG, LIT and MATCH (a row for each `length_bits`), and six internal operations. -/

namespace Sys2Proof

/-- The operations of the block (30_encoding.md R83). -/
inductive Instr where
  /-- COMPRESS: host command, CMD word 1 (43_commands_and_control.md R150). -/
  | compress
  /-- DECOMPRESS: host command, CMD word 2 (43_commands_and_control.md R151). -/
  | decompress
  /-- TAG: the stream byte met when no group is open (42_decompressor.md R131). -/
  | tag (t : Byte)
  /-- LIT: the stream byte met at a set tag bit (42_decompressor.md R134). -/
  | lit (b : Byte)
  /-- MATCH on an instance with `length_bits = 2` (42_decompressor.md R136). -/
  | matchL2 (off len : Nat)
  /-- MATCH on an instance with `length_bits = 3`. -/
  | matchL3 (off len : Nat)
  /-- MATCH on an instance with `length_bits = 4`. -/
  | matchL4 (off len : Nat)
  /-- MATCH on an instance with `length_bits = 5`, the default. -/
  | matchL5 (off len : Nat)
  /-- MATCH on an instance with `length_bits = 6`. -/
  | matchL6 (off len : Nat)
  /-- MATCH on an instance with `length_bits = 7`. -/
  | matchL7 (off len : Nat)
  /-- MATCH on an instance with `length_bits = 8`. -/
  | matchL8 (off len : Nat)
  /-- FINDMATCH: the greedy window scan of COMPRESS (40_match_finder.md R90). -/
  | findMatch
  /-- OPEN_GROUP: COMPRESS reserves a tag byte (41_token_encoder.md R111). -/
  | openGroup
  /-- EMIT_LIT: COMPRESS writes a literal and patches the tag (41_token_encoder.md R112). -/
  | emitLit
  /-- EMIT_MATCH: COMPRESS writes a packed match (41_token_encoder.md R114). -/
  | emitMatch
  /-- COPY_BYTE: one byte of a match in DECOMPRESS (42_decompressor.md R137). -/
  | copyByte
  /-- NEXT_BIT: the bit cursor moves to the next token (43_commands_and_control.md R154). -/
  | nextBit
deriving DecidableEq, Repr

/-- The MATCH row of a split. -/
def Instr.ofMatch : LengthBits → (off len : Nat) → Instr
  | .l2, off, len => .matchL2 off len
  | .l3, off, len => .matchL3 off len
  | .l4, off, len => .matchL4 off len
  | .l5, off, len => .matchL5 off len
  | .l6, off, len => .matchL6 off len
  | .l7, off, len => .matchL7 off len
  | .l8, off, len => .matchL8 off len

/-- The split, offset and length of a MATCH row; none for another row. -/
def Instr.matchFields? : Instr → Option (LengthBits × Nat × Nat)
  | .matchL2 off len => some (.l2, off, len)
  | .matchL3 off len => some (.l3, off, len)
  | .matchL4 off len => some (.l4, off, len)
  | .matchL5 off len => some (.l5, off, len)
  | .matchL6 off len => some (.l6, off, len)
  | .matchL7 off len => some (.l7, off, len)
  | .matchL8 off len => some (.l8, off, len)
  | .compress | .decompress | .tag _ | .lit _ => none
  | .findMatch | .openGroup | .emitLit | .emitMatch | .copyByte | .nextBit => none

end Sys2Proof
end

