-- ==== Sys2Proof/WellFormed.lean ====
section
/-! DEFINITION. Which operands an encoding admits (30_encoding.md R74), which of them the encoder produces (R78), and when
a listing of stream items is well formed as encoder output (R84, R85). -/

namespace Sys2Proof

/-- Both fields of a MATCH fit the split: `0 ≤ offset ≤ W` and `0 ≤ length ≤ M` (30_encoding.md R74, R76, R84). -/
def LengthBits.admits (l : LengthBits) (off len : Nat) : Bool :=
  decide (off ≤ l.windowSize) && decide (len ≤ l.maxMatch)

/-- The ranges of a Match the encoder produces: `1 ≤ offset ≤ W` and `2 ≤ length ≤ M` (30_encoding.md R78). -/
def LengthBits.produces (l : LengthBits) (off len : Nat) : Bool :=
  decide (1 ≤ off) && decide (2 ≤ len) && l.admits off len

/-- Every operand is one the row's encoding can hold. All byte values are legal for TAG and LIT (R72, R73). -/
def Instr.wf : Instr → Bool
  | .matchL2 off len => LengthBits.l2.admits off len
  | .matchL3 off len => LengthBits.l3.admits off len
  | .matchL4 off len => LengthBits.l4.admits off len
  | .matchL5 off len => LengthBits.l5.admits off len
  | .matchL6 off len => LengthBits.l6.admits off len
  | .matchL7 off len => LengthBits.l7.admits off len
  | .matchL8 off len => LengthBits.l8.admits off len
  | .compress | .decompress | .tag _ | .lit _ => true
  | .findMatch | .openGroup | .emitLit | .emitMatch | .copyByte | .nextBit => true

/-- The group a listing is in the middle of: its tag byte and how many of its tokens have been read. -/
structure OpenGroup where
  tag    : Byte
  tokens : Nat
deriving DecidableEq, Repr

/-- A token may follow in this group: fewer than 8 have, and the tag bit of the next position is `literal`. -/
def OpenGroup.expects (g : OpenGroup) (literal : Bool) : Bool :=
  decide (g.tokens < 8) && (g.tag.getLsbD g.tokens == literal)

/-- The listing may end, or a new group may start, here: `lastGroup` says whether fewer than 8 tokens are enough. -/
def OpenGroup.mayClose (g : OpenGroup) (lastGroup : Bool) : Bool :=
  if lastGroup then decide (1 ≤ g.tokens ∧ g.tokens ≤ 8) else decide (g.tokens = 8)

/-- A listing of stream items, read from the group `g` (none: before the first TAG) with `produced` plain bytes
represented so far, is well formed as encoder output: "every TAG is followed by 1 to 8 tokens, only the last group has
fewer than 8, each tag bit agrees with its token, and every MATCH has 1 ≤ offset, 2 ≤ length and an offset not
greater than the number of bytes the preceding tokens represent" (30_encoding.md R84). -/
def encoderOutputFrom (l : LengthBits) : List Instr → (g : Option OpenGroup) → (produced : Nat) → Bool
  | [], none, _ => true
  | [], some g, _ => g.mayClose true
  | .tag t :: rest, none, p => encoderOutputFrom l rest (some ⟨t, 0⟩) p
  | .tag t :: rest, some g, p => g.mayClose false && encoderOutputFrom l rest (some ⟨t, 0⟩) p
  | .lit _ :: rest, some g, p => g.expects true && encoderOutputFrom l rest (some ⟨g.tag, g.tokens + 1⟩) (p + 1)
  | i :: rest, some g, p =>
    match i.matchFields? with
    | some (l', off, len) =>
      decide (l' = l) && g.expects false && l.produces off len && decide (off ≤ p)
        && encoderOutputFrom l rest (some ⟨g.tag, g.tokens + 1⟩) (p + len)
    | none => false
  | _ :: _, none, _ => false

/-- A whole listing is well formed as encoder output (30_encoding.md R84); its grammar is that of R85. -/
def encoderOutput (l : LengthBits) (items : List Instr) : Bool := encoderOutputFrom l items none 0

end Sys2Proof
end

