-- ==== Sys2Proof/Decode.lean ====
section
/-! DEFINITION. Reading an operation from its encoding, and writing it (30_encoding.md R70 to R82). An encoding carries no
opcode bits (R77): the PLACE where it is met says which row it belongs to. Internal operations have no encoding (R83). -/

namespace Sys2Proof

/-! ### The packed value of a match token (R74 to R76) -/

/-- `value[15:8]`, the first byte of a match token in the stream (20_memory.md R55). -/
def hiByte (v : Half) : Byte := v.extractLsb' 8 8

/-- `value[7:0]`, the second byte of a match token in the stream (20_memory.md R55). -/
def loByte (v : Half) : Byte := v.extractLsb' 0 8

/-- `value = (hi << 8) | lo` (30_encoding.md R76). -/
def ofBytes (hi lo : Byte) : Half := hi ++ lo

/-- `((offset << L) | (length & M)) & 0xFFFF` (30_encoding.md R75, 41_token_encoder.md R114). -/
def pack (l : LengthBits) (off len : Nat) : Half := BitVec.ofNat 16 ((off <<< l.toNat) ||| (len &&& l.maxMatch))

/-- `length = value & M` (30_encoding.md R76). -/
def unpackLength (l : LengthBits) (v : Half) : Nat := v.toNat &&& l.maxMatch

/-- `offset = value >> L` (30_encoding.md R76). -/
def unpackOffset (l : LengthBits) (v : Half) : Nat := v.toNat >>> l.toNat

/-! ### Decoding -/

/-- Where a stream item is met, which is all that tells the rows apart (30_encoding.md R77): a position with no open group,
one at a set tag bit, one at a clear tag bit of an instance. -/
inductive ItemPlace where
  | tagByte
  | literal
  | matchToken (l : LengthBits)
deriving DecidableEq, Repr

/-- How many bytes the item at a place has: "tag 1, literal 1, match 2" (10_state.md R33). -/
def ItemPlace.length : ItemPlace → Nat
  | .tagByte => 1
  | .literal => 1
  | .matchToken _ => 2

/-- Where an encoded operation is met: a write to the CMD register, or a place of the stream. -/
inductive Place where
  | command
  | item (p : ItemPlace)
deriving DecidableEq, Repr

/-- An encoding: a word written to CMD (R82; register values have no byte order, R55), or bytes of the stream. -/
inductive Encoding where
  | cmd (w : Word)
  | stream (bs : List Byte)
deriving DecidableEq, Repr

/-- Why an encoding is rejected. -/
inductive DecodeError where
  /-- A CMD value other than 1 and 2: the write is ignored (10_state.md R23). -/
  | ignoredCommand
  /-- The stream ends inside the item (30_encoding.md R80). -/
  | truncated
  /-- Stream bytes at the CMD register, or a CMD word in the stream. -/
  | wrongPort
deriving DecidableEq, Repr

/-- The CMD codes: 1 = COMPRESS, 2 = DECOMPRESS; every other value is ignored (30_encoding.md R82, 10_state.md R23). -/
def decodeCommand (w : Word) : Except DecodeError Instr :=
  if w = 1#32 then .ok .compress
  else if w = 2#32 then .ok .decompress
  else .error .ignoredCommand

/-- One item off the front of the stream, with the bytes that follow it (30_encoding.md R72 to R77). Every value of a
whole item is legal (R79); only a cut-off item is rejected. -/
def decodeItem : ItemPlace → List Byte → Except DecodeError (Instr × List Byte)
  | .tagByte, t :: rest => .ok (.tag t, rest)
  | .literal, b :: rest => .ok (.lit b, rest)
  | .matchToken l, hi :: lo :: rest =>
    let v := ofBytes hi lo
    .ok (Instr.ofMatch l (unpackOffset l v) (unpackLength l v), rest)
  | .tagByte, [] => .error .truncated
  | .literal, [] => .error .truncated
  | .matchToken _, [] => .error .truncated
  | .matchToken _, [_] => .error .truncated

/-- The decoder: the operation an encoding holds at a place, with the stream bytes that follow it. -/
def decode : Place → Encoding → Except DecodeError (Instr × List Byte)
  | .command, .cmd w => (decodeCommand w).map (fun i => (i, []))
  | .item p, .stream bs => decodeItem p bs
  | .command, .stream _ => .error .wrongPort
  | .item _, .cmd _ => .error .wrongPort

/-- The operation read from an encoding whose bits are `w`, numbered as spec/opcode_table.json numbers them. A word of 32
bits is met at CMD, one of 16 bits at a match position of the default split (its most significant byte first in the
stream), one of 8 bits at a tag position: a LIT has the same 8 bits and no row of no bits can be met at all (log 19). -/
def decodeTableWord (nbits w : Nat) : Option Instr :=
  match nbits with
  | 32 => (decodeCommand (BitVec.ofNat 32 w)).toOption
  | 16 =>
    let v : Half := BitVec.ofNat 16 w
    ((decodeItem (.matchToken Config.default.lengthBits) [hiByte v, loByte v]).map Prod.fst).toOption
  | 8 => ((decodeItem .tagByte [BitVec.ofNat 8 w]).map Prod.fst).toOption
  | _ => none

/-! ### Encoding -/

/-- The bytes of a MATCH token: the packed value, most significant byte first (30_encoding.md R75). -/
def matchBytes (l : LengthBits) (off len : Nat) : List Byte := [hiByte (pack l off len), loByte (pack l off len)]

/-- The place at which an operation's encoding is met; none for an internal operation. -/
def Instr.place? : Instr → Option Place
  | .compress => some .command
  | .decompress => some .command
  | .tag _ => some (.item .tagByte)
  | .lit _ => some (.item .literal)
  | .matchL2 _ _ => some (.item (.matchToken .l2))
  | .matchL3 _ _ => some (.item (.matchToken .l3))
  | .matchL4 _ _ => some (.item (.matchToken .l4))
  | .matchL5 _ _ => some (.item (.matchToken .l5))
  | .matchL6 _ _ => some (.item (.matchToken .l6))
  | .matchL7 _ _ => some (.item (.matchToken .l7))
  | .matchL8 _ _ => some (.item (.matchToken .l8))
  | .findMatch | .openGroup | .emitLit | .emitMatch | .copyByte | .nextBit => none

/-- The encoder, from the formats of 30_encoding.md R72 to R75 and the codes of R82; none for an internal operation,
which has no encoding (R83). -/
def encode : Instr → Option Encoding
  | .compress => some (.cmd 1#32)
  | .decompress => some (.cmd 2#32)
  | .tag t => some (.stream [t])
  | .lit b => some (.stream [b])
  | .matchL2 off len => some (.stream (matchBytes .l2 off len))
  | .matchL3 off len => some (.stream (matchBytes .l3 off len))
  | .matchL4 off len => some (.stream (matchBytes .l4 off len))
  | .matchL5 off len => some (.stream (matchBytes .l5 off len))
  | .matchL6 off len => some (.stream (matchBytes .l6 off len))
  | .matchL7 off len => some (.stream (matchBytes .l7 off len))
  | .matchL8 off len => some (.stream (matchBytes .l8 off len))
  | .findMatch | .openGroup | .emitLit | .emitMatch | .copyByte | .nextBit => none

/-- How many bits an encoding has. -/
def Encoding.bits : Encoding → Nat
  | .cmd _ => 32
  | .stream bs => 8 * bs.length

/-- The stream bytes of one item of a listing; an item that is no stream item gives none. -/
def itemBytes (i : Instr) : List Byte :=
  match encode i with
  | some (.stream bs) => bs
  | some (.cmd _) => []
  | none => []

/-- The stream a listing stands for: its items in order, nothing before, between or after them (30_encoding.md R70, R84). -/
def assemble (items : List Instr) : List Byte := items.flatMap itemBytes

/-- The tag byte of the pseudo-item GROUP: bit `i` is 1 if the `i`-th of the following (up to 8) tokens is a LIT, bits
past the last token are 0 (30_encoding.md R84). -/
def groupTag (tokens : List Instr) : Byte :=
  match tokens with
  | [] => 0
  | .lit _ :: rest => (groupTag rest <<< 1) ||| 1
  | _ :: rest => groupTag rest <<< 1

end Sys2Proof
end

