-- ==== Sys2Proof/Machine/Decompressor.lean ====
section
/-! DEFINITION. The decompressor: TAG, LIT, MATCH for each `length_bits`, COPY_BYTE (42_decompressor.md R131 to R141). -/

namespace Sys2Proof.Machine

/-- TAG (42_decompressor.md R131), requires `bit = 0` and `ip < n`; then PROCESSING_GROUP (43_commands_and_control.md R155). -/
def execTag (t : Byte) (s : State) : Result :=
  requiring (decide (s.bit = 0#8 ∧ s.ip < s.n)) <|
    .next { s with tag := t, ip := s.ip + 1, bit := 1#8, phase := .processingGroup, stage := .token }

/-- LIT (42_decompressor.md R134), requires `bit ≠ 0` and `tag & bit ≠ 0`: the byte is copied if input is left and output is
not full; both cursors advance in every case, a phantom literal (R135) included. -/
def execLit (b : Byte) (s : State) : Result :=
  requiring (decide (s.bit ≠ 0#8) && s.tagBitSet) <|
    .next { s with
      outMem := if s.ip < s.n ∧ s.op < s.limit then s.outMem.write s.op b else s.outMem
      ip := s.ip + 1, op := s.op + 1, stage := .advance }

/-- MATCH on a split (42_decompressor.md R136), requires `bit ≠ 0` and `tag & bit = 0`: the packed value is read and unpacked
(30_encoding.md R76) and the copy loop set up, or, with fewer than 2 bytes left, the token is skipped (R139). -/
def matchToken (l : LengthBits) (off len : Nat) (s : State) : Result :=
  if s.split = l then
    requiring (decide (s.bit ≠ 0#8) && !s.tagBitSet) <|
      if s.ip + 2 ≤ s.n then
        let v := pack l off len
        let m := unpackLength l v
        .next { s with
          val := v, ip := s.ip + 2, mLen := m, mOff := unpackOffset l v, cnt := m,
          stage := if m = 0 then .advance else .body }
      else .next { s with ip := s.ip + 2, stage := .advance }
  else .fault .otherLengthBits

/-- MATCH, `length_bits = 2` (42_decompressor.md R136). -/
def execMatchL2 (off len : Nat) (s : State) : Result := matchToken .l2 off len s

/-- MATCH, `length_bits = 3` (42_decompressor.md R136). -/
def execMatchL3 (off len : Nat) (s : State) : Result := matchToken .l3 off len s

/-- MATCH, `length_bits = 4` (42_decompressor.md R136). -/
def execMatchL4 (off len : Nat) (s : State) : Result := matchToken .l4 off len s

/-- MATCH, `length_bits = 5` (42_decompressor.md R136). -/
def execMatchL5 (off len : Nat) (s : State) : Result := matchToken .l5 off len s

/-- MATCH, `length_bits = 6` (42_decompressor.md R136). -/
def execMatchL6 (off len : Nat) (s : State) : Result := matchToken .l6 off len s

/-- MATCH, `length_bits = 7` (42_decompressor.md R136). -/
def execMatchL7 (off len : Nat) (s : State) : Result := matchToken .l7 off len s

/-- MATCH, `length_bits = 8` (42_decompressor.md R136). -/
def execMatchL8 (off len : Nat) (s : State) : Result := matchToken .l8 off len s

/-- The copy step has a source byte: `1 ≤ m_off ≤ op` (42_decompressor.md R137). -/
def State.wellReferenced (s : State) : Bool := decide (1 ≤ s.mOff ∧ s.mOff ≤ s.op)

/-- The step's write is allowed and has no source byte: an ill-referenced match (42_decompressor.md R140). A step whose
write is skipped is never one (60_exceptions.md R173). -/
def State.illReferencedStep (s : State) : Bool := decide (s.op < s.limit) && !s.wellReferenced

/-- The byte a copy step writes: the one `m_off` back (42_decompressor.md R137), or, for an ill-referenced match, a drawn
byte (R140, U1, U2; log 6). -/
def State.copiedByte (s : State) : Byte :=
  if s.wellReferenced then s.outByte (s.op - s.mOff) else Config.freeByte s.draws

/-- The memory side of a copy step: the guarded write (42_decompressor.md R141); an ill-referenced step spends a draw and
marks the run (R140). -/
def State.copyWrite (s : State) : State :=
  { s.gwrite s.op s.copiedByte with
    draws := if s.illReferencedStep then s.draws + 1 else s.draws
    illRef := s.illRef || s.illReferencedStep }

/-- COPY_BYTE (42_decompressor.md R137), requires `cnt > 0`: the write is made only below the limit (R141); the cursors
advance in every case. -/
def execCopyByte (s : State) : Result :=
  requiring (decide (0 < s.cnt)) <|
    .next { s.copyWrite with
      op := s.op + 1, cnt := s.cnt - 1, stage := if s.cnt = 1 then .advance else .body }

end Sys2Proof.Machine
end

