-- ==== Sys2Proof/Machine/Encoder.lean ====
section
/-! DEFINITION. The token encoder of COMPRESS: OPEN_GROUP, EMIT_LIT, EMIT_MATCH (41_token_encoder.md R111 to R117). -/

namespace Sys2Proof.Machine

/-- OPEN_GROUP (41_token_encoder.md R111), requires `bit = 0` and `ip < n`; then PROCESSING_GROUP (R155). -/
def execOpenGroup (s : State) : Result :=
  requiring (decide (s.bit = 0#8 ∧ s.ip < s.n)) <|
    .next { s.gwrite s.op 0#8 with
      tagpos := s.op, tag := 0#8, op := s.op + 1, bit := 1#8, phase := .processingGroup, stage := .token }

/-- EMIT_LIT (41_token_encoder.md R112), requires `bit ≠ 0` and `tok_kind = 1`: the literal byte, then the back-patch of the
tag byte (R113), each guarded on its own (R117). That `tok_byte = IN[ip]` is an invariant, not tested (log 9). -/
def execEmitLit (s : State) : Result :=
  requiring (decide (s.bit ≠ 0#8 ∧ s.tokKind = .literal)) <|
    .next { (s.gwrite s.op s.tokByte).gwrite s.tagpos s.tagWithBit with
      op := s.op + 1, tag := s.tagWithBit, ip := s.ip + 1, stage := .advance }

/-- EMIT_MATCH (41_token_encoder.md R114), requires `bit ≠ 0` and `tok_kind = 0`: the packed value, high byte first, each
byte guarded on its own (R117); `tag` is not touched. -/
def execEmitMatch (s : State) : Result :=
  requiring (decide (s.bit ≠ 0#8 ∧ s.tokKind = .matched)) <|
    let value := pack s.split s.tokOff s.tokLen
    .next { (s.gwrite s.op (hiByte value)).gwrite (s.op + 1) (loByte value) with
      op := s.op + 2, ip := s.ip + s.tokLen, stage := .advance }

end Sys2Proof.Machine
end

