-- ==== Sys2Proof/Machine/Finder.lean ====
section
/-! DEFINITION. The match finder, FINDMATCH (40_match_finder.md R90 to R104), as the full scan of R100. -/

namespace Sys2Proof.Machine

/-- `cpl`: the greatest `k ≤ ub` such that the bytes from `c` and from `p` agree in their first `k` places; the region from
`c` may run past `p` (40_match_finder.md R94). The last argument is the bound. -/
def commonPrefix (rd : Nat → Byte) (c p : Nat) : (ub : Nat) → Nat
  | 0 => 0
  | ub + 1 => if rd c = rd p then commonPrefix rd (c + 1) (p + 1) ub + 1 else 0

/-- The scan's registers `cand`, `k`, `best_len`, `best_start` (10_state.md R30). -/
structure Scan where
  cand      : Nat
  k         : Nat
  bestLen   : Nat
  bestStart : Nat
deriving DecidableEq, Repr

/-- One candidate: only a strictly longer common prefix replaces the best (40_match_finder.md R95). -/
def visit (rd : Nat → Byte) (p ub c : Nat) (a : Scan) : Scan :=
  let k := commonPrefix rd c p ub
  if a.bestLen < k then { cand := c, k := k, bestLen := k, bestStart := c }
  else { a with cand := c, k := k }

/-- The candidates `c, c + 1, ...`, as many as the first argument says, in rising order (40_match_finder.md R93). -/
def scanFrom (rd : Nat → Byte) (p ub : Nat) : (count c : Nat) → Scan → Scan
  | 0, _, a => a
  | count + 1, c, a => scanFrom rd p ub count (c + 1) (visit rd p ub c a)

/-- The whole scan of the window `[max(0, ip - W), ip)`, started with `best_len = 0` (40_match_finder.md R91, R96). With no
candidate the registers `cand`, `k`, `best_start` keep what they held (log 22). -/
def State.scan (s : State) : Scan :=
  scanFrom s.inByte s.ip s.lengthBound (s.ip - s.windowStart) s.windowStart
    { cand := s.cand, k := s.k, bestLen := 0, bestStart := s.bestStart }

/-- The finder's registers after the scan (40_match_finder.md R100). -/
def State.withScan (s : State) (a : Scan) : State :=
  { s with ws := s.windowStart, ub := s.lengthBound, cand := a.cand, k := a.k,
           bestLen := a.bestLen, bestStart := a.bestStart }

/-- FINDMATCH (40_match_finder.md R100), requires `ip < n`: a best length below 2 gives a Literal (R97), any other the Match
of the oldest longest candidate (R98). -/
def execFindMatch (s : State) : Result :=
  requiring (decide (s.ip < s.n)) <|
    let a := s.scan
    let t := s.withScan a
    .next (if a.bestLen < 2 then
      { t with tokKind := .literal, tokByte := s.inByte s.ip, stage := .body }
    else
      { t with tokKind := .matched, tokOff := s.ip - a.bestStart, tokLen := a.bestLen, stage := .body })

end Sys2Proof.Machine
end

