-- ==== Sys2Proof/Machine/Dispatch.lean ====
section
/-! DEFINITION. The meaning of every operation: one arm per constructor of Instr, each one call. -/

namespace Sys2Proof.Machine

def exec (i : Instr) (s : State) : Host.Outcome State Fault Refusal :=
  match i with
  | .compress => Sys2Proof.Machine.execCompress s
  | .decompress => Sys2Proof.Machine.execDecompress s
  | .tag t => Sys2Proof.Machine.execTag t s
  | .lit b => Sys2Proof.Machine.execLit b s
  | .matchL2 off len => Sys2Proof.Machine.execMatchL2 off len s
  | .matchL3 off len => Sys2Proof.Machine.execMatchL3 off len s
  | .matchL4 off len => Sys2Proof.Machine.execMatchL4 off len s
  | .matchL5 off len => Sys2Proof.Machine.execMatchL5 off len s
  | .matchL6 off len => Sys2Proof.Machine.execMatchL6 off len s
  | .matchL7 off len => Sys2Proof.Machine.execMatchL7 off len s
  | .matchL8 off len => Sys2Proof.Machine.execMatchL8 off len s
  | .findMatch => Sys2Proof.Machine.execFindMatch s
  | .openGroup => Sys2Proof.Machine.execOpenGroup s
  | .emitLit => Sys2Proof.Machine.execEmitLit s
  | .emitMatch => Sys2Proof.Machine.execEmitMatch s
  | .copyByte => Sys2Proof.Machine.execCopyByte s
  | .nextBit => Sys2Proof.Machine.execNextBit s

end Sys2Proof.Machine
end

