-- ==== Sys2Proof/Machine/HostPort.lean ====
section
/-! DEFINITION. What the host does to the block: register and memory accesses (10_state.md R22 to R26,
43_commands_and_control.md R160) and hardware reset (70_reset_and_hazards.md R185). A CMD write of 1 or 2 starts a command
and is run by the dispatch (Machine/Fetch.lean, Machine/Step.lean). -/

namespace Sys2Proof.Machine

/-- The moves that may fall into a running command: the host "may read STATUS and CFG at any time" and waits, a CMD write is
ignored and a CMD read returns 0 (10_state.md R23), a write to a read-only register is ignored, and reset abandons the
command. Every other move is
held back while BUSY = 1: the spec gives the host no such move (U5, 43_commands_and_control.md R160; log 14, log 15). -/
def State.admits (s : State) : HostMove → Bool
  | .wait => true
  | .reset => true
  | .readReg .status => true
  | .readReg .cfg => true
  | .writeReg .cmd _ => true
  | .writeReg .cfg _ => true
  | .writeReg .result _ => true
  | .writeReg .status _ => true
  | .readReg .cmd => true
  | .readReg .inLen => !s.busy
  | .readReg .outLimit => !s.busy
  | .readReg .result => !s.busy
  | .writeReg .inLen _ => !s.busy
  | .writeReg .outLimit _ => !s.busy
  | .writeIn _ _ => !s.busy
  | .writeOut _ _ => !s.busy
  | .readOut _ => !s.busy

/-- What a read of a host register returns (10_state.md R22 to R26): CMD reads 0. -/
def State.regValue (s : State) : HostReg → Word
  | .cfg => s.cfgWord
  | .cmd => 0
  | .inLen => s.inLen
  | .outLimit => s.outLimit
  | .result => s.result
  | .status => s.status

/-- A host write to a register other than a starting CMD write: IN_LEN and OUT_LIMIT take the value (10_state.md R24); CFG
(R22), RESULT and STATUS are read-only and the write is ignored (log 15); another CMD value is ignored (R23). -/
def State.writeReg (s : State) (r : HostReg) (v : Word) : State :=
  match r with
  | .inLen => { s with inLen := v }
  | .outLimit => { s with outLimit := v }
  | .cfg => s
  | .cmd => s
  | .result => s
  | .status => s

/-- A hardware reset (10_state.md R37, 70_reset_and_hazards.md R185): the values of `State.reset`, the instance and the host
kept, IN_LEN, OUT_LIMIT and RESULT drawn anew, the memories unchanged; but a reset during a command leaves all of OUT
unspecified (U8, log 17). -/
def State.hardReset (s : State) : State :=
  { State.reset with
    config   := s.config
    inLen    := Config.freeWord s.draws
    outLimit := Config.freeWord (s.draws + 1)
    result   := Config.freeWord (s.draws + 2)
    draws    := s.draws + 3
    inMem    := s.inMem
    outMem   := if s.busy then [] else s.outMem
    outEpoch := if s.busy then s.outEpoch + 1 else s.outEpoch
    host     := s.host
    hostData := s.hostData }

/-- A host access at index `a` of a memory of `size` bytes; an index the memory does not have faults (20_memory.md R53,
log 18). -/
def atIndex (size : Word) (a : Nat) (t : State) : Result :=
  if a < size.toNat then .next t else .fault .noSuchIndex

/-- The effect of a host move that starts no command. A read leaves what it returns in `hostData` (log 16). -/
def hostEffect (m : HostMove) (s : State) : Result :=
  match m with
  | .writeReg r v => .next (s.writeReg r v)
  | .readReg r => .next { s with hostData := s.regValue r }
  | .writeIn a v => atIndex s.config.inSize a { s with inMem := s.inMem.write a v }
  | .writeOut a v => atIndex s.config.outSize a { s with outMem := s.outMem.write a v }
  | .readOut a => atIndex s.config.outSize a { s with hostData := (s.outByte a).setWidth 32 }
  | .reset => .next s.hardReset
  | .wait => .next s

end Sys2Proof.Machine
end

