-- ==== Sys2Proof/Machine/Fetch.lean ====
section
/-! DEFINITION. What comes next: the control state selects the operation (10_state.md R33, 43_commands_and_control.md R155,
30_encoding.md R77), and a move of the host may come before it (log 14). There is no program counter: `ip` and `bit` play
its part over the stream (R33). -/

namespace Sys2Proof.Machine

/-- The item a place holds when the stream ends inside it: the row with operands of zeros, which its meaning never looks at
(42_decompressor.md R135, R139; log 11). -/
def cutOffItem : ItemPlace → Instr
  | .tagByte => .tag 0
  | .literal => .lit 0
  | .matchToken l => Instr.ofMatch l 0 0

/-- The stream item at `ip`, decoded for its place. -/
def State.itemAt (s : State) (p : ItemPlace) : Instr :=
  match decodeItem p (s.streamBytes p.length) with
  | .ok (i, _) => i
  | .error _ => cutOffItem p

/-- Where the next token of an open group is met: a literal if `tag & bit ≠ 0`, else a match (42_decompressor.md R132). -/
def State.tokenPlace (s : State) : ItemPlace :=
  if s.tagBitSet then .literal else .matchToken s.split

/-- COMPRESS's operation in PROCESSING_GROUP: FINDMATCH, then EMIT_LIT or EMIT_MATCH, then NEXT_BIT (41_token_encoder.md
R110). -/
def State.compressOp (s : State) : Instr :=
  match s.stage, s.tokKind with
  | .token, _ => .findMatch
  | .body, .literal => .emitLit
  | .body, .matched => .emitMatch
  | .advance, _ => .nextBit

/-- DECOMPRESS's operation in PROCESSING_GROUP: LIT or MATCH, then COPY_BYTE as often as the match is long, then NEXT_BIT
(42_decompressor.md R130, R136). -/
def State.decompressOp (s : State) : Instr :=
  match s.stage with
  | .token => s.itemAt s.tokenPlace
  | .body => .copyByte
  | .advance => .nextBit

/-- The engine's next operation (43_commands_and_control.md R155); none while it is idle. -/
def State.fetch (s : State) : Option Instr :=
  match s.phase, s.mode with
  | .idle, _ => none
  | .awaitingTag, .compress => some .openGroup
  | .awaitingTag, .decompress => some (s.itemAt .tagByte)
  | .processingGroup, .compress => some s.compressOp
  | .processingGroup, .decompress => some s.decompressOp

/-- What a step does: run an operation at a state, or settle with an outcome. -/
inductive Action where
  | run (i : Instr) (s : State)
  | settle (o : Result)

/-- The engine's turn; an idle engine does nothing (10_state.md R37, log 20). -/
def engineAction (s : State) : Action :=
  match s.fetch with
  | some i => .run i s
  | none => .settle (.next s)

/-- A host move: a CMD write that decodes to a command runs it, any other CMD value is ignored (10_state.md R23); the rest
are the effects of Machine/HostPort.lean. -/
def hostAction (m : HostMove) (s : State) : Action :=
  match m with
  | .writeReg .cmd v =>
    match decode .command (.cmd v) with
    | .ok (i, _) => .run i s
    | .error _ => .settle (.next s)
  | m => .settle (hostEffect m s)

/-- The next thing to happen. A host move that may land comes first; `wait` gives the turn to the engine; a move that the
host does not make while BUSY stays in the list until the command has completed (log 14). -/
def nextAction (s : State) : Action :=
  match s.host with
  | [] => engineAction s
  | .wait :: rest => engineAction { s with host := rest }
  | m :: rest => if s.admits m then hostAction m { s with host := rest } else engineAction s

/-- `s` with the encoding of `nbits` bits `w` (numbered as spec/opcode_table.json numbers them) placed where the next step
meets it, so that this step runs `decodeTableWord nbits w`: a 32-bit word as the host's next move, a write to CMD with the
arguments the host has to write first (R160), both 0; 8 bits as the tag byte at `ip` of a running DECOMPRESS; 16 bits as the
match token there, on an instance with the default split (log 19). Another `nbits` places nothing. -/
def State.placeWord (s : State) (nbits w : Nat) : State :=
  match nbits with
  | 32 => { s with inLen := 0, outLimit := 0, host := .writeReg .cmd (BitVec.ofNat 32 w) :: s.host }
  | 16 =>
    let v : Half := BitVec.ofNat 16 w
    { s with
      config := { s.config with lengthBits := Config.default.lengthBits }
      mode := .decompress, phase := .processingGroup, stage := .token, status := statusRunning, bit := 1#8, tag := 0#8
      inLen := BitVec.ofNat 32 (s.ip + 2)
      inMem := (s.inMem.write s.ip (hiByte v)).write (s.ip + 1) (loByte v)
      host := .wait :: s.host }
  | 8 =>
    { s with
      mode := .decompress, phase := .awaitingTag, stage := .token, status := statusRunning, bit := 0#8
      inLen := BitVec.ofNat 32 (s.ip + 1)
      inMem := s.inMem.write s.ip (BitVec.ofNat 8 w)
      host := .wait :: s.host }
  | _ => s

end Sys2Proof.Machine
end

