-- ==== Sys2Proof/Machine/Step.lean ====
section
/-! DEFINITION. One step of the machine: the next host move or the engine's next operation (43_commands_and_control.md R155,
R157). -/

namespace Sys2Proof.Machine

/-- One step: what `nextAction` says comes next is done. An operation is run by `exec`. -/
def step (s : State) : Host.Outcome State Fault Refusal :=
  match nextAction s with
  | .run i t => exec i t
  | .settle o => o

/-- `s` with an encoding placed where the next step meets it (log 19). -/
def State.withFetchWord (s : State) (nbits w : Nat) : State := s.placeWord nbits w

end Sys2Proof.Machine
end

