-- ==== Sys2Proof/Safety.lean ====
section
/-! DEFINITION. The terms the statements use: runs of several steps and whole commands, the invariants of the working
registers (10_state.md R26, R40, R41) and of the widths (R28 to R32), and agreement of two states but for a part. -/

namespace Sys2Proof.Machine

/-! ### Runs -/

/-- `k` steps, stopping at the first fault or refusal. An idle engine with no host move stands still, so a run may go past
the end of a command. -/
def steps : (k : Nat) → State → Result
  | 0, s => .next s
  | k + 1, s =>
    match step s with
    | .next t => steps k t
    | .fault f => .fault f
    | .refused r => .refused r

/-- A command started by `i` and `k` steps of the engine after it. -/
def runCommand (i : Instr) (k : Nat) (s : State) : Result :=
  match exec i s with
  | .next t => steps k t
  | .fault f => .fault f
  | .refused r => .refused r

/-- The two commands. -/
abbrev isCommand (i : Instr) : Prop := i = .compress ∨ i = .decompress

/-- The host has prepared a command and makes no further move: the engine is idle and both arguments fit the memories
(43_commands_and_control.md R160, "prepare"; 20_memory.md R53). -/
abbrev State.Ready (s : State) : Prop :=
  s.phase = .idle ∧ s.busy = false ∧ s.host = [] ∧
    s.n ≤ s.config.inSize.toNat ∧ s.limit ≤ s.config.outSize.toNat

/-- A command has completed: IDLE, BUSY = 0, DONE = 1 (43_commands_and_control.md R156). -/
abbrev State.Completed (s : State) : Prop := s.phase = .idle ∧ s.status = statusComplete

/-! ### The window of the finder -/

/-- `c` is a candidate at the cursor: `max(0, ip - W) ≤ c < ip` (40_match_finder.md R91). -/
abbrev State.candidate (s : State) (c : Nat) : Prop := s.ip - s.split.windowSize ≤ c ∧ c < s.ip

/-- The `k` bytes from `c` equal the `k` bytes from the cursor (40_match_finder.md R94). -/
abbrev State.agrees (s : State) (c k : Nat) : Prop := ∀ j, j < k → s.inByte (c + j) = s.inByte (s.ip + j)

/-! ### The invariant of the control state and the working registers -/

/-- Exactly one bit of the cursor is set: 1, 2, 4, ..., 128 (10_state.md R28, R35). -/
abbrev oneHot (b : Byte) : Prop := ∃ g, g < 8 ∧ b = 1#8 <<< g

/-- STATUS and the phase tell the same: BUSY = 1 from a command's start to its completion, never BUSY and DONE both,
bits 31:2 zero (10_state.md R26). -/
abbrev State.StatusAgrees (s : State) : Prop :=
  (s.phase = .idle → s.status = 0#32 ∨ s.status = statusComplete) ∧ (s.phase ≠ .idle → s.status = statusRunning)

/-- The token latch holds what FINDMATCH leaves (40_match_finder.md R99 (b), (c), (d)). -/
abbrev State.LatchGood (s : State) : Prop :=
  (s.tokKind = .literal → s.tokByte = s.inByte s.ip) ∧
  (s.tokKind = .matched →
    1 ≤ s.tokOff ∧ s.tokOff ≤ s.ip ∧ s.tokOff ≤ s.split.windowSize ∧
    2 ≤ s.tokLen ∧ s.tokLen ≤ s.split.maxMatch ∧ s.ip + s.tokLen ≤ s.n ∧
    s.agrees (s.ip - s.tokOff) s.tokLen)

/-- COMPRESS with an open group (10_state.md R40): the reserved tag byte lies below `op` and holds the running tag, which
has no bit at or above the cursor until the current token has been emitted. -/
abbrev State.CompressGood (s : State) : Prop :=
  s.tagpos < s.op ∧ (s.tagpos < s.limit → s.outMem.read s.tagpos = some s.tag) ∧
  (s.stage = .token → s.ip < s.n ∧ s.tag.toNat < s.bit.toNat) ∧
  (s.stage = .body → s.ip < s.n ∧ s.tag.toNat < s.bit.toNat ∧ s.LatchGood) ∧
  (s.stage = .advance → s.ip ≤ s.n ∧ s.tag.toNat < 2 * s.bit.toNat)

/-- Every OUT byte below `min(op, limit)` has been written, but for a phantom literal's (10_state.md R41). -/
abbrev State.OutWritten (s : State) : Prop :=
  s.ip ≤ s.n → ∀ a, a < s.op → a < s.limit → s.outMem.read a ≠ none

/-- DECOMPRESS with an open group (10_state.md R41, 42_decompressor.md R146): `ip` never passes `n + 2`, a token is met with
the input exhausted only right after its group's TAG (R135, R139), and a copy is under way only inside the stream. -/
abbrev State.DecompressGood (s : State) : Prop :=
  (s.stage = .token → s.ip ≤ s.n ∧ (s.ip = s.n → s.bit = 1#8)) ∧
  (s.stage = .body → s.ip ≤ s.n ∧ 0 < s.cnt ∧ s.cnt ≤ s.mLen) ∧
  (s.stage = .advance → s.ip ≤ s.n + 2)

/-- The invariant of every reachable state: canonical memories, STATUS and phase in agreement, the arguments of a running
command within the memories (20_memory.md R53), and the registers as R40 and R41 of 10_state.md have them. -/
abbrev State.Inv (s : State) : Prop :=
  s.inMem.wf ∧ s.outMem.wf ∧ s.StatusAgrees ∧
  (s.phase ≠ .idle → s.n ≤ s.config.inSize.toNat ∧ s.limit ≤ s.config.outSize.toNat) ∧
  (s.phase = .awaitingTag → s.bit = 0#8 ∧ s.ip < s.n ∧ s.stage = .token) ∧
  (s.phase = .processingGroup → oneHot s.bit ∧
    (s.mode = .compress → s.CompressGood) ∧ (s.mode = .decompress → s.DecompressGood)) ∧
  (s.phase ≠ .idle → s.mode = .decompress → s.OutWritten)

/-- Every register holds a value of its width (10_state.md R28 to R32): `ip` 33 bits; `ws`, `cand`, `best_start` 32 bits;
`ub`, `k`, `best_len`, `cnt` 8 bits; `tok_off`, `m_off` offset_bits bits; `tok_len`, `m_len` length_bits bits. The widths
of `op` and `tagpos` bound only a command in domain (R27). -/
abbrev State.Fits (s : State) : Prop :=
  s.ip < 2 ^ 33 ∧ s.ws < 2 ^ 32 ∧ s.cand < 2 ^ 32 ∧ s.bestStart < 2 ^ 32 ∧
  s.ub < 2 ^ 8 ∧ s.k < 2 ^ 8 ∧ s.bestLen < 2 ^ 8 ∧ s.cnt < 2 ^ 8 ∧
  s.tokOff < 2 ^ s.split.offsetBits ∧ s.mOff < 2 ^ s.split.offsetBits ∧
  s.tokLen < 2 ^ s.split.toNat ∧ s.mLen < 2 ^ s.split.toNat

/-! ### Agreement of two states -/

/-- `t` differs from `s` at most on OUT's side: its contents, the limit, the draws made and their record. -/
abbrev State.SameButOut (s t : State) : Prop :=
  t = { s with outLimit := t.outLimit, outMem := t.outMem, outEpoch := t.outEpoch, draws := t.draws, illRef := t.illRef }

/-- `t` differs from `s` at most in IN bytes at or above IN_LEN. -/
abbrev State.SameBelowLength (s t : State) : Prop :=
  t = { s with inMem := t.inMem } ∧ ∀ a, a < s.n → t.inByte a = s.inByte a

/-- `t` agrees with `s` on what a command's result may depend on: the instance, the arguments, the memories, the draws to
come; and neither host has a move (10_state.md R20). -/
abbrev State.SameCommandInputs (s t : State) : Prop :=
  t.config = s.config ∧ t.inLen = s.inLen ∧ t.outLimit = s.outLimit ∧ t.inMem = s.inMem ∧ t.outMem = s.outMem ∧
  t.outEpoch = s.outEpoch ∧ t.draws = s.draws ∧ s.host = [] ∧ t.host = []

end Sys2Proof.Machine
end

