-- ==== Sys2Proof/Certificates/Slice0/Obligations.lean ====
section
/-! DEFINITION. The statements for the provers, from the numbered rules of spec/ file by file. A frame is said by an
equation `t = { s with ... }`: every field not named in it is unchanged; memory is said byte by byte. -/

open Sys2Proof Sys2Proof.Machine

/-! ### Encoding (30_encoding.md) -/

/-- Decoding what the encoder wrote gives the operation back, with every operand at every value the encoding admits, and a
stream item is read off the front of any stream (30_encoding.md section 3: R75, R76). -/
def Obligations.DecodeInvertsEncode : Prop :=
  ∀ (i : Instr) (e : Encoding) (p : Place),
    i.wf = true → encode i = some e → i.place? = some p →
    decode p e = .ok (i, []) ∧
    ∀ q rest, p = .item q → decodeItem q (itemBytes i ++ rest) = .ok (i, rest)

/-- R76: `value = (hi << 8) | lo`, `length = value & M`, `offset = value >> L`, both fields in range, and unpacking inverts
packing both ways. -/
def Obligations.EveryMatchValueUnpacks : Prop :=
  ∀ l : LengthBits,
    (∀ (hi lo : Byte) (rest : List Byte), ∃ off len,
      decodeItem (.matchToken l) (hi :: lo :: rest) = .ok (Instr.ofMatch l off len, rest) ∧
      off = (hi.toNat * 256 + lo.toNat) / 2 ^ l.toNat ∧ len = (hi.toNat * 256 + lo.toNat) % 2 ^ l.toNat ∧
      off ≤ l.windowSize ∧ len ≤ l.maxMatch ∧ matchBytes l off len = [hi, lo]) ∧
    (∀ off len, off ≤ l.windowSize → len ≤ l.maxMatch →
      unpackOffset l (pack l off len) = off ∧ unpackLength l (pack l off len) = len)

/-- R75: a produced match packs to `offset * 2^L + length`, written most significant byte first; `Match(2, 4)` in the
default split is the bytes `00 44`. -/
def Obligations.ProducedMatchPacks : Prop :=
  (∀ (l : LengthBits) (off len : Nat), 1 ≤ off → off ≤ l.windowSize → 2 ≤ len → len ≤ l.maxMatch →
    (pack l off len).toNat = off * 2 ^ l.toNat + len ∧
    itemBytes (Instr.ofMatch l off len) =
      [BitVec.ofNat 8 ((off * 2 ^ l.toNat + len) / 256), BitVec.ofNat 8 ((off * 2 ^ l.toNat + len) % 256)]) ∧
  itemBytes (.matchL5 2 4) = [0x00, 0x44]

/-- R82: CMD 1 is COMPRESS, CMD 2 is DECOMPRESS, every other value is ignored; the words are what the encoder gives. -/
def Obligations.CommandCodes : Prop :=
  (∀ w : Word, w ≠ 1#32 → w ≠ 2#32 → decode .command (.cmd w) = .error .ignoredCommand) ∧
  decode .command (.cmd 1#32) = .ok (.compress, []) ∧ decode .command (.cmd 2#32) = .ok (.decompress, []) ∧
  encode .compress = some (.cmd 1#32) ∧ encode .decompress = some (.cmd 2#32)

/-- Words written out from the formats of 30_encoding.md R72 to R74 and the table of 95_test_vectors.md section 2.1 decode to
the operations they stand for. -/
def Obligations.SampleWordsDecode : Prop :=
  decodeTableWord 32 1 = some .compress ∧ decodeTableWord 32 2 = some .decompress ∧
  decodeTableWord 8 0x03 = some (.tag 0x03) ∧
  decodeItem .literal [0x41] = .ok (.lit 0x41, []) ∧
  decodeItem (.matchToken .l2) [0x00, 0x44] = .ok (.matchL2 17 0, []) ∧
  decodeItem (.matchToken .l3) [0x00, 0x44] = .ok (.matchL3 8 4, []) ∧
  decodeItem (.matchToken .l4) [0x00, 0x44] = .ok (.matchL4 4 4, []) ∧
  decodeTableWord 16 0x0044 = some (.matchL5 2 4) ∧
  decodeItem (.matchToken .l6) [0x00, 0x44] = .ok (.matchL6 1 4, []) ∧
  decodeItem (.matchToken .l7) [0x00, 0x44] = .ok (.matchL7 0 68, []) ∧
  decodeItem (.matchToken .l8) [0x00, 0x44] = .ok (.matchL8 0 68, [])

/-- The stream of a listing that is well formed as encoder output has `ceil((l + m) / 8) + l + 2 m` bytes for its `l` literals
and `m` matches (30_encoding.md section 6: R81; section 9: R84). -/
def Obligations.StreamSizeOfAListing : Prop :=
  ∀ (b : LengthBits) (items : List Instr), encoderOutput b items = true →
    let l := items.countP (fun i => match i with | .lit _ => true | _ => false)
    let m := items.countP (fun i => i.matchFields?.isSome)
    (assemble items).length = (l + m + 7) / 8 + l + 2 * m

/-! ### Reset (10_state.md R37, 70_reset_and_hazards.md R185) -/

/-- After reset the engine is IDLE with STATUS = 0 and CFG = `length_bits`, nothing is listed in the memories, and with no
move of the host nothing happens (10_state.md section 8: R37). That the default instance has `length_bits = 5` is R6. -/
def Obligations.ResetLeavesTheEngineIdle : Prop :=
  State.reset.phase = .idle ∧ State.reset.status = 0 ∧ State.reset.regValue .cfg = 5#32 ∧
  State.reset.inMem = [] ∧ State.reset.outMem = [] ∧
  step State.reset = .next State.reset ∧
  ∀ k, steps k State.reset = .next State.reset

/-- A hardware reset, also of a running command: IDLE, STATUS = 0, the instance and IN unchanged, and OUT unchanged when no
command was running (70_reset_and_hazards.md section 1: R185; 10_state.md section 8: R37). -/
def Obligations.HardwareResetAbandonsTheCommand : Prop :=
  ∀ (s : State) (rest : List HostMove), s.host = .reset :: rest →
    ∃ t, step s = .next t ∧ t.phase = .idle ∧ t.status = 0#32 ∧ t.config = s.config ∧ t.host = rest ∧
      (∀ a, t.inByte a = s.inByte a) ∧
      (s.busy = false → ∀ a, t.outByte a = s.outByte a)

/-! ### The step -/

/-- A step with no host move runs the operation the control state selects, and an item of the stream is the one its bytes
decode to at its place (43_commands_and_control.md section 2: R155; 30_encoding.md section 4: R77). -/
def Obligations.StepRunsTheSelectedOperation : Prop :=
  ∀ s : State, s.host = [] →
    (s.phase = .idle → step s = .next s) ∧
    (s.phase = .awaitingTag → s.mode = .compress → step s = exec .openGroup s) ∧
    (s.phase = .awaitingTag → s.mode = .decompress → s.ip < s.n → step s = exec (.tag (s.inByte s.ip)) s) ∧
    (s.phase = .processingGroup → s.mode = .compress →
      (s.stage = .token → step s = exec .findMatch s) ∧
      (s.stage = .body → s.tokKind = .literal → step s = exec .emitLit s) ∧
      (s.stage = .body → s.tokKind = .matched → step s = exec .emitMatch s) ∧
      (s.stage = .advance → step s = exec .nextBit s)) ∧
    (s.phase = .processingGroup → s.mode = .decompress →
      (s.stage = .token → s.tag &&& s.bit ≠ 0#8 → s.ip < s.n → step s = exec (.lit (s.inByte s.ip)) s) ∧
      (s.stage = .token → s.tag &&& s.bit = 0#8 → s.ip + 2 ≤ s.n → ∃ i,
        decodeItem (.matchToken s.split) [s.inByte s.ip, s.inByte (s.ip + 1)] = .ok (i, []) ∧ step s = exec i s) ∧
      (s.stage = .token → s.tag &&& s.bit = 0#8 → s.n < s.ip + 2 → step s = exec (Instr.ofMatch s.split 0 0) s) ∧
      (s.stage = .token → s.tag &&& s.bit ≠ 0#8 → s.n ≤ s.ip → step s = exec (.lit 0) s) ∧
      (s.stage = .body → step s = exec .copyByte s) ∧
      (s.stage = .advance → step s = exec .nextBit s))

/-- A host move that may land comes before the engine's operation: a CMD write that decodes runs that command, `wait` gives the
turn to the engine, and a move the host does not make while BUSY is held back (43_commands_and_control.md section 4: R160;
the order is the model's, log 14). -/
def Obligations.StepTakesTheHostMove : Prop :=
  ∀ (s : State) (m : HostMove) (rest : List HostMove), s.host = m :: rest →
    (∀ v i bs, m = .writeReg .cmd v → decode .command (.cmd v) = .ok (i, bs) → step s = exec i { s with host := rest }) ∧
    (∀ i, m = .wait → { s with host := rest }.fetch = some i → step s = exec i { s with host := rest }) ∧
    (∀ i, s.admits m = false → s.fetch = some i → step s = exec i s)

/-! ### Host registers and memories (10_state.md R22 to R26; 43_commands_and_control.md R160) -/

/-- R22: CFG reads as `length_bits` in bits 3:0 and 0 above, `length_bits` lies in 2..8 and no step changes it, and a host
write is ignored. -/
def Obligations.CfgIsReadOnly : Prop :=
  ∀ (s : State) (rest : List HostMove),
    (∀ v, s.host = .writeReg .cfg v :: rest → step s = .next { s with host := rest }) ∧
    (s.host = .readReg .cfg :: rest → ∃ t, step s = .next t ∧
      t = { s with host := rest, hostData := t.hostData } ∧
      (t.hostData.extractLsb' 0 4).toNat = s.config.lengthBits.toNat ∧ t.hostData.extractLsb' 4 28 = 0#28) ∧
    2 ≤ s.config.lengthBits.toNat ∧ s.config.lengthBits.toNat ≤ 8 ∧
    (∀ t, step s = .next t → t.config = s.config)

/-- R23: CMD writes of 1 and 2 while idle start COMPRESS and DECOMPRESS, any other value and any write while BUSY = 1 changes
no state, and a read returns 0. -/
def Obligations.CmdWritesStartOrAreIgnored : Prop :=
  ∀ (s : State) (rest : List HostMove),
    (s.phase = .idle → s.busy = false → s.host = .writeReg .cmd 1#32 :: rest →
      step s = exec .compress { s with host := rest }) ∧
    (s.phase = .idle → s.busy = false → s.host = .writeReg .cmd 2#32 :: rest →
      step s = exec .decompress { s with host := rest }) ∧
    (∀ v, v ≠ 1#32 → v ≠ 2#32 → s.host = .writeReg .cmd v :: rest → step s = .next { s with host := rest }) ∧
    (∀ v, s.busy = true → s.host = .writeReg .cmd v :: rest → step s = .next { s with host := rest }) ∧
    (s.host = .readReg .cmd :: rest → step s = .next { s with host := rest, hostData := 0#32 })

/-- The host writes IN_LEN and OUT_LIMIT while BUSY = 0; while BUSY = 1 its write is held back (the holding back is the model's,
log 14). No operation writes them, and a step changes one of them only by such a host write or by a hardware reset, which
leaves both unspecified (10_state.md sections 2, 8: R24, R37; 43_commands_and_control.md section 4: R160; log 17). -/
def Obligations.ArgumentsHoldDuringACommand : Prop :=
  (∀ (s : State) (v : Word) (rest : List HostMove), s.busy = false →
    (s.host = .writeReg .inLen v :: rest → step s = .next { s with host := rest, inLen := v }) ∧
    (s.host = .writeReg .outLimit v :: rest → step s = .next { s with host := rest, outLimit := v })) ∧
  (∀ (s t : State) (r : HostReg) (v : Word) (rest : List HostMove), s.busy = true → r = .inLen ∨ r = .outLimit →
    s.host = .writeReg r v :: rest → step s = .next t →
    t.inLen = s.inLen ∧ t.outLimit = s.outLimit ∧ t.host = s.host) ∧
  (∀ (i : Instr) (s t : State), exec i s = .next t →
    t.inLen = s.inLen ∧ t.outLimit = s.outLimit ∧ t.config = s.config) ∧
  (∀ s t : State, step s = .next t → (∀ rest, s.host ≠ .reset :: rest) →
    (s.busy = true ∨ (∀ v rest, s.host ≠ .writeReg .inLen v :: rest) → t.inLen = s.inLen) ∧
    (s.busy = true ∨ (∀ v rest, s.host ≠ .writeReg .outLimit v :: rest) → t.outLimit = s.outLimit))

/-- What the host's register reads return: STATUS at any time; IN_LEN, OUT_LIMIT and RESULT while BUSY = 0
(10_state.md section 2: R24 to R26; 43_commands_and_control.md section 4: R160). -/
def Obligations.RegisterReadsReturnTheRegister : Prop :=
  ∀ (s : State) (rest : List HostMove),
    (s.host = .readReg .status :: rest → step s = .next { s with host := rest, hostData := s.status }) ∧
    (s.busy = false →
      (s.host = .readReg .inLen :: rest → step s = .next { s with host := rest, hostData := s.inLen }) ∧
      (s.host = .readReg .outLimit :: rest → step s = .next { s with host := rest, hostData := s.outLimit }) ∧
      (s.host = .readReg .result :: rest → step s = .next { s with host := rest, hostData := s.result }))

/-- RESULT and STATUS are read-only: a host write to either, at any time, changes nothing (10_state.md section 2: R25, R26;
that a write to a read-only register is ignored is read from R22 by inference, log 15). -/
def Obligations.ResultAndStatusIgnoreHostWrites : Prop :=
  ∀ (s : State) (r : HostReg) (v : Word) (rest : List HostMove), r = .result ∨ r = .status →
    s.host = .writeReg r v :: rest → step s = .next { s with host := rest }

/-- The host's accesses to the two memories while BUSY = 0, byte by byte; an index the memory does not have stops
(43_commands_and_control.md section 4: R160; 20_memory.md section 1: R53; the stop is the model's, log 18). -/
def Obligations.HostAccessesTheMemories : Prop :=
  ∀ (s : State) (a : Nat) (v : Byte) (rest : List HostMove), s.busy = false →
    (s.host = .writeIn a v :: rest → a < s.config.inSize.toNat → ∃ t, step s = .next t ∧
      t = { s with host := rest, inMem := t.inMem } ∧
      ∀ x, t.inMem.read x = if x = a then some v else s.inMem.read x) ∧
    (s.host = .writeOut a v :: rest → a < s.config.outSize.toNat → ∃ t, step s = .next t ∧
      t = { s with host := rest, outMem := t.outMem } ∧
      ∀ x, t.outMem.read x = if x = a then some v else s.outMem.read x) ∧
    (s.host = .readOut a :: rest → a < s.config.outSize.toNat → ∃ t, step s = .next t ∧
      t = { s with host := rest, hostData := t.hostData } ∧ t.hostData.toNat = (s.outByte a).toNat) ∧
    (s.host = .writeIn a v :: rest → s.config.inSize.toNat ≤ a → step s = .fault .noSuchIndex) ∧
    (s.host = .writeOut a v :: rest → s.config.outSize.toNat ≤ a → step s = .fault .noSuchIndex) ∧
    (s.host = .readOut a :: rest → s.config.outSize.toNat ≤ a → step s = .fault .noSuchIndex)

/-- While BUSY = 1 the host neither writes a memory nor reads OUT or RESULT: such a move stays in the list and the memories
change by the engine's operation only (43_commands_and_control.md section 4: R160; 93_implementation_defined.md U5). -/
def Obligations.HostKeepsHandsOffWhileBusy : Prop :=
  ∀ (s t : State) (m : HostMove) (rest : List HostMove), s.busy = true → s.host = m :: rest →
    (∃ a v, m = .writeIn a v ∨ m = .writeOut a v ∨ m = .readOut a ∨ m = .readReg .result) →
    step s = .next t →
    t.host = m :: rest ∧ t.inMem = s.inMem ∧ t.hostData = s.hostData ∧
      ∃ w, step { s with host := [] } = .next w ∧ ∀ x, t.outMem.read x = w.outMem.read x

/-! ### The commands (43_commands_and_control.md) -/

/-- The command start of COMPRESS and DECOMPRESS: with input, the registers R152 names, AWAITING_TAG, BUSY; without input,
completion at once with RESULT = 0 and no memory access (43_commands_and_control.md section 1: R150, R151, R152, R155). -/
def Obligations.CommandStartSetsTheRegisters : Prop :=
  ∀ (i : Instr) (m : Mode) (s : State),
    (i = .compress ∧ m = .compress) ∨ (i = .decompress ∧ m = .decompress) →
    s.phase = .idle → s.busy = false → s.n ≤ s.config.inSize.toNat → s.limit ≤ s.config.outSize.toNat →
    (0 < s.n → exec i s = .next { s with
      mode := m, status := 1#32, ip := 0, op := 0, bit := 0#8, tag := 0#8, phase := .awaitingTag,
      stage := .token, illRef := false }) ∧
    (s.n = 0 → exec i s = .next { s with
      mode := m, status := 2#32, result := 0#32, ip := 0, op := 0, bit := 0#8, tag := 0#8, phase := .idle,
      stage := .token, illRef := false })

/-- A command whose arguments exceed the memories is refused, and one given while a command runs is ignored (20_memory.md
section 1: R53; 93_implementation_defined.md U6; 10_state.md section 2: R23). -/
def Obligations.CommandsRefusedOrIgnored : Prop :=
  ∀ (i : Instr) (s : State), isCommand i →
    (s.phase = .idle → s.busy = false → s.config.inSize.toNat < s.n ∨ s.config.outSize.toNat < s.limit →
      exec i s = .refused .argumentsExceedMemory) ∧
    (s.busy = true → exec i s = .next s)

/-- NEXT_BIT shifts the cursor left in 8 bits, and the control transfer of R155 follows: completion with RESULT = `op` when
`ip ≥ n` (refused when `op` exceeds 32 bits), the next tag after the eighth token, else the next token
(43_commands_and_control.md section 2: R153 to R156; 10_state.md section 3: R27). -/
def Obligations.NextBitMovesOn : Prop :=
  ∀ s : State, s.bit ≠ 0#8 →
    (s.n ≤ s.ip → s.op < 2 ^ 32 → ∃ t, exec .nextBit s = .next t ∧
      t = { s with bit := t.bit, result := t.result, status := 2#32, phase := .idle, stage := .token } ∧
      t.bit.toNat = s.bit.toNat * 2 % 256 ∧ t.result.toNat = s.op) ∧
    (s.n ≤ s.ip → 2 ^ 32 ≤ s.op → exec .nextBit s = .refused .resultOutOfDomain) ∧
    (s.ip < s.n → s.bit = 0x80#8 →
      exec .nextBit s = .next { s with bit := 0#8, phase := .awaitingTag, stage := .token }) ∧
    (s.ip < s.n → s.bit ≠ 0x80#8 → ∃ t, exec .nextBit s = .next t ∧
      t = { s with bit := t.bit, phase := .processingGroup, stage := .token } ∧
      t.bit.toNat = s.bit.toNat * 2 % 256 ∧ t.bit ≠ 0#8)

/-- RESULT is written at completion only, with the final `op`, and STATUS changes only at a start and at a completion
(10_state.md section 2: R25, R26; 43_commands_and_control.md section 2: R156). -/
def Obligations.ResultIsWrittenAtCompletionOnly : Prop :=
  ∀ (i : Instr) (s t : State), exec i s = .next t →
    (t.result ≠ s.result → t.phase = .idle ∧ t.status = 2#32 ∧ t.result.toNat = t.op) ∧
    (t.status ≠ s.status → isCommand i ∨ (i = .nextBit ∧ s.n ≤ s.ip ∧ t.phase = .idle ∧ t.status = 2#32))

/-! ### The match finder (40_match_finder.md) -/

/-- FINDMATCH sets the window start and the bound, its scratch registers and the token latch, and nothing else: no memory, no
cursor, no flag (40_match_finder.md section 2: R90 to R93, R97, R98). -/
def Obligations.FindMatchWritesOnlyItsRegisters : Prop :=
  ∀ s : State, s.ip < s.n → ∃ t, exec .findMatch s = .next t ∧
    t = { s with
      ws := s.ip - s.config.lengthBits.windowSize, ub := min s.config.lengthBits.maxMatch (s.n - s.ip)
      cand := t.cand, k := t.k, bestLen := t.bestLen, bestStart := t.bestStart
      tokKind := t.tokKind, tokByte := t.tokByte, tokOff := t.tokOff, tokLen := t.tokLen, stage := .body } ∧
    (t.bestLen < 2 → t.tokKind = .literal ∧ t.tokByte = s.inByte s.ip ∧ t.tokOff = s.tokOff ∧ t.tokLen = s.tokLen) ∧
    (2 ≤ t.bestLen → t.tokKind = .matched ∧ t.tokByte = s.tokByte ∧
      t.tokOff = s.ip - t.bestStart ∧ t.tokLen = t.bestLen) ∧
    (s.ip = 0 → t.cand = s.cand ∧ t.k = s.k ∧ t.bestLen = 0) ∧
    (0 < s.ip → t.cand = s.ip - 1 ∧ t.k ≤ t.ub ∧ t.bestLen ≤ t.ub)

/-- R99: a Literal exactly when no candidate agrees with the cursor on 2 bytes inside the bound; otherwise the Match of the
longest agreement, with the greatest offset among the longest, inside the window, the input and the match format. -/
def Obligations.FindMatchReturnsTheOldestLongest : Prop :=
  ∀ s : State, s.ip < s.n → ∃ t, exec .findMatch s = .next t ∧
    (t.tokKind = .literal ↔ ∀ c k, s.candidate c → k ≤ min s.split.maxMatch (s.n - s.ip) → s.agrees c k → k < 2) ∧
    (t.tokKind = .literal → t.tokByte = s.inByte s.ip) ∧
    (t.tokKind = .matched →
      2 ≤ t.tokLen ∧ t.tokLen ≤ min s.split.maxMatch (s.n - s.ip) ∧
      1 ≤ t.tokOff ∧ t.tokOff ≤ min s.ip s.split.windowSize ∧
      (∀ c k, s.candidate c → k ≤ min s.split.maxMatch (s.n - s.ip) → s.agrees c k → k ≤ t.tokLen) ∧
      (∀ c, s.candidate c → s.agrees c t.tokLen → s.ip - c ≤ t.tokOff) ∧
      (∀ j, j < t.tokLen → s.inByte (s.ip + j) = s.inByte (s.ip - t.tokOff + j)) ∧
      s.ip + t.tokLen ≤ s.n ∧
      t.tokOff < 2 ^ s.split.offsetBits ∧ t.tokLen < 2 ^ s.split.toNat)

/-! ### The token encoder (41_token_encoder.md) -/

/-- OPEN_GROUP reserves the tag byte at `op`, writes it 0 if it lies below the limit, and advances `op` in every case
(41_token_encoder.md section 2: R111). -/
def Obligations.OpenGroupReservesTheTagByte : Prop :=
  ∀ s : State, s.bit = 0#8 → s.ip < s.n → ∃ t, exec .openGroup s = .next t ∧
    t = { s with
      tagpos := s.op, tag := 0#8, op := s.op + 1, bit := 1#8, phase := .processingGroup, stage := .token
      outMem := t.outMem } ∧
    ∀ a, t.outMem.read a = if a = s.op ∧ a < s.limit then some 0#8 else s.outMem.read a

/-- EMIT_LIT writes the literal at `op`, sets the tag bit under the cursor and patches the tag byte at `tagpos`, each write
guarded on its own (41_token_encoder.md sections 2, 3: R112, R113, R117). R112 requires `tok_byte = IN[ip]` as well; that EMIT_LIT
has the same effect on the latched byte where this fails, in states no run reaches, is the model's choice (log 9). -/
def Obligations.EmitLitWritesByteAndTag : Prop :=
  ∀ s : State, s.bit ≠ 0#8 → s.tokKind = .literal → ∃ t, exec .emitLit s = .next t ∧
    t = { s with
      op := s.op + 1, tag := s.tag ||| s.bit, ip := s.ip + 1, stage := .advance
      outMem := t.outMem } ∧
    ∀ a, t.outMem.read a =
      if a = s.tagpos ∧ a < s.limit then some (s.tag ||| s.bit)
      else if a = s.op ∧ a < s.limit then some s.tokByte
      else s.outMem.read a

/-- EMIT_MATCH writes the packed value at `op` and `op + 1`, high byte first, each byte guarded on its own, advances `ip` by
the length and leaves the tag alone (41_token_encoder.md sections 2, 3: R114, R117). -/
def Obligations.EmitMatchWritesThePackedValue : Prop :=
  ∀ s : State, s.bit ≠ 0#8 → s.tokKind = .matched → ∃ t, exec .emitMatch s = .next t ∧
    t = { s with op := s.op + 2, ip := s.ip + s.tokLen, stage := .advance, outMem := t.outMem } ∧
    let value := ((s.tokOff <<< s.split.toNat) ||| (s.tokLen &&& s.split.maxMatch)) % 65536
    ∀ a, t.outMem.read a =
      if a = s.op ∧ a < s.limit then some (BitVec.ofNat 8 (value / 256))
      else if a = s.op + 1 ∧ a < s.limit then some (BitVec.ofNat 8 (value % 256))
      else s.outMem.read a

/-! ### The decompressor (42_decompressor.md) -/

/-- TAG loads the tag byte, moves `ip` by one and the cursor to token 0; OUT and `op` are left alone (42_decompressor.md
section 2: R131). -/
def Obligations.TagOpensTheGroup : Prop :=
  ∀ (s : State) (b : Byte), s.bit = 0#8 → s.ip < s.n →
    exec (.tag b) s = .next { s with
      tag := b, ip := s.ip + 1, bit := 1#8, phase := .processingGroup, stage := .token }

/-- LIT copies its byte to `op` exactly when input is left and output is not full, and advances both cursors in every case
(42_decompressor.md section 2: R134). -/
def Obligations.LitCopiesOneByte : Prop :=
  ∀ (s : State) (b : Byte), s.bit ≠ 0#8 → s.tag &&& s.bit ≠ 0#8 → ∃ t, exec (.lit b) s = .next t ∧
    t = { s with ip := s.ip + 1, op := s.op + 1, stage := .advance, outMem := t.outMem } ∧
    ∀ a, t.outMem.read a = if a = s.op ∧ s.ip < s.n ∧ s.op < s.limit then some b else s.outMem.read a

/-- A phantom literal is met only right after a TAG that was the last byte and whose bit 0 is 1; it counts one output byte,
writes nothing, leaves `ip = n + 1`, and the command then ends (42_decompressor.md section 2: R135). -/
def Obligations.PhantomLiteralCountsAndEnds : Prop :=
  ∀ s : State, s.Inv → s.host = [] → s.phase = .processingGroup → s.mode = .decompress → s.stage = .token →
    s.tagBitSet = true → s.n ≤ s.ip →
    s.ip = s.n ∧ s.bit = 1#8 ∧ s.tag.getLsbD 0 = true ∧
    step s = .next { s with ip := s.n + 1, op := s.op + 1, stage := .advance } ∧
    (s.op + 1 < 2 ^ 32 → ∃ t, steps 2 s = .next t ∧ t.Completed ∧ t.ip = s.n + 1 ∧ t.result.toNat = s.op + 1 ∧
      ∀ a, t.outMem.read a = s.outMem.read a)

/-- MATCH on every split with its two bytes present: the packed value, length and offset are latched, `ip` moves by 2 and the
copy loop is set up for `length` bytes; with length 0 nothing is copied (42_decompressor.md sections 2, 3: R136, R138). -/
def Obligations.MatchSetsUpTheCopy : Prop :=
  ∀ (i : Instr) (l : LengthBits) (off len : Nat) (s : State),
    i.matchFields? = some (l, off, len) → i.wf = true → s.config.lengthBits = l →
    s.bit ≠ 0#8 → s.tag &&& s.bit = 0#8 → s.ip + 2 ≤ s.n → ∃ t, exec i s = .next t ∧
    t = { s with
      val := t.val, ip := s.ip + 2, mLen := len, mOff := off, cnt := len
      stage := if len = 0 then .advance else .body } ∧
    t.val.toNat = off * 2 ^ l.toNat + len

/-- A match token with fewer than 2 bytes left is skipped: `ip` moves by 2, `op` and OUT are left alone
(42_decompressor.md section 3: R139). -/
def Obligations.TailSkipTouchesNothing : Prop :=
  ∀ (i : Instr) (l : LengthBits) (off len : Nat) (s : State),
    i.matchFields? = some (l, off, len) → s.config.lengthBits = l →
    s.bit ≠ 0#8 → s.tag &&& s.bit = 0#8 → s.n < s.ip + 2 →
    exec i s = .next { s with ip := s.ip + 2, stage := .advance }

/-- COPY_BYTE with room and a source byte writes `OUT[op - m_off]` to `OUT[op]`, and advances (42_decompressor.md section 2:
R137). -/
def Obligations.CopyByteCopiesFromTheOutput : Prop :=
  ∀ s : State, 0 < s.cnt → s.op < s.limit → 1 ≤ s.mOff → s.mOff ≤ s.op → ∃ t, exec .copyByte s = .next t ∧
    t = { s with
      op := s.op + 1, cnt := s.cnt - 1, stage := if s.cnt = 1 then .advance else .body, outMem := t.outMem } ∧
    ∀ a, t.outMem.read a = if a = s.op then some (s.outByte (s.op - s.mOff)) else s.outMem.read a

/-- COPY_BYTE at or past the limit accesses no memory and advances, whatever the offset (42_decompressor.md section 3: R141;
60_exceptions.md section 2: R173). -/
def Obligations.CopyBytePastTheLimitOnlyCounts : Prop :=
  ∀ s : State, 0 < s.cnt → s.limit ≤ s.op →
    exec .copyByte s = .next { s with
      op := s.op + 1, cnt := s.cnt - 1, stage := if s.cnt = 1 then .advance else .body }

/-- COPY_BYTE of an ill-referenced match writes some byte to `OUT[op]` and nothing else, marks the run, and advances as any
other copy; nothing is said of the byte (42_decompressor.md section 3: R140; the mark and the draw are the model's, log 6). -/
def Obligations.IllReferencedCopyWritesSomeByte : Prop :=
  ∀ s : State, 0 < s.cnt → s.op < s.limit → s.mOff = 0 ∨ s.op < s.mOff → ∃ (t : State) (b : Byte),
    exec .copyByte s = .next t ∧
    t = { s with
      op := s.op + 1, cnt := s.cnt - 1, stage := if s.cnt = 1 then .advance else .body
      draws := s.draws + 1, illRef := true, outMem := t.outMem } ∧
    ∀ a, t.outMem.read a = if a = s.op then some b else s.outMem.read a

/-- The copy loop runs COPY_BYTE exactly `cnt` times, each advancing `op` by one whether or not it writes, and ends at the
advance to the next token (42_decompressor.md sections 2, 3: R136, R137, R141). -/
def Obligations.CopyLoopRunsCntTimes : Prop :=
  ∀ s : State, s.host = [] → s.phase = .processingGroup → s.mode = .decompress → s.stage = .body → 0 < s.cnt →
    ∃ t, steps s.cnt s = .next t ∧
      t = { s with
        op := s.op + s.cnt, cnt := 0, stage := .advance
        outMem := t.outMem, draws := t.draws, illRef := t.illRef } ∧
      ∀ a, a < s.op ∨ s.op + s.cnt ≤ a ∨ s.limit ≤ a → t.outMem.read a = s.outMem.read a

/-- R147: a well-referenced match with fields `(o, l)` met at `op = s` with `limit ≥ s + l` leaves
`OUT[s + j] = OUT[s - o + (j mod o)]` for every `j < l`: the last `o` bytes repeated. -/
def Obligations.OverlappingMatchRepeatsThePattern : Prop :=
  ∀ (s : State) (o l : Nat), s.host = [] → s.phase = .processingGroup → s.mode = .decompress → s.stage = .token →
    s.bit ≠ 0#8 → s.tag &&& s.bit = 0#8 → s.ip + 2 ≤ s.n →
    decodeItem (.matchToken s.split) [s.inByte s.ip, s.inByte (s.ip + 1)] = .ok (Instr.ofMatch s.split o l, []) →
    1 ≤ o → o ≤ s.op → s.op + l ≤ s.limit →
    ∃ t, steps (l + 1) s = .next t ∧ t.op = s.op + l ∧ t.ip = s.ip + 2 ∧ t.illRef = s.illRef ∧
      ∀ j, j < l → t.outByte (s.op + j) = s.outByte (s.op - o + j % o)

/-! ### What no operation does -/

/-- Outside the `requires` clause of its rule an operation has no effect given by the spec, and the model stops
(the clauses are those of R100, R111, R112, R114, R131, R134, R136, R137, R154; the stop is the model's, log 8, log 10). One part
of one clause is left out: EMIT_LIT does not test R112's `tok_byte = IN[ip]` and does not stop where only that fails (log 9). -/
def Obligations.OutsideRequiresTheModelStops : Prop :=
  ∀ s : State,
    (s.n ≤ s.ip → exec .findMatch s = .fault .requiresViolated) ∧
    (s.bit ≠ 0#8 ∨ s.n ≤ s.ip → exec .openGroup s = .fault .requiresViolated) ∧
    (s.bit = 0#8 ∨ s.tokKind = .matched → exec .emitLit s = .fault .requiresViolated) ∧
    (s.bit = 0#8 ∨ s.tokKind = .literal → exec .emitMatch s = .fault .requiresViolated) ∧
    (∀ b, s.bit ≠ 0#8 ∨ s.n ≤ s.ip → exec (.tag b) s = .fault .requiresViolated) ∧
    (∀ b, s.tag &&& s.bit = 0#8 → exec (.lit b) s = .fault .requiresViolated) ∧
    (∀ i l off len, i.matchFields? = some (l, off, len) → s.config.lengthBits = l →
      s.bit = 0#8 ∨ s.tag &&& s.bit ≠ 0#8 → exec i s = .fault .requiresViolated) ∧
    (∀ i l off len, i.matchFields? = some (l, off, len) → s.config.lengthBits ≠ l →
      exec i s = .fault .otherLengthBits) ∧
    (s.cnt = 0 → exec .copyByte s = .fault .requiresViolated) ∧
    (s.bit = 0#8 → exec .nextBit s = .fault .requiresViolated)

/-- No operation writes IN, and none writes OUT at or above the limit (20_memory.md section 1: R51, R52, R54). -/
def Obligations.WritesStayInsideOutBelowTheLimit : Prop :=
  ∀ (i : Instr) (s t : State), exec i s = .next t →
    t.inMem = s.inMem ∧ ∀ a, s.limit ≤ a → t.outMem.read a = s.outMem.read a

/-- No operation of either command reads IN at or above IN_LEN: states that differ only in such bytes step alike
(20_memory.md section 1: R51). -/
def Obligations.ReadsStayInsideInBelowTheLength : Prop :=
  ∀ s u t : State, s.host = [] → s.SameBelowLength u → step s = .next t →
    ∃ w, step u = .next w ∧ t.SameBelowLength w

/-! ### Invariants -/

/-- The invariant and the register widths hold right after reset. -/
def Obligations.InvariantAtReset : Prop := State.reset.Inv ∧ State.reset.Fits

/-- Every step, a host move included, keeps the invariant: canonical memories, STATUS and phase in agreement, the relations of
10_state.md section 10 (R40, R41) between the registers, memories and cursors. -/
def Obligations.EveryStepKeepsTheInvariant : Prop :=
  ∀ s t : State, s.Inv → step s = .next t → t.Inv

/-- Every register keeps to its width (10_state.md sections 3, 4: R27 to R32). -/
def Obligations.EveryStepKeepsTheWidths : Prop :=
  ∀ s t : State, s.Inv → s.Fits → step s = .next t → t.Fits

/-- BUSY is 1 exactly while a command runs, BUSY and DONE are never both 1, and bits 31:2 of STATUS read 0 (10_state.md
section 2: R26). -/
def Obligations.StatusTellsThePhase : Prop :=
  ∀ s : State, s.Inv →
    (s.busy = true ↔ s.phase ≠ .idle) ∧ ¬ (s.busy = true ∧ s.done = true) ∧ s.status.extractLsb' 2 30 = 0#30

/-- The block raises nothing: from a state meeting the invariant, an engine step never stops but for a result that leaves 32
bits, at the completion of a command out of domain (60_exceptions.md section 1: R170; 10_state.md section 3: R27). -/
def Obligations.NoEngineStepStops : Prop :=
  ∀ s : State, s.Inv → s.host = [] →
    (∃ t, step s = .next t) ∨ (step s = .refused .resultOutOfDomain ∧ 2 ^ 32 ≤ s.op ∧ s.n ≤ s.ip)

/-! ### Whole commands -/

/-- Every COMPRESS ends, in at most `n` iterations of at most four operations, with `ip = n` and a final `op` of at most
`n + ceil(n / 8)`: it completes with RESULT = `op`, or, where `op` leaves 32 bits, is refused at its completion
(41_token_encoder.md sections 2, 4: R115, R123; 10_state.md section 3: R27; 43_commands_and_control.md section 2: R156, R158; U4;
that the refusal comes at the completion is the model's, log 12). -/
def Obligations.CompressCompletesWithinTheBound : Prop :=
  ∀ s : State, s.Ready →
    (∃ k t, k ≤ 4 * s.n ∧ runCommand .compress k s = .next t ∧ t.Completed ∧
      t.ip = s.n ∧ t.result.toNat = t.op ∧ t.op ≤ s.n + (s.n + 7) / 8) ∨
    (∃ k t, k < 4 * s.n ∧ runCommand .compress k s = .next t ∧
      t.ip = s.n ∧ 2 ^ 32 ≤ t.op ∧ t.op ≤ s.n + (s.n + 7) / 8 ∧
      runCommand .compress (k + 1) s = .refused .resultOutOfDomain)

/-- Every DECOMPRESS ends, whatever bytes the stream holds, in at most `n` iterations, with `n ≤ ip ≤ n + 2` and a final `op`
of at most `floor(M n / 2)`: it completes with RESULT = `op`, or, where `op` leaves 32 bits, is refused at its completion
(42_decompressor.md section 4: R146, R148; 10_state.md section 3: R27; 43_commands_and_control.md section 2: R156, R158; U4; that
the refusal comes at the completion is the model's, log 12). -/
def Obligations.DecompressCompletesWithinTheBound : Prop :=
  ∀ s : State, s.Ready →
    (∃ k t, k ≤ (s.split.maxMatch + 3) * s.n ∧ runCommand .decompress k s = .next t ∧ t.Completed ∧
      s.n ≤ t.ip ∧ t.ip ≤ s.n + 2 ∧ t.result.toNat = t.op ∧ t.op ≤ s.split.maxMatch * s.n / 2) ∨
    (∃ k t, k < (s.split.maxMatch + 3) * s.n ∧ runCommand .decompress k s = .next t ∧
      s.n ≤ t.ip ∧ t.ip ≤ s.n + 2 ∧ 2 ^ 32 ≤ t.op ∧ t.op ≤ s.split.maxMatch * s.n / 2 ∧
      runCommand .decompress (k + 1) s = .refused .resultOutOfDomain)

/-- A command's control flow, `ip` and RESULT do not depend on OUT_LIMIT or on what OUT held: the sizing run and the filling
run agree step by step (41_token_encoder.md section 4: R120; 42_decompressor.md section 4: R143;
43_commands_and_control.md section 4: R161). -/
def Obligations.SizingRunAgreesWithFillingRun : Prop :=
  ∀ (i : Instr) (s u : State), isCommand i → s.Ready → u.Ready → s.SameButOut u →
    ∀ k t, runCommand i k s = .next t →
      ∃ w, runCommand i k u = .next w ∧ w.phase = t.phase ∧ w.ip = t.ip ∧ w.op = t.op ∧ w.result = t.result

/-- A smaller limit leaves a prefix: the bytes below it are those of the run with the larger limit, step by step, and RESULT is
the same (41_token_encoder.md section 4: R121; 42_decompressor.md section 4: R144; 20_memory.md section 6: R62). R144 says it of
streams with no ill-referenced match; that the two runs also agree on the bytes drawn for one is the model's, whose draws
are counted from the same number in both (log 6). -/
def Obligations.TruncatedOutputIsAPrefix : Prop :=
  ∀ (i : Instr) (s u : State), isCommand i → s.Ready → u.Ready → u = { s with outLimit := u.outLimit } →
    s.limit ≤ u.limit → ∀ k t, runCommand i k s = .next t →
      ∃ w, runCommand i k u = .next w ∧ w.result = t.result ∧
        ∀ a, a < s.limit → w.outMem.read a = t.outMem.read a

/-- OUT bytes that a command does not write keep their value: those at or above the output position reached so far, and those
at or above the limit (20_memory.md section 1: R54; 41_token_encoder.md section 4: R121; 42_decompressor.md section 4: R144). -/
def Obligations.CommandsKeepTheOtherOutBytes : Prop :=
  ∀ (i : Instr) (s : State), isCommand i → s.Ready →
    ∀ k t, runCommand i k s = .next t → ∀ a, t.op ≤ a ∨ s.limit ≤ a → t.outMem.read a = s.outMem.read a

/-- Nothing carries over from an earlier command: a command's run depends on no working register and no earlier result
(10_state.md sections 1, 4: R20; 70_reset_and_hazards.md section 1: R186). That two runs with the same draws to come agree on the
bytes of an ill-referenced match is the model's (log 6). -/
def Obligations.EarlierRegistersDoNotMatter : Prop :=
  ∀ (i : Instr) (s u : State), isCommand i → s.Ready → u.Ready → s.SameCommandInputs u →
    ∀ k t, runCommand i k s = .next t →
      ∃ w, runCommand i k u = .next w ∧ w.phase = t.phase ∧ w.status = t.status ∧ w.ip = t.ip ∧ w.op = t.op ∧
        w.outMem = t.outMem ∧ w.illRef = t.illRef ∧ (t.phase = .idle → w.result = t.result)

/-- If no cursor position has a candidate agreeing on 2 bytes, COMPRESS gives exactly `n + ceil(n / 8)` bytes
(41_token_encoder.md section 4: R122). -/
def Obligations.LiteralOnlyInputExpandsExactly : Prop :=
  ∀ s : State, s.Ready → s.n + (s.n + 7) / 8 < 2 ^ 32 →
    (∀ p c, p + 2 ≤ s.n → p - s.split.windowSize ≤ c → c < p →
      ¬ (s.inByte c = s.inByte p ∧ s.inByte (c + 1) = s.inByte (p + 1))) →
    ∃ k t, runCommand .compress k s = .next t ∧ t.Completed ∧ t.result.toNat = s.n + (s.n + 7) / 8

/-- What a completed COMPRESS leaves in OUT, with `OUT_LIMIT ≥ RESULT`, is the stream of a listing that is well formed as
encoder output; with room for the worst case it completes so (41_token_encoder.md section 4: R119, R123; 30_encoding.md
sections 9, 10: R84, R85). -/
def Obligations.CompressWritesAWellFormedStream : Prop :=
  ∀ s : State, s.Ready →
    (∀ k t, runCommand .compress k s = .next t → t.Completed → t.result.toNat ≤ s.limit →
      ∃ items, encoderOutput s.split items = true ∧ (assemble items).length = t.result.toNat ∧
        ∀ a, a < t.result.toNat → t.outMem.read a = (assemble items)[a]?) ∧
    (s.n + (s.n + 7) / 8 ≤ s.limit →
      ∃ k t, runCommand .compress k s = .next t ∧ t.Completed ∧ t.result.toNat ≤ s.limit)

/-- The round trip: what a completed COMPRESS with `OUT_LIMIT ≥ RESULT` made of an input, DECOMPRESS with the same `length_bits`
turns back into it, for every limit, ending with `ip` at the end of the stream and no ill-referenced match; with room for the
worst case COMPRESS completes so (42_decompressor.md section 4: R145; 41_token_encoder.md section 4: R123). -/
def Obligations.DecompressInvertsCompress : Prop :=
  ∀ s : State, s.Ready →
    (∀ k t, runCommand .compress k s = .next t → t.Completed → t.result.toNat ≤ s.limit →
      ∀ u : State, u.Ready → u.split = s.split → u.inLen = t.result →
        (∀ a, a < t.result.toNat → u.inByte a = t.outByte a) →
        ∃ j w, runCommand .decompress j u = .next w ∧ w.Completed ∧
          w.result = s.inLen ∧ w.ip = t.result.toNat ∧ w.illRef = false ∧
          ∀ a, a < s.n → a < u.limit → w.outByte a = s.inByte a) ∧
    (s.n + (s.n + 7) / 8 ≤ s.limit →
      ∃ k t, runCommand .compress k s = .next t ∧ t.Completed ∧ t.result.toNat ≤ s.limit)
end

