-- ==== Sys2Proof/Laws/State.lean ====
section
/-! SUPPORT. What each shared update of the state does to each field, one lemma per field, so that no later proof unfolds a
record update (00_scope.md R11, 40_match_finder.md R100, 42_decompressor.md R137, 70_reset_and_hazards.md R185). -/

namespace Sys2Proof.Machine

/-! ### `gwrite` -/

@[simp] theorem State.gwrite_config (s : State) (a : Nat) (v : Byte) : (s.gwrite a v).config = s.config := rfl
@[simp] theorem State.gwrite_inLen (s : State) (a : Nat) (v : Byte) : (s.gwrite a v).inLen = s.inLen := rfl
@[simp] theorem State.gwrite_outLimit (s : State) (a : Nat) (v : Byte) : (s.gwrite a v).outLimit = s.outLimit := rfl
@[simp] theorem State.gwrite_result (s : State) (a : Nat) (v : Byte) : (s.gwrite a v).result = s.result := rfl
@[simp] theorem State.gwrite_status (s : State) (a : Nat) (v : Byte) : (s.gwrite a v).status = s.status := rfl
@[simp] theorem State.gwrite_mode (s : State) (a : Nat) (v : Byte) : (s.gwrite a v).mode = s.mode := rfl
@[simp] theorem State.gwrite_phase (s : State) (a : Nat) (v : Byte) : (s.gwrite a v).phase = s.phase := rfl
@[simp] theorem State.gwrite_ip (s : State) (a : Nat) (v : Byte) : (s.gwrite a v).ip = s.ip := rfl
@[simp] theorem State.gwrite_op (s : State) (a : Nat) (v : Byte) : (s.gwrite a v).op = s.op := rfl
@[simp] theorem State.gwrite_bit (s : State) (a : Nat) (v : Byte) : (s.gwrite a v).bit = s.bit := rfl
@[simp] theorem State.gwrite_tag (s : State) (a : Nat) (v : Byte) : (s.gwrite a v).tag = s.tag := rfl
@[simp] theorem State.gwrite_tagpos (s : State) (a : Nat) (v : Byte) : (s.gwrite a v).tagpos = s.tagpos := rfl
@[simp] theorem State.gwrite_ws (s : State) (a : Nat) (v : Byte) : (s.gwrite a v).ws = s.ws := rfl
@[simp] theorem State.gwrite_ub (s : State) (a : Nat) (v : Byte) : (s.gwrite a v).ub = s.ub := rfl
@[simp] theorem State.gwrite_cand (s : State) (a : Nat) (v : Byte) : (s.gwrite a v).cand = s.cand := rfl
@[simp] theorem State.gwrite_k (s : State) (a : Nat) (v : Byte) : (s.gwrite a v).k = s.k := rfl
@[simp] theorem State.gwrite_bestLen (s : State) (a : Nat) (v : Byte) : (s.gwrite a v).bestLen = s.bestLen := rfl
@[simp] theorem State.gwrite_bestStart (s : State) (a : Nat) (v : Byte) : (s.gwrite a v).bestStart = s.bestStart := rfl
@[simp] theorem State.gwrite_tokKind (s : State) (a : Nat) (v : Byte) : (s.gwrite a v).tokKind = s.tokKind := rfl
@[simp] theorem State.gwrite_tokByte (s : State) (a : Nat) (v : Byte) : (s.gwrite a v).tokByte = s.tokByte := rfl
@[simp] theorem State.gwrite_tokOff (s : State) (a : Nat) (v : Byte) : (s.gwrite a v).tokOff = s.tokOff := rfl
@[simp] theorem State.gwrite_tokLen (s : State) (a : Nat) (v : Byte) : (s.gwrite a v).tokLen = s.tokLen := rfl
@[simp] theorem State.gwrite_val (s : State) (a : Nat) (v : Byte) : (s.gwrite a v).val = s.val := rfl
@[simp] theorem State.gwrite_mLen (s : State) (a : Nat) (v : Byte) : (s.gwrite a v).mLen = s.mLen := rfl
@[simp] theorem State.gwrite_mOff (s : State) (a : Nat) (v : Byte) : (s.gwrite a v).mOff = s.mOff := rfl
@[simp] theorem State.gwrite_cnt (s : State) (a : Nat) (v : Byte) : (s.gwrite a v).cnt = s.cnt := rfl
@[simp] theorem State.gwrite_inMem (s : State) (a : Nat) (v : Byte) : (s.gwrite a v).inMem = s.inMem := rfl
@[simp] theorem State.gwrite_outMem (s : State) (a : Nat) (v : Byte) : (s.gwrite a v).outMem = if a < s.limit then s.outMem.write a v else s.outMem := rfl
@[simp] theorem State.gwrite_stage (s : State) (a : Nat) (v : Byte) : (s.gwrite a v).stage = s.stage := rfl
@[simp] theorem State.gwrite_draws (s : State) (a : Nat) (v : Byte) : (s.gwrite a v).draws = s.draws := rfl
@[simp] theorem State.gwrite_illRef (s : State) (a : Nat) (v : Byte) : (s.gwrite a v).illRef = s.illRef := rfl
@[simp] theorem State.gwrite_outEpoch (s : State) (a : Nat) (v : Byte) : (s.gwrite a v).outEpoch = s.outEpoch := rfl
@[simp] theorem State.gwrite_host (s : State) (a : Nat) (v : Byte) : (s.gwrite a v).host = s.host := rfl
@[simp] theorem State.gwrite_hostData (s : State) (a : Nat) (v : Byte) : (s.gwrite a v).hostData = s.hostData := rfl

@[simp] theorem State.gwrite_n (s : State) (a : Nat) (v : Byte) : (s.gwrite a v).n = s.n := rfl
@[simp] theorem State.gwrite_limit (s : State) (a : Nat) (v : Byte) : (s.gwrite a v).limit = s.limit := rfl
@[simp] theorem State.gwrite_split (s : State) (a : Nat) (v : Byte) : (s.gwrite a v).split = s.split := rfl
@[simp] theorem State.gwrite_busy (s : State) (a : Nat) (v : Byte) : (s.gwrite a v).busy = s.busy := rfl
@[simp] theorem State.gwrite_done (s : State) (a : Nat) (v : Byte) : (s.gwrite a v).done = s.done := rfl
@[simp] theorem State.gwrite_tagBitSet (s : State) (a : Nat) (v : Byte) : (s.gwrite a v).tagBitSet = s.tagBitSet := rfl
@[simp] theorem State.gwrite_tagWithBit (s : State) (a : Nat) (v : Byte) : (s.gwrite a v).tagWithBit = s.tagWithBit := rfl
@[simp] theorem State.gwrite_inByte (s : State) (a : Nat) (v : Byte) : (s.gwrite a v).inByte = s.inByte := rfl
@[simp] theorem State.gwrite_wellReferenced (s : State) (a : Nat) (v : Byte) : (s.gwrite a v).wellReferenced = s.wellReferenced := rfl
@[simp] theorem State.gwrite_windowStart (s : State) (a : Nat) (v : Byte) : (s.gwrite a v).windowStart = s.windowStart := rfl
@[simp] theorem State.gwrite_lengthBound (s : State) (a : Nat) (v : Byte) : (s.gwrite a v).lengthBound = s.lengthBound := rfl

/-! ### `withScan` -/

@[simp] theorem State.withScan_config (s : State) (a : Scan) : (s.withScan a).config = s.config := rfl
@[simp] theorem State.withScan_inLen (s : State) (a : Scan) : (s.withScan a).inLen = s.inLen := rfl
@[simp] theorem State.withScan_outLimit (s : State) (a : Scan) : (s.withScan a).outLimit = s.outLimit := rfl
@[simp] theorem State.withScan_result (s : State) (a : Scan) : (s.withScan a).result = s.result := rfl
@[simp] theorem State.withScan_status (s : State) (a : Scan) : (s.withScan a).status = s.status := rfl
@[simp] theorem State.withScan_mode (s : State) (a : Scan) : (s.withScan a).mode = s.mode := rfl
@[simp] theorem State.withScan_phase (s : State) (a : Scan) : (s.withScan a).phase = s.phase := rfl
@[simp] theorem State.withScan_ip (s : State) (a : Scan) : (s.withScan a).ip = s.ip := rfl
@[simp] theorem State.withScan_op (s : State) (a : Scan) : (s.withScan a).op = s.op := rfl
@[simp] theorem State.withScan_bit (s : State) (a : Scan) : (s.withScan a).bit = s.bit := rfl
@[simp] theorem State.withScan_tag (s : State) (a : Scan) : (s.withScan a).tag = s.tag := rfl
@[simp] theorem State.withScan_tagpos (s : State) (a : Scan) : (s.withScan a).tagpos = s.tagpos := rfl
@[simp] theorem State.withScan_ws (s : State) (a : Scan) : (s.withScan a).ws = s.windowStart := rfl
@[simp] theorem State.withScan_ub (s : State) (a : Scan) : (s.withScan a).ub = s.lengthBound := rfl
@[simp] theorem State.withScan_cand (s : State) (a : Scan) : (s.withScan a).cand = a.cand := rfl
@[simp] theorem State.withScan_k (s : State) (a : Scan) : (s.withScan a).k = a.k := rfl
@[simp] theorem State.withScan_bestLen (s : State) (a : Scan) : (s.withScan a).bestLen = a.bestLen := rfl
@[simp] theorem State.withScan_bestStart (s : State) (a : Scan) : (s.withScan a).bestStart = a.bestStart := rfl
@[simp] theorem State.withScan_tokKind (s : State) (a : Scan) : (s.withScan a).tokKind = s.tokKind := rfl
@[simp] theorem State.withScan_tokByte (s : State) (a : Scan) : (s.withScan a).tokByte = s.tokByte := rfl
@[simp] theorem State.withScan_tokOff (s : State) (a : Scan) : (s.withScan a).tokOff = s.tokOff := rfl
@[simp] theorem State.withScan_tokLen (s : State) (a : Scan) : (s.withScan a).tokLen = s.tokLen := rfl
@[simp] theorem State.withScan_val (s : State) (a : Scan) : (s.withScan a).val = s.val := rfl
@[simp] theorem State.withScan_mLen (s : State) (a : Scan) : (s.withScan a).mLen = s.mLen := rfl
@[simp] theorem State.withScan_mOff (s : State) (a : Scan) : (s.withScan a).mOff = s.mOff := rfl
@[simp] theorem State.withScan_cnt (s : State) (a : Scan) : (s.withScan a).cnt = s.cnt := rfl
@[simp] theorem State.withScan_inMem (s : State) (a : Scan) : (s.withScan a).inMem = s.inMem := rfl
@[simp] theorem State.withScan_outMem (s : State) (a : Scan) : (s.withScan a).outMem = s.outMem := rfl
@[simp] theorem State.withScan_stage (s : State) (a : Scan) : (s.withScan a).stage = s.stage := rfl
@[simp] theorem State.withScan_draws (s : State) (a : Scan) : (s.withScan a).draws = s.draws := rfl
@[simp] theorem State.withScan_illRef (s : State) (a : Scan) : (s.withScan a).illRef = s.illRef := rfl
@[simp] theorem State.withScan_outEpoch (s : State) (a : Scan) : (s.withScan a).outEpoch = s.outEpoch := rfl
@[simp] theorem State.withScan_host (s : State) (a : Scan) : (s.withScan a).host = s.host := rfl
@[simp] theorem State.withScan_hostData (s : State) (a : Scan) : (s.withScan a).hostData = s.hostData := rfl

/-! ### `copyWrite` -/

@[simp] theorem State.copyWrite_config (s : State) : (s.copyWrite).config = s.config := rfl
@[simp] theorem State.copyWrite_inLen (s : State) : (s.copyWrite).inLen = s.inLen := rfl
@[simp] theorem State.copyWrite_outLimit (s : State) : (s.copyWrite).outLimit = s.outLimit := rfl
@[simp] theorem State.copyWrite_result (s : State) : (s.copyWrite).result = s.result := rfl
@[simp] theorem State.copyWrite_status (s : State) : (s.copyWrite).status = s.status := rfl
@[simp] theorem State.copyWrite_mode (s : State) : (s.copyWrite).mode = s.mode := rfl
@[simp] theorem State.copyWrite_phase (s : State) : (s.copyWrite).phase = s.phase := rfl
@[simp] theorem State.copyWrite_ip (s : State) : (s.copyWrite).ip = s.ip := rfl
@[simp] theorem State.copyWrite_op (s : State) : (s.copyWrite).op = s.op := rfl
@[simp] theorem State.copyWrite_bit (s : State) : (s.copyWrite).bit = s.bit := rfl
@[simp] theorem State.copyWrite_tag (s : State) : (s.copyWrite).tag = s.tag := rfl
@[simp] theorem State.copyWrite_tagpos (s : State) : (s.copyWrite).tagpos = s.tagpos := rfl
@[simp] theorem State.copyWrite_ws (s : State) : (s.copyWrite).ws = s.ws := rfl
@[simp] theorem State.copyWrite_ub (s : State) : (s.copyWrite).ub = s.ub := rfl
@[simp] theorem State.copyWrite_cand (s : State) : (s.copyWrite).cand = s.cand := rfl
@[simp] theorem State.copyWrite_k (s : State) : (s.copyWrite).k = s.k := rfl
@[simp] theorem State.copyWrite_bestLen (s : State) : (s.copyWrite).bestLen = s.bestLen := rfl
@[simp] theorem State.copyWrite_bestStart (s : State) : (s.copyWrite).bestStart = s.bestStart := rfl
@[simp] theorem State.copyWrite_tokKind (s : State) : (s.copyWrite).tokKind = s.tokKind := rfl
@[simp] theorem State.copyWrite_tokByte (s : State) : (s.copyWrite).tokByte = s.tokByte := rfl
@[simp] theorem State.copyWrite_tokOff (s : State) : (s.copyWrite).tokOff = s.tokOff := rfl
@[simp] theorem State.copyWrite_tokLen (s : State) : (s.copyWrite).tokLen = s.tokLen := rfl
@[simp] theorem State.copyWrite_val (s : State) : (s.copyWrite).val = s.val := rfl
@[simp] theorem State.copyWrite_mLen (s : State) : (s.copyWrite).mLen = s.mLen := rfl
@[simp] theorem State.copyWrite_mOff (s : State) : (s.copyWrite).mOff = s.mOff := rfl
@[simp] theorem State.copyWrite_cnt (s : State) : (s.copyWrite).cnt = s.cnt := rfl
@[simp] theorem State.copyWrite_inMem (s : State) : (s.copyWrite).inMem = s.inMem := rfl
@[simp] theorem State.copyWrite_outMem (s : State) : (s.copyWrite).outMem = if s.op < s.limit then s.outMem.write s.op s.copiedByte else s.outMem := rfl
@[simp] theorem State.copyWrite_stage (s : State) : (s.copyWrite).stage = s.stage := rfl
@[simp] theorem State.copyWrite_draws (s : State) : (s.copyWrite).draws = if s.illReferencedStep then s.draws + 1 else s.draws := rfl
@[simp] theorem State.copyWrite_illRef (s : State) : (s.copyWrite).illRef = (s.illRef || s.illReferencedStep) := rfl
@[simp] theorem State.copyWrite_outEpoch (s : State) : (s.copyWrite).outEpoch = s.outEpoch := rfl
@[simp] theorem State.copyWrite_host (s : State) : (s.copyWrite).host = s.host := rfl
@[simp] theorem State.copyWrite_hostData (s : State) : (s.copyWrite).hostData = s.hostData := rfl

/-! ### `hardReset` -/

@[simp] theorem State.hardReset_config (s : State) : (s.hardReset).config = s.config := rfl
@[simp] theorem State.hardReset_inLen (s : State) : (s.hardReset).inLen = Config.freeWord s.draws := rfl
@[simp] theorem State.hardReset_outLimit (s : State) : (s.hardReset).outLimit = Config.freeWord (s.draws + 1) := rfl
@[simp] theorem State.hardReset_result (s : State) : (s.hardReset).result = Config.freeWord (s.draws + 2) := rfl
@[simp] theorem State.hardReset_status (s : State) : (s.hardReset).status = 0#32 := rfl
@[simp] theorem State.hardReset_mode (s : State) : (s.hardReset).mode = .compress := rfl
@[simp] theorem State.hardReset_phase (s : State) : (s.hardReset).phase = .idle := rfl
@[simp] theorem State.hardReset_ip (s : State) : (s.hardReset).ip = 0 := rfl
@[simp] theorem State.hardReset_op (s : State) : (s.hardReset).op = 0 := rfl
@[simp] theorem State.hardReset_bit (s : State) : (s.hardReset).bit = 0#8 := rfl
@[simp] theorem State.hardReset_tag (s : State) : (s.hardReset).tag = 0#8 := rfl
@[simp] theorem State.hardReset_tagpos (s : State) : (s.hardReset).tagpos = 0 := rfl
@[simp] theorem State.hardReset_ws (s : State) : (s.hardReset).ws = 0 := rfl
@[simp] theorem State.hardReset_ub (s : State) : (s.hardReset).ub = 0 := rfl
@[simp] theorem State.hardReset_cand (s : State) : (s.hardReset).cand = 0 := rfl
@[simp] theorem State.hardReset_k (s : State) : (s.hardReset).k = 0 := rfl
@[simp] theorem State.hardReset_bestLen (s : State) : (s.hardReset).bestLen = 0 := rfl
@[simp] theorem State.hardReset_bestStart (s : State) : (s.hardReset).bestStart = 0 := rfl
@[simp] theorem State.hardReset_tokKind (s : State) : (s.hardReset).tokKind = .matched := rfl
@[simp] theorem State.hardReset_tokByte (s : State) : (s.hardReset).tokByte = 0#8 := rfl
@[simp] theorem State.hardReset_tokOff (s : State) : (s.hardReset).tokOff = 0 := rfl
@[simp] theorem State.hardReset_tokLen (s : State) : (s.hardReset).tokLen = 0 := rfl
@[simp] theorem State.hardReset_val (s : State) : (s.hardReset).val = 0#16 := rfl
@[simp] theorem State.hardReset_mLen (s : State) : (s.hardReset).mLen = 0 := rfl
@[simp] theorem State.hardReset_mOff (s : State) : (s.hardReset).mOff = 0 := rfl
@[simp] theorem State.hardReset_cnt (s : State) : (s.hardReset).cnt = 0 := rfl
@[simp] theorem State.hardReset_inMem (s : State) : (s.hardReset).inMem = s.inMem := rfl
@[simp] theorem State.hardReset_outMem (s : State) : (s.hardReset).outMem = if s.busy then [] else s.outMem := rfl
@[simp] theorem State.hardReset_stage (s : State) : (s.hardReset).stage = .token := rfl
@[simp] theorem State.hardReset_draws (s : State) : (s.hardReset).draws = s.draws + 3 := rfl
@[simp] theorem State.hardReset_illRef (s : State) : (s.hardReset).illRef = false := rfl
@[simp] theorem State.hardReset_outEpoch (s : State) : (s.hardReset).outEpoch = if s.busy then s.outEpoch + 1 else s.outEpoch := rfl
@[simp] theorem State.hardReset_host (s : State) : (s.hardReset).host = s.host := rfl
@[simp] theorem State.hardReset_hostData (s : State) : (s.hardReset).hostData = s.hostData := rfl

/-! ### `finish` -/

@[simp] theorem State.finish_config (s : State) : (s.finish).config = s.config := rfl
@[simp] theorem State.finish_inLen (s : State) : (s.finish).inLen = s.inLen := rfl
@[simp] theorem State.finish_outLimit (s : State) : (s.finish).outLimit = s.outLimit := rfl
@[simp] theorem State.finish_result (s : State) : (s.finish).result = BitVec.ofNat 32 s.op := rfl
@[simp] theorem State.finish_status (s : State) : (s.finish).status = statusComplete := rfl
@[simp] theorem State.finish_mode (s : State) : (s.finish).mode = s.mode := rfl
@[simp] theorem State.finish_phase (s : State) : (s.finish).phase = .idle := rfl
@[simp] theorem State.finish_ip (s : State) : (s.finish).ip = s.ip := rfl
@[simp] theorem State.finish_op (s : State) : (s.finish).op = s.op := rfl
@[simp] theorem State.finish_bit (s : State) : (s.finish).bit = s.bit := rfl
@[simp] theorem State.finish_tag (s : State) : (s.finish).tag = s.tag := rfl
@[simp] theorem State.finish_tagpos (s : State) : (s.finish).tagpos = s.tagpos := rfl
@[simp] theorem State.finish_ws (s : State) : (s.finish).ws = s.ws := rfl
@[simp] theorem State.finish_ub (s : State) : (s.finish).ub = s.ub := rfl
@[simp] theorem State.finish_cand (s : State) : (s.finish).cand = s.cand := rfl
@[simp] theorem State.finish_k (s : State) : (s.finish).k = s.k := rfl
@[simp] theorem State.finish_bestLen (s : State) : (s.finish).bestLen = s.bestLen := rfl
@[simp] theorem State.finish_bestStart (s : State) : (s.finish).bestStart = s.bestStart := rfl
@[simp] theorem State.finish_tokKind (s : State) : (s.finish).tokKind = s.tokKind := rfl
@[simp] theorem State.finish_tokByte (s : State) : (s.finish).tokByte = s.tokByte := rfl
@[simp] theorem State.finish_tokOff (s : State) : (s.finish).tokOff = s.tokOff := rfl
@[simp] theorem State.finish_tokLen (s : State) : (s.finish).tokLen = s.tokLen := rfl
@[simp] theorem State.finish_val (s : State) : (s.finish).val = s.val := rfl
@[simp] theorem State.finish_mLen (s : State) : (s.finish).mLen = s.mLen := rfl
@[simp] theorem State.finish_mOff (s : State) : (s.finish).mOff = s.mOff := rfl
@[simp] theorem State.finish_cnt (s : State) : (s.finish).cnt = s.cnt := rfl
@[simp] theorem State.finish_inMem (s : State) : (s.finish).inMem = s.inMem := rfl
@[simp] theorem State.finish_outMem (s : State) : (s.finish).outMem = s.outMem := rfl
@[simp] theorem State.finish_stage (s : State) : (s.finish).stage = s.stage := rfl
@[simp] theorem State.finish_draws (s : State) : (s.finish).draws = s.draws := rfl
@[simp] theorem State.finish_illRef (s : State) : (s.finish).illRef = s.illRef := rfl
@[simp] theorem State.finish_outEpoch (s : State) : (s.finish).outEpoch = s.outEpoch := rfl
@[simp] theorem State.finish_host (s : State) : (s.finish).host = s.host := rfl
@[simp] theorem State.finish_hostData (s : State) : (s.finish).hostData = s.hostData := rfl

/-! ### `started` -/

@[simp] theorem State.started_config (s : State) (m : Mode) : (s.started m).config = s.config := rfl
@[simp] theorem State.started_inLen (s : State) (m : Mode) : (s.started m).inLen = s.inLen := rfl
@[simp] theorem State.started_outLimit (s : State) (m : Mode) : (s.started m).outLimit = s.outLimit := rfl
@[simp] theorem State.started_result (s : State) (m : Mode) : (s.started m).result = s.result := rfl
@[simp] theorem State.started_status (s : State) (m : Mode) : (s.started m).status = statusRunning := rfl
@[simp] theorem State.started_mode (s : State) (m : Mode) : (s.started m).mode = m := rfl
@[simp] theorem State.started_phase (s : State) (m : Mode) : (s.started m).phase = .awaitingTag := rfl
@[simp] theorem State.started_ip (s : State) (m : Mode) : (s.started m).ip = 0 := rfl
@[simp] theorem State.started_op (s : State) (m : Mode) : (s.started m).op = 0 := rfl
@[simp] theorem State.started_bit (s : State) (m : Mode) : (s.started m).bit = 0#8 := rfl
@[simp] theorem State.started_tag (s : State) (m : Mode) : (s.started m).tag = 0#8 := rfl
@[simp] theorem State.started_tagpos (s : State) (m : Mode) : (s.started m).tagpos = s.tagpos := rfl
@[simp] theorem State.started_ws (s : State) (m : Mode) : (s.started m).ws = s.ws := rfl
@[simp] theorem State.started_ub (s : State) (m : Mode) : (s.started m).ub = s.ub := rfl
@[simp] theorem State.started_cand (s : State) (m : Mode) : (s.started m).cand = s.cand := rfl
@[simp] theorem State.started_k (s : State) (m : Mode) : (s.started m).k = s.k := rfl
@[simp] theorem State.started_bestLen (s : State) (m : Mode) : (s.started m).bestLen = s.bestLen := rfl
@[simp] theorem State.started_bestStart (s : State) (m : Mode) : (s.started m).bestStart = s.bestStart := rfl
@[simp] theorem State.started_tokKind (s : State) (m : Mode) : (s.started m).tokKind = s.tokKind := rfl
@[simp] theorem State.started_tokByte (s : State) (m : Mode) : (s.started m).tokByte = s.tokByte := rfl
@[simp] theorem State.started_tokOff (s : State) (m : Mode) : (s.started m).tokOff = s.tokOff := rfl
@[simp] theorem State.started_tokLen (s : State) (m : Mode) : (s.started m).tokLen = s.tokLen := rfl
@[simp] theorem State.started_val (s : State) (m : Mode) : (s.started m).val = s.val := rfl
@[simp] theorem State.started_mLen (s : State) (m : Mode) : (s.started m).mLen = s.mLen := rfl
@[simp] theorem State.started_mOff (s : State) (m : Mode) : (s.started m).mOff = s.mOff := rfl
@[simp] theorem State.started_cnt (s : State) (m : Mode) : (s.started m).cnt = s.cnt := rfl
@[simp] theorem State.started_inMem (s : State) (m : Mode) : (s.started m).inMem = s.inMem := rfl
@[simp] theorem State.started_outMem (s : State) (m : Mode) : (s.started m).outMem = s.outMem := rfl
@[simp] theorem State.started_stage (s : State) (m : Mode) : (s.started m).stage = .token := rfl
@[simp] theorem State.started_draws (s : State) (m : Mode) : (s.started m).draws = s.draws := rfl
@[simp] theorem State.started_illRef (s : State) (m : Mode) : (s.started m).illRef = false := rfl
@[simp] theorem State.started_outEpoch (s : State) (m : Mode) : (s.started m).outEpoch = s.outEpoch := rfl
@[simp] theorem State.started_host (s : State) (m : Mode) : (s.started m).host = s.host := rfl
@[simp] theorem State.started_hostData (s : State) (m : Mode) : (s.started m).hostData = s.hostData := rfl

end Sys2Proof.Machine
end

