-- ==== Sys2Proof/Laws/Finder.lean ====
section
/-! SUPPORT. What the common prefix and the scan compute (40_match_finder.md R94, R95). -/

namespace Sys2Proof.Machine

theorem commonPrefix_le (rd : Nat → Byte) (c p ub : Nat) : commonPrefix rd c p ub ≤ ub := by
  induction ub generalizing c p with
  | zero => simp [commonPrefix]
  | succ ub ih =>
    simp only [commonPrefix]
    split
    · have := ih (c + 1) (p + 1); omega
    · omega

/-- The two regions agree over the common prefix. -/
theorem commonPrefix_agrees (rd : Nat → Byte) (c p ub j : Nat) (h : j < commonPrefix rd c p ub) :
    rd (c + j) = rd (p + j) := by
  induction ub generalizing c p j with
  | zero => simp [commonPrefix] at h
  | succ ub ih =>
    simp only [commonPrefix] at h
    split at h
    · next heq =>
      cases j with
      | zero => simpa using heq
      | succ j =>
        have := ih (c + 1) (p + 1) j (by omega)
        simpa [Nat.add_assoc, Nat.add_comm 1 j] using this
    · omega

/-- No longer prefix within the bound agrees: the common prefix is the greatest (40_match_finder.md R94). -/
theorem commonPrefix_greatest (rd : Nat → Byte) (c p ub k : Nat) (hk : k ≤ ub)
    (h : ∀ j, j < k → rd (c + j) = rd (p + j)) : k ≤ commonPrefix rd c p ub := by
  induction ub generalizing c p k with
  | zero => omega
  | succ ub ih =>
    cases k with
    | zero => omega
    | succ k =>
      have h0 : rd c = rd p := by simpa using h 0 (by omega)
      have := ih (c + 1) (p + 1) k (by omega) (fun j hj => by
        have := h (j + 1) (by omega)
        simpa [Nat.add_assoc, Nat.add_comm 1 j] using this)
      simp only [commonPrefix, if_pos h0]
      omega

/-- The common prefix reads only bytes below `p + ub`, when the candidate lies before `p`. -/
theorem commonPrefix_congr {rd rd' : Nat → Byte} {c p ub b : Nat} (hc : c ≤ p) (hb : p + ub ≤ b)
    (h : ∀ a, a < b → rd' a = rd a) : commonPrefix rd' c p ub = commonPrefix rd c p ub := by
  induction ub generalizing c p with
  | zero => rfl
  | succ ub ih =>
    simp only [commonPrefix, h c (by omega), h p (by omega)]
    split
    · rw [ih (by omega) (by omega)]
    · rfl

/-- What a scan leaves: the old best if no candidate is strictly longer, else the oldest of the longest candidates
(40_match_finder.md R95). -/
theorem scanFrom_best (rd : Nat → Byte) (p ub count c : Nat) (a : Scan) :
    let r := scanFrom rd p ub count c a
    (r.bestLen = a.bestLen ∧ r.bestStart = a.bestStart ∧
      ∀ x, c ≤ x → x < c + count → commonPrefix rd x p ub ≤ a.bestLen) ∨
    (a.bestLen < r.bestLen ∧ c ≤ r.bestStart ∧ r.bestStart < c + count ∧
      r.bestLen = commonPrefix rd r.bestStart p ub ∧
      ∀ x, c ≤ x → x < c + count → commonPrefix rd x p ub ≤ r.bestLen ∧
        (commonPrefix rd x p ub = r.bestLen → r.bestStart ≤ x)) := by
  induction count generalizing c a with
  | zero => exact .inl ⟨rfl, rfl, fun x h1 h2 => by omega⟩
  | succ count ih =>
    simp only [scanFrom]
    have hv : ∀ {x}, c ≤ x → x < c + (count + 1) → x = c ∨ (c + 1 ≤ x ∧ x < c + 1 + count) := by
      intro x h1 h2; omega
    by_cases hk : a.bestLen < commonPrefix rd c p ub
    · have e : visit rd p ub c a = ⟨c, commonPrefix rd c p ub, commonPrefix rd c p ub, c⟩ := by simp [visit, hk]
      rw [e]
      rcases ih (c + 1) ⟨c, commonPrefix rd c p ub, commonPrefix rd c p ub, c⟩ with ⟨h1, h2, h3⟩ | ⟨h1, h2, h3, h4, h5⟩
      · refine .inr ⟨by rw [h1]; exact hk, Nat.le_of_eq h2.symm, by rw [h2]; show c < _; omega,
          by rw [h1, h2], fun x hx1 hx2 => ?_⟩
        rw [h1, h2]
        rcases hv hx1 hx2 with rfl | ⟨hx, hx'⟩
        · exact ⟨Nat.le_refl _, fun _ => Nat.le_refl _⟩
        · exact ⟨h3 x hx hx', fun _ => by show c ≤ x; omega⟩
      · dsimp only at h1
        refine .inr ⟨by omega, by omega, by omega, h4, fun x hx1 hx2 => ?_⟩
        rcases hv hx1 hx2 with rfl | ⟨hx, hx'⟩
        · exact ⟨by omega, fun h => by omega⟩
        · exact h5 x hx hx'
    · have e : visit rd p ub c a = { a with cand := c, k := commonPrefix rd c p ub } := by simp [visit, hk]
      rw [e]
      rcases ih (c + 1) { a with cand := c, k := commonPrefix rd c p ub } with ⟨h1, h2, h3⟩ | ⟨h1, h2, h3, h4, h5⟩
      · refine .inl ⟨h1, h2, fun x hx1 hx2 => ?_⟩
        rcases hv hx1 hx2 with rfl | ⟨hx, hx'⟩
        · omega
        · exact h3 x hx hx'
      · dsimp only at h1
        refine .inr ⟨h1, by omega, by omega, h4, fun x hx1 hx2 => ?_⟩
        rcases hv hx1 hx2 with rfl | ⟨hx, hx'⟩
        · exact ⟨by omega, fun h => by omega⟩
        · exact h5 x hx hx'

/-- The scan's last two registers: the last candidate, if there is one, and its common prefix. -/
theorem scanFrom_last (rd : Nat → Byte) (p ub count c : Nat) (a : Scan) :
    let r := scanFrom rd p ub count c a
    (count = 0 ∧ r = a) ∨ (0 < count ∧ r.cand = c + count - 1 ∧ r.k = commonPrefix rd (c + count - 1) p ub) := by
  induction count generalizing c a with
  | zero => exact .inl ⟨rfl, rfl⟩
  | succ count ih =>
    refine .inr ⟨by omega, ?_⟩
    simp only [scanFrom]
    rcases ih (c + 1) (visit rd p ub c a) with ⟨h0, h⟩ | ⟨h0, h1, h2⟩
    · subst h0
      rw [h]
      simp only [visit]
      split <;> exact ⟨rfl, rfl⟩
    · have e : c + 1 + count - 1 = c + (count + 1) - 1 := by omega
      rw [e] at h1 h2
      exact ⟨h1, h2⟩

/-- The scan reads only bytes below `p + ub`. -/
theorem scanFrom_congr {rd rd' : Nat → Byte} {p ub count c b : Nat} (hc : c + count ≤ p) (hb : p + ub ≤ b)
    (h : ∀ a, a < b → rd' a = rd a) (a : Scan) : scanFrom rd' p ub count c a = scanFrom rd p ub count c a := by
  induction count generalizing c a with
  | zero => rfl
  | succ count ih =>
    simp only [scanFrom, visit, commonPrefix_congr (c := c) (by omega) hb h]
    exact ih (by omega) _

/-- The scan of FINDMATCH, in the machine's terms (40_match_finder.md R91 to R96): either no candidate agrees with the cursor
on any byte, or `best_start` is the oldest of the candidates with the longest common prefix `best_len`. -/
theorem State.scan_best (s : State) :
    let cpl := fun c => commonPrefix s.inByte c s.ip s.lengthBound
    (s.scan.bestLen = 0 ∧ s.scan.bestStart = s.bestStart ∧ ∀ c, s.candidate c → cpl c = 0) ∨
    (0 < s.scan.bestLen ∧ s.candidate s.scan.bestStart ∧ s.scan.bestLen = cpl s.scan.bestStart ∧
      ∀ c, s.candidate c → cpl c ≤ s.scan.bestLen ∧ (cpl c = s.scan.bestLen → s.scan.bestStart ≤ c)) := by
  have hw : s.windowStart ≤ s.ip := Nat.sub_le _ _
  have he : s.windowStart + (s.ip - s.windowStart) = s.ip := by omega
  have := scanFrom_best s.inByte s.ip s.lengthBound (s.ip - s.windowStart) s.windowStart
    { cand := s.cand, k := s.k, bestLen := 0, bestStart := s.bestStart }
  rw [he] at this
  rcases this with ⟨h1, h2, h3⟩ | ⟨h1, h2, h3, h4, h5⟩
  · exact .inl ⟨h1, h2, fun c hc => Nat.le_zero.mp (h3 c hc.1 hc.2)⟩
  · exact .inr ⟨h1, ⟨h2, h3⟩, h4, fun c hc => h5 c hc.1 hc.2⟩

end Sys2Proof.Machine
end

