-- ==== Sys2Proof/Laws/Decode.lean ====
section
/-! SUPPORT. The arithmetic of the packed match value (30_encoding.md R75, R76) and the bytes it lies in (20_memory.md R55). -/

namespace Sys2Proof

theorem LengthBits.toNat_pos (l : LengthBits) : 2 ≤ l.toNat ∧ l.toNat ≤ 8 := by cases l <;> decide

theorem LengthBits.toNat_add_offsetBits (l : LengthBits) : l.offsetBits + l.toNat = 16 := by cases l <;> rfl

/-- `2^O * 2^L = 2^16`. -/
theorem LengthBits.two_pow_mul (l : LengthBits) : 2 ^ l.offsetBits * 2 ^ l.toNat = 65536 := by cases l <;> rfl

theorem LengthBits.maxMatch_add_one (l : LengthBits) : l.maxMatch + 1 = 2 ^ l.toNat := by cases l <;> rfl

theorem LengthBits.windowSize_add_one (l : LengthBits) : l.windowSize + 1 = 2 ^ l.offsetBits := by cases l <;> rfl

theorem LengthBits.maxMatch_bounds (l : LengthBits) : 3 ≤ l.maxMatch ∧ l.maxMatch ≤ 255 := by cases l <;> decide

theorem LengthBits.admits_iff (l : LengthBits) (off len : Nat) :
    l.admits off len = true ↔ off < 2 ^ l.offsetBits ∧ len < 2 ^ l.toNat := by
  have h1 := l.maxMatch_add_one
  have h2 := l.windowSize_add_one
  simp only [LengthBits.admits, Bool.and_eq_true, decide_eq_true_eq]
  omega

/-- `value & M` is the remainder by `2^L`. -/
theorem unpackLength_eq (l : LengthBits) (v : Half) : unpackLength l v = v.toNat % 2 ^ l.toNat := by
  simp [unpackLength, LengthBits.maxMatch, Nat.and_two_pow_sub_one_eq_mod]

/-- `value >> L` is the quotient by `2^L`. -/
theorem unpackOffset_eq (l : LengthBits) (v : Half) : unpackOffset l v = v.toNat / 2 ^ l.toNat := by
  simp [unpackOffset, Nat.shiftRight_eq_div_pow]

/-- With both fields in range the shift loses no bit and the mask changes nothing (30_encoding.md R75). -/
theorem pack_toNat {l : LengthBits} {off len : Nat} (h : l.admits off len = true) :
    (pack l off len).toNat = off * 2 ^ l.toNat + len := by
  obtain ⟨ho, hl⟩ := (l.admits_iff off len).mp h
  have hp := l.two_pow_mul
  have hb : off * 2 ^ l.toNat + len < 65536 := by
    have : (off + 1) * 2 ^ l.toNat ≤ 2 ^ l.offsetBits * 2 ^ l.toNat := Nat.mul_le_mul_right _ ho
    rw [Nat.add_mul] at this
    omega
  have hm : len &&& l.maxMatch = len := by
    rw [LengthBits.maxMatch, Nat.and_two_pow_sub_one_eq_mod, Nat.mod_eq_of_lt hl]
  rw [pack, hm, ← Nat.shiftLeft_add_eq_or_of_lt hl, Nat.shiftLeft_eq, BitVec.toNat_ofNat]
  exact Nat.mod_eq_of_lt hb

/-- The fields of any packed value are in range. -/
theorem unpack_admits (l : LengthBits) (v : Half) : l.admits (unpackOffset l v) (unpackLength l v) = true := by
  rw [LengthBits.admits_iff, unpackOffset_eq, unpackLength_eq]
  have hv : v.toNat < 65536 := v.isLt
  have hp := l.two_pow_mul
  have h0 : 0 < 2 ^ l.toNat := Nat.two_pow_pos _
  refine ⟨?_, Nat.mod_lt _ h0⟩
  rw [Nat.div_lt_iff_lt_mul h0]
  omega

theorem hiByte_toNat (v : Half) : (hiByte v).toNat = v.toNat / 256 := by
  have := v.isLt
  simp [hiByte, Nat.shiftRight_eq_div_pow]
  omega

theorem loByte_toNat (v : Half) : (loByte v).toNat = v.toNat % 256 := by
  simp [loByte]

theorem ofBytes_toNat (hi lo : Byte) : (ofBytes hi lo).toNat = hi.toNat * 256 + lo.toNat := by
  have := lo.isLt
  simp only [ofBytes, BitVec.toNat_append]
  rw [← Nat.shiftLeft_add_eq_or_of_lt this, Nat.shiftLeft_eq]

/-- The two bytes of a value, read back, are the value (20_memory.md R55). -/
@[simp] theorem ofBytes_hiByte_loByte (v : Half) : ofBytes (hiByte v) (loByte v) = v := by
  apply BitVec.eq_of_toNat_eq
  rw [ofBytes_toNat, hiByte_toNat, loByte_toNat]
  omega

@[simp] theorem hiByte_ofBytes (hi lo : Byte) : hiByte (ofBytes hi lo) = hi := by
  have := lo.isLt
  apply BitVec.eq_of_toNat_eq
  rw [hiByte_toNat, ofBytes_toNat]
  omega

@[simp] theorem loByte_ofBytes (hi lo : Byte) : loByte (ofBytes hi lo) = lo := by
  have := lo.isLt
  apply BitVec.eq_of_toNat_eq
  rw [loByte_toNat, ofBytes_toNat]
  omega

@[simp] theorem matchFields_ofMatch (l : LengthBits) (off len : Nat) :
    (Instr.ofMatch l off len).matchFields? = some (l, off, len) := by cases l <;> rfl

/-- An instruction with match fields is the MATCH row of its split. -/
theorem eq_ofMatch {i : Instr} {l : LengthBits} {off len : Nat} (h : i.matchFields? = some (l, off, len)) :
    i = Instr.ofMatch l off len := by
  cases i <;> simp [Instr.matchFields?] at h <;> obtain ⟨rfl, rfl, rfl⟩ := h <;> rfl

@[simp] theorem encode_ofMatch (l : LengthBits) (off len : Nat) :
    encode (Instr.ofMatch l off len) = some (.stream (matchBytes l off len)) := by cases l <;> rfl

@[simp] theorem place_ofMatch (l : LengthBits) (off len : Nat) :
    (Instr.ofMatch l off len).place? = some (.item (.matchToken l)) := by cases l <;> rfl

@[simp] theorem wf_ofMatch (l : LengthBits) (off len : Nat) :
    (Instr.ofMatch l off len).wf = l.admits off len := by cases l <;> rfl

end Sys2Proof
end

