-- ==== Sys2Proof/Laws/Ops.lean ====
section
/-! SUPPORT. For each shared operation, once, everything it can do: later proofs cite these and do not unfold it. -/

namespace Sys2Proof.Machine

/-- One byte of OUT after a guarded write (00_scope.md R11). -/
theorem State.gwrite_read (s : State) (a x : Nat) (v : Byte) :
    (s.gwrite a v).outMem.read x = if x = a ∧ a < s.limit then some v else s.outMem.read x := by
  simp only [State.gwrite_outMem]
  split
  · next h => simp [Memory.read_write, h]
  · next h => simp [h]

theorem State.gwrite_wf {s : State} (h : s.outMem.wf) (a : Nat) (v : Byte) : (s.gwrite a v).outMem.wf := by
  simp only [State.gwrite_outMem]
  split
  · exact Memory.wf_write h a v
  · exact h

/-- An operation with a `requires` clause answers a next state only inside it. -/
theorem requiring_next {p : Bool} {o : Result} {t : State} :
    requiring p o = .next t ↔ p = true ∧ o = .next t := by
  cases p <;> simp [requiring]

theorem requiring_fault {p : Bool} {o : Result} {f : Fault} :
    requiring p o = .fault f ↔ (p = false ∧ f = .requiresViolated) ∨ (p = true ∧ o = .fault f) := by
  cases p <;> simp [requiring, eq_comm]

theorem requiring_refused {p : Bool} {o : Result} {r : Refusal} :
    requiring p o = .refused r ↔ p = true ∧ o = .refused r := by
  cases p <;> simp [requiring]

/-- Completion answers a next state exactly in domain (43_commands_and_control.md R156, 10_state.md R27). -/
theorem complete_next {s t : State} :
    complete s = .next t ↔ s.op < 2 ^ 32 ∧ t = s.finish := by
  simp only [complete]
  split
  · next h => exact ⟨fun e => ⟨h, (Host.Outcome.next.inj e).symm⟩, fun e => by rw [e.2]⟩
  · next h => exact ⟨fun e => by simp at e, fun e => absurd e.1 h⟩

theorem complete_fault {s : State} {f : Fault} : complete s ≠ .fault f := by
  simp only [complete]
  split <;> simp

theorem complete_refused {s : State} {r : Refusal} :
    complete s = .refused r ↔ 2 ^ 32 ≤ s.op ∧ r = .resultOutOfDomain := by
  simp only [complete]
  split
  · next h => exact ⟨fun e => by simp at e, fun e => by omega⟩
  · next h => exact ⟨fun e => ⟨by omega, (Host.Outcome.refused.inj e).symm⟩, fun e => by rw [e.2]⟩

/-- A CMD write of a command: ignored while one runs, else a start, with completion at once when there is no input. -/
theorem startCommand_next {m : Mode} {s t : State} (h : startCommand m s = .next t) :
    (¬ (s.phase = .idle ∧ s.busy = false) ∧ t = s) ∨
    (s.phase = .idle ∧ s.busy = false ∧ s.n ≤ s.config.inSize.toNat ∧ s.limit ≤ s.config.outSize.toNat ∧
      ((s.n = 0 ∧ t = (s.started m).finish) ∨
       (0 < s.n ∧ t = s.started m))) := by
  simp only [startCommand] at h
  split at h
  · next hi =>
    split at h
    · next ha =>
      refine .inr ⟨hi.1, hi.2, ha.1, ha.2, ?_⟩
      split at h
      · next hn => exact .inl ⟨hn, (complete_next.mp h).2⟩
      · next hn => exact .inr ⟨by omega, (Host.Outcome.next.inj h).symm⟩
    · simp at h
  · next hi => exact .inl ⟨hi, (Host.Outcome.next.inj h).symm⟩

/-- After a token and NEXT_BIT: completion at the end of the input, else the next tag or token (43_commands_and_control.md
R155). -/
theorem endIteration_next {s t : State} (h : endIteration s = .next t) :
    (s.n ≤ s.ip ∧ s.op < 2 ^ 32 ∧
      t = { s with stage := .token }.finish) ∨
    (s.ip < s.n ∧ s.bit = 0#8 ∧ t = { s with stage := .token, phase := .awaitingTag }) ∨
    (s.ip < s.n ∧ s.bit ≠ 0#8 ∧ t = { s with stage := .token, phase := .processingGroup }) := by
  simp only [endIteration] at h
  split at h
  · next hn => exact .inl ⟨hn, (complete_next.mp h).1, (complete_next.mp h).2⟩
  · next hn =>
    by_cases hb : s.bit = 0#8
    · exact .inr (.inl ⟨by omega, hb, by rw [← Host.Outcome.next.inj h]; rw [if_pos hb]⟩)
    · exact .inr (.inr ⟨by omega, hb, by rw [← Host.Outcome.next.inj h]; rw [if_neg hb]⟩)

theorem endIteration_complete {s : State} (hn : s.n ≤ s.ip) (ho : s.op < 2 ^ 32) :
    endIteration s = .next { s with stage := .token }.finish := by
  rw [endIteration, if_pos hn]
  exact complete_next.mpr ⟨ho, rfl⟩

theorem endIteration_group {s : State} (hn : s.ip < s.n) (hb : s.bit = 0#8) :
    endIteration s = .next { s with stage := .token, phase := .awaitingTag } := by
  rw [endIteration, if_neg (by omega), if_pos hb]

theorem endIteration_token {s : State} (hn : s.ip < s.n) (hb : s.bit ≠ 0#8) :
    endIteration s = .next { s with stage := .token, phase := .processingGroup } := by
  rw [endIteration, if_neg (by omega), if_neg hb]

/-- Every MATCH row is the shared MATCH on its split. -/
theorem exec_ofMatch (l : LengthBits) (off len : Nat) (s : State) :
    exec (Instr.ofMatch l off len) s = matchToken l off len s := by cases l <;> rfl

/-- A MATCH that answers a next state: the token read and unpacked, or skipped (42_decompressor.md R136, R139). -/
theorem matchToken_next {l : LengthBits} {off len : Nat} {s t : State} (h : matchToken l off len s = .next t) :
    s.split = l ∧ s.bit ≠ 0#8 ∧ s.tagBitSet = false ∧
    ((s.ip + 2 ≤ s.n ∧ t = { s with
        val := pack l off len, ip := s.ip + 2, mLen := unpackLength l (pack l off len),
        mOff := unpackOffset l (pack l off len), cnt := unpackLength l (pack l off len),
        stage := if unpackLength l (pack l off len) = 0 then .advance else .body }) ∨
     (s.n < s.ip + 2 ∧ t = { s with ip := s.ip + 2, stage := .advance })) := by
  simp only [matchToken] at h
  split at h
  · next hl =>
    obtain ⟨hr, h⟩ := requiring_next.mp h
    simp only [Bool.and_eq_true, decide_eq_true_eq, Bool.not_eq_true'] at hr
    refine ⟨hl, hr.1, hr.2, ?_⟩
    split at h
    · next hn => exact .inl ⟨hn, (Host.Outcome.next.inj h).symm⟩
    · next hn => exact .inr ⟨by omega, (Host.Outcome.next.inj h).symm⟩
  · simp at h

/-- The item read at a tag position is a TAG, at a literal position a LIT, at a match position a MATCH of the instance with
fields in range. -/
theorem State.itemAt_cases (s : State) (p : ItemPlace) :
    match p with
    | .tagByte => ∃ t, s.itemAt p = .tag t
    | .literal => ∃ b, s.itemAt p = .lit b
    | .matchToken l => ∃ off len, l.admits off len = true ∧ s.itemAt p = Instr.ofMatch l off len := by
  have hz : ∀ l : LengthBits, l.admits 0 0 = true := by intro l; cases l <;> rfl
  unfold State.itemAt
  generalize s.streamBytes p.length = bs
  cases p with
  | tagByte => cases bs <;> exact ⟨_, rfl⟩
  | literal => cases bs <;> exact ⟨_, rfl⟩
  | matchToken l =>
    match bs with
    | [] => exact ⟨0, 0, hz l, rfl⟩
    | [_] => exact ⟨0, 0, hz l, rfl⟩
    | _ :: _ :: _ => exact ⟨_, _, unpack_admits l _, rfl⟩

/-- The bytes of the stream at `ip` that an item of one or two bytes is read from. -/
theorem State.streamBytes_one (s : State) (h : s.ip < s.n) : s.streamBytes 1 = [s.inByte s.ip] := by
  have : min 1 (s.n - s.ip) = 1 := by omega
  simp [State.streamBytes, this]

theorem State.streamBytes_two (s : State) (h : s.ip + 2 ≤ s.n) :
    s.streamBytes 2 = [s.inByte s.ip, s.inByte (s.ip + 1)] := by
  have : min 2 (s.n - s.ip) = 2 := by omega
  simp [State.streamBytes, this, List.range_succ]

/-- With no host move a step is the engine's: the selected operation, or nothing when idle. -/
theorem step_of_host_nil {s : State} (h : s.host = []) :
    step s = match s.fetch with
      | some i => exec i s
      | none => .next s := by
  simp only [step, nextAction, h, engineAction]
  cases s.fetch <;> rfl

/-- One step more at the front of a run. -/
theorem steps_succ (k : Nat) (s : State) :
    steps (k + 1) s = match step s with
      | .next t => steps k t
      | .fault f => .fault f
      | .refused r => .refused r := rfl

end Sys2Proof.Machine
end

