-- ==== Sys2Proof/Laws/Effects.lean ====
section
/-! SUPPORT. Once, everything an operation and a step can do: the inversion of `exec` and of `step`, which invariant proofs
split on instead of unfolding the meanings (43_commands_and_control.md R155 and the rules of the operations). -/

namespace Sys2Proof.Machine

/-- Everything an operation that answers a next state can have done. -/
inductive Effect (s : State) : Instr → State → Prop
  /-- A command given while one runs (10_state.md R23). -/
  | ignored (i : Instr) (hi : isCommand i) (hb : ¬ (s.phase = .idle ∧ s.busy = false)) : Effect s i s
  /-- A command start with no input: completion at once (R152, R155). -/
  | startedEmpty (i : Instr) (m : Mode) (hi : (i = .compress ∧ m = .compress) ∨ (i = .decompress ∧ m = .decompress))
      (hp : s.phase = .idle) (hb : s.busy = false) (ha : s.n ≤ s.config.inSize.toNat ∧ s.limit ≤ s.config.outSize.toNat)
      (hn : s.n = 0) : Effect s i (s.started m).finish
  /-- A command start with input (R152). -/
  | started (i : Instr) (m : Mode) (hi : (i = .compress ∧ m = .compress) ∨ (i = .decompress ∧ m = .decompress))
      (hp : s.phase = .idle) (hb : s.busy = false) (ha : s.n ≤ s.config.inSize.toNat ∧ s.limit ≤ s.config.outSize.toNat)
      (hn : 0 < s.n) : Effect s i (s.started m)
  /-- TAG (R131). -/
  | tag (b : Byte) (hb : s.bit = 0#8) (hn : s.ip < s.n) :
      Effect s (.tag b) { s with tag := b, ip := s.ip + 1, bit := 1#8, phase := .processingGroup, stage := .token }
  /-- LIT (R134, R135). -/
  | lit (b : Byte) (hb : s.bit ≠ 0#8) (ht : s.tagBitSet = true) :
      Effect s (.lit b) { s with
        outMem := if s.ip < s.n ∧ s.op < s.limit then s.outMem.write s.op b else s.outMem
        ip := s.ip + 1, op := s.op + 1, stage := .advance }
  /-- MATCH with its two bytes present (R136). -/
  | matchRead (i : Instr) (off len : Nat) (hi : i.matchFields? = some (s.split, off, len)) (hb : s.bit ≠ 0#8)
      (ht : s.tagBitSet = false) (hn : s.ip + 2 ≤ s.n) :
      Effect s i { s with
        val := pack s.split off len, ip := s.ip + 2, mLen := unpackLength s.split (pack s.split off len),
        mOff := unpackOffset s.split (pack s.split off len), cnt := unpackLength s.split (pack s.split off len),
        stage := if unpackLength s.split (pack s.split off len) = 0 then .advance else .body }
  /-- MATCH cut off: the tail skip (R139). -/
  | matchSkip (i : Instr) (off len : Nat) (hi : i.matchFields? = some (s.split, off, len)) (hb : s.bit ≠ 0#8)
      (ht : s.tagBitSet = false) (hn : s.n < s.ip + 2) :
      Effect s i { s with ip := s.ip + 2, stage := .advance }
  /-- FINDMATCH giving a Literal (R97). -/
  | findLiteral (hn : s.ip < s.n) (hl : s.scan.bestLen < 2) :
      Effect s .findMatch { s.withScan s.scan with tokKind := .literal, tokByte := s.inByte s.ip, stage := .body }
  /-- FINDMATCH giving a Match (R98). -/
  | findMatched (hn : s.ip < s.n) (hl : 2 ≤ s.scan.bestLen) :
      Effect s .findMatch { s.withScan s.scan with
        tokKind := .matched, tokOff := s.ip - s.scan.bestStart, tokLen := s.scan.bestLen, stage := .body }
  /-- OPEN_GROUP (R111). -/
  | openGroup (hb : s.bit = 0#8) (hn : s.ip < s.n) :
      Effect s .openGroup { s.gwrite s.op 0#8 with
        tagpos := s.op, tag := 0#8, op := s.op + 1, bit := 1#8, phase := .processingGroup, stage := .token }
  /-- EMIT_LIT (R112). -/
  | emitLit (hb : s.bit ≠ 0#8) (hk : s.tokKind = .literal) :
      Effect s .emitLit { (s.gwrite s.op s.tokByte).gwrite s.tagpos s.tagWithBit with
        op := s.op + 1, tag := s.tagWithBit, ip := s.ip + 1, stage := .advance }
  /-- EMIT_MATCH (R114). -/
  | emitMatch (hb : s.bit ≠ 0#8) (hk : s.tokKind = .matched) :
      Effect s .emitMatch { (s.gwrite s.op (hiByte (pack s.split s.tokOff s.tokLen))).gwrite (s.op + 1)
          (loByte (pack s.split s.tokOff s.tokLen)) with
        op := s.op + 2, ip := s.ip + s.tokLen, stage := .advance }
  /-- COPY_BYTE (R137, R140, R141). -/
  | copyByte (hc : 0 < s.cnt) :
      Effect s .copyByte { s.copyWrite with
        op := s.op + 1, cnt := s.cnt - 1, stage := if s.cnt = 1 then .advance else .body }
  /-- NEXT_BIT with the input exhausted: completion (R154, R156). -/
  | complete (hb : s.bit ≠ 0#8) (hn : s.n ≤ s.ip) (ho : s.op < 2 ^ 32) :
      Effect s .nextBit { s with bit := shiftCursor s.bit, stage := .token }.finish
  /-- NEXT_BIT after the last token of a group (R154, R155). -/
  | nextGroup (hb : s.bit ≠ 0#8) (hn : s.ip < s.n) (hz : shiftCursor s.bit = 0#8) :
      Effect s .nextBit { s with bit := shiftCursor s.bit, stage := .token, phase := .awaitingTag }
  /-- NEXT_BIT inside a group (R154, R155). -/
  | nextToken (hb : s.bit ≠ 0#8) (hn : s.ip < s.n) (hz : shiftCursor s.bit ≠ 0#8) :
      Effect s .nextBit { s with bit := shiftCursor s.bit, stage := .token, phase := .processingGroup }

theorem startCommand_effect {i : Instr} {m : Mode} {s t : State}
    (hi : (i = .compress ∧ m = .compress) ∨ (i = .decompress ∧ m = .decompress)) (h : startCommand m s = .next t) :
    Effect s i t := by
  rcases startCommand_next h with ⟨hb, rfl⟩ | ⟨hp, hb, h1, h2, ⟨hn, rfl⟩ | ⟨hn, rfl⟩⟩
  · exact .ignored i (hi.imp And.left And.left) hb
  · exact .startedEmpty i m hi hp hb ⟨h1, h2⟩ hn
  · exact .started i m hi hp hb ⟨h1, h2⟩ hn

theorem matchToken_effect {l : LengthBits} {off len : Nat} {s t : State} (h : matchToken l off len s = .next t) :
    Effect s (Instr.ofMatch l off len) t := by
  obtain ⟨rfl, hb, ht, ⟨hn, rfl⟩ | ⟨hn, rfl⟩⟩ := matchToken_next h
  · exact .matchRead _ off len (matchFields_ofMatch _ _ _) hb ht hn
  · exact .matchSkip _ off len (matchFields_ofMatch _ _ _) hb ht hn

/-- The inversion of `exec`: an operation that answers a next state had one of the effects of its rule. -/
theorem exec_effect {i : Instr} {s t : State} (h : exec i s = .next t) : Effect s i t := by
  cases i with
  | compress => exact startCommand_effect (.inl ⟨rfl, rfl⟩) h
  | decompress => exact startCommand_effect (.inr ⟨rfl, rfl⟩) h
  | tag b =>
    obtain ⟨hr, h⟩ := requiring_next.mp h
    obtain ⟨hb, hn⟩ := of_decide_eq_true hr
    exact Host.Outcome.next.inj h ▸ .tag b hb hn
  | lit b =>
    obtain ⟨hr, h⟩ := requiring_next.mp h
    simp only [Bool.and_eq_true, decide_eq_true_eq] at hr
    exact Host.Outcome.next.inj h ▸ .lit b hr.1 hr.2
  | matchL2 off len => exact matchToken_effect (l := .l2) h
  | matchL3 off len => exact matchToken_effect (l := .l3) h
  | matchL4 off len => exact matchToken_effect (l := .l4) h
  | matchL5 off len => exact matchToken_effect (l := .l5) h
  | matchL6 off len => exact matchToken_effect (l := .l6) h
  | matchL7 off len => exact matchToken_effect (l := .l7) h
  | matchL8 off len => exact matchToken_effect (l := .l8) h
  | findMatch =>
    obtain ⟨hr, h⟩ := requiring_next.mp h
    have hn := of_decide_eq_true hr
    have h := Host.Outcome.next.inj h
    by_cases hl : s.scan.bestLen < 2
    · rw [if_pos hl] at h; exact h ▸ .findLiteral hn hl
    · rw [if_neg hl] at h; exact h ▸ .findMatched hn (by omega)
  | openGroup =>
    obtain ⟨hr, h⟩ := requiring_next.mp h
    obtain ⟨hb, hn⟩ := of_decide_eq_true hr
    exact Host.Outcome.next.inj h ▸ .openGroup hb hn
  | emitLit =>
    obtain ⟨hr, h⟩ := requiring_next.mp h
    obtain ⟨hb, hk⟩ := of_decide_eq_true hr
    exact Host.Outcome.next.inj h ▸ .emitLit hb hk
  | emitMatch =>
    obtain ⟨hr, h⟩ := requiring_next.mp h
    obtain ⟨hb, hk⟩ := of_decide_eq_true hr
    exact Host.Outcome.next.inj h ▸ .emitMatch hb hk
  | copyByte =>
    obtain ⟨hr, h⟩ := requiring_next.mp h
    exact Host.Outcome.next.inj h ▸ .copyByte (of_decide_eq_true hr)
  | nextBit =>
    obtain ⟨hr, h⟩ := requiring_next.mp h
    have hb := of_decide_eq_true hr
    rcases endIteration_next h with ⟨hn, ho, rfl⟩ | ⟨hn, hz, rfl⟩ | ⟨hn, hz, rfl⟩
    · exact .complete hb hn ho
    · exact .nextGroup hb hn hz
    · exact .nextToken hb hn hz

/-- The converse: where an effect's conditions hold, the operation has it and answers a next state. -/
theorem Effect.exec_eq {i : Instr} {s t : State} (h : Effect s i t) : exec i s = .next t := by
  have start : ∀ {i m}, (i = .compress ∧ m = Mode.compress) ∨ (i = .decompress ∧ m = .decompress) →
      exec i s = startCommand m s := by rintro i m (⟨rfl, rfl⟩ | ⟨rfl, rfl⟩) <;> rfl
  have next : ∀ {u}, shiftCursor s.bit = u → s.bit ≠ 0#8 → exec .nextBit s = endIteration { s with bit := u } := by
    rintro u rfl hb
    simp [exec, execNextBit, requiring, hb]
  cases h with
  | ignored i hi hb =>
    rcases hi with rfl | rfl <;> simp [exec, execCompress, execDecompress, startCommand, hb]
  | startedEmpty i m hi hp hb ha hn =>
    rw [start hi, startCommand, if_pos ⟨hp, hb⟩, if_pos ha, if_pos hn]
    rfl
  | started i m hi hp hb ha hn =>
    rw [start hi, startCommand, if_pos ⟨hp, hb⟩, if_pos ha, if_neg (by omega)]
  | tag b hb hn => simp [exec, execTag, requiring, hb, hn]
  | lit b hb ht => simp [exec, execLit, requiring, hb, ht]
  | matchRead i off len hi hb ht hn =>
    rw [eq_ofMatch hi, exec_ofMatch]
    simp [matchToken, requiring, hb, ht, hn]
  | matchSkip i off len hi hb ht hn =>
    have hn : ¬ s.ip + 2 ≤ s.n := by omega
    rw [eq_ofMatch hi, exec_ofMatch]
    simp [matchToken, requiring, hb, ht, hn]
  | findLiteral hn hl => simp [exec, execFindMatch, requiring, hn, hl]
  | findMatched hn hl =>
    have hl : ¬ s.scan.bestLen < 2 := by omega
    simp [exec, execFindMatch, requiring, hn, hl]
  | openGroup hb hn => simp [exec, execOpenGroup, requiring, hb, hn]
  | emitLit hb hk => simp [exec, execEmitLit, requiring, hb, hk]
  | emitMatch hb hk => simp [exec, execEmitMatch, requiring, hb, hk]
  | copyByte hc => simp [exec, execCopyByte, requiring, hc]
  | complete hb hn ho => exact (next rfl hb).trans (endIteration_complete hn ho)
  | nextGroup hb hn hz => exact (next rfl hb).trans (endIteration_group hn hz)
  | nextToken hb hn hz => exact (next rfl hb).trans (endIteration_token hn hz)

/-- No operation changes the instance, the arguments, IN, the host's moves or what it read last (10_state.md R21, R24,
20_memory.md R51). -/
theorem exec_frame {i : Instr} {s t : State} (h : exec i s = .next t) :
    t.config = s.config ∧ t.inLen = s.inLen ∧ t.outLimit = s.outLimit ∧ t.inMem = s.inMem ∧ t.outEpoch = s.outEpoch ∧
      t.host = s.host ∧ t.hostData = s.hostData := by
  cases exec_effect h <;> simp

/-- The inversion of `step`: the engine's operation, an idle engine, or a host move (10_state.md R33, log 14). The state the
operation runs in is `s`, or `s` without its first host move. -/
theorem step_next {s t : State} (h : step s = .next t) :
    (∃ i u, (u = s ∨ ∃ m, s.host = m :: u.host ∧ u = { s with host := u.host }) ∧ u.fetch = some i ∧ exec i u = .next t) ∨
    (∃ u, (u = s ∨ ∃ m, s.host = m :: u.host ∧ u = { s with host := u.host }) ∧ u.fetch = none ∧ t = u) ∨
    (∃ rest v i bs, s.host = .writeReg .cmd v :: rest ∧ decode .command (.cmd v) = .ok (i, bs) ∧
      exec i { s with host := rest } = .next t) ∨
    (∃ rest v e, s.host = .writeReg .cmd v :: rest ∧ decode .command (.cmd v) = .error e ∧ t = { s with host := rest }) ∨
    (∃ m rest, s.host = m :: rest ∧ s.admits m = true ∧ m ≠ .wait ∧ (∀ v, m ≠ .writeReg .cmd v) ∧
      hostEffect m { s with host := rest } = .next t) := by
  have eng : ∀ u : State, (u = s ∨ ∃ m, s.host = m :: u.host ∧ u = { s with host := u.host }) →
      (match engineAction u with | .run i t => exec i t | .settle o => o) = .next t →
      (∃ i u, (u = s ∨ ∃ m, s.host = m :: u.host ∧ u = { s with host := u.host }) ∧ u.fetch = some i ∧ exec i u = .next t) ∨
      (∃ u, (u = s ∨ ∃ m, s.host = m :: u.host ∧ u = { s with host := u.host }) ∧ u.fetch = none ∧ t = u) := by
    intro u hu h
    unfold engineAction at h
    cases hf : u.fetch with
    | some i => rw [hf] at h; exact .inl ⟨i, u, hu, hf, h⟩
    | none => rw [hf] at h; exact .inr ⟨u, hu, hf, (Host.Outcome.next.inj h).symm⟩
  unfold step nextAction at h
  split at h
  · next i u e =>
    split at e
    · rcases eng s (.inl rfl) (by rw [e]; exact h) with h | h
      · exact .inl h
      · exact .inr (.inl h)
    · next rest hs =>
      rcases eng { s with host := rest } (.inr ⟨_, hs, rfl⟩) (by rw [e]; exact h) with h | h
      · exact .inl h
      · exact .inr (.inl h)
    · next m rest hw hs =>
      split at e
      · unfold hostAction at e
        split at e
        · next v _ =>
          split at e
          · next i' bs hd =>
            injection e with e1 e2
            subst e1 e2
            exact .inr (.inr (.inl ⟨rest, v, _, bs, hs, hd, h⟩))
          · simp at e
        · simp at e
      · rcases eng s (.inl rfl) (by rw [e]; exact h) with h | h
        · exact .inl h
        · exact .inr (.inl h)
  · next o e =>
    split at e
    · rcases eng s (.inl rfl) (by rw [e]; exact h) with h | h
      · exact .inl h
      · exact .inr (.inl h)
    · next rest hs =>
      rcases eng { s with host := rest } (.inr ⟨_, hs, rfl⟩) (by rw [e]; exact h) with h | h
      · exact .inl h
      · exact .inr (.inl h)
    · next m rest hw hs =>
      split at e
      · next ha =>
        unfold hostAction at e
        split at e
        · next v =>
          split at e
          · simp at e
          · next er hd =>
            injection e with e
            rw [← e] at h
            exact .inr (.inr (.inr (.inl ⟨rest, v, er, hs, hd, (Host.Outcome.next.inj h).symm⟩)))
        · next m' hm =>
          injection e with e
          rw [← e] at h
          refine .inr (.inr (.inr (.inr ⟨_, rest, hs, ha, ?_, hm, h⟩)))
          rintro rfl
          exact hw rfl
      · rcases eng s (.inl rfl) (by rw [e]; exact h) with h | h
        · exact .inl h
        · exact .inr (.inl h)

end Sys2Proof.Machine
end

