-- ==== Sys2Proof/Laws/Control.lean ====
section
/-! SUPPORT. The control state: what the fetch selects (43_commands_and_control.md R155, 30_encoding.md R77) and how the bit
cursor moves (10_state.md R35). -/

namespace Sys2Proof.Machine

theorem State.tagBitSet_true {s : State} : s.tagBitSet = true ↔ s.tag &&& s.bit ≠ 0#8 := by simp [State.tagBitSet]

theorem State.tagBitSet_false {s : State} : s.tagBitSet = false ↔ s.tag &&& s.bit = 0#8 := by simp [State.tagBitSet]

/-- A running engine has a next operation. -/
theorem fetch_running {s : State} {i : Instr} (h : s.fetch = some i) : s.phase ≠ .idle := by
  intro hp
  simp [State.fetch, hp] at h

/-- AWAITING_TAG: OPEN_GROUP or a TAG. -/
theorem fetch_awaiting {s : State} {i : Instr} (h : s.fetch = some i) (hp : s.phase = .awaitingTag) :
    (s.mode = .compress ∧ i = .openGroup) ∨ (s.mode = .decompress ∧ ∃ b, i = .tag b) := by
  simp only [State.fetch, hp] at h
  cases hm : s.mode <;> simp only [hm, Option.some.injEq] at h
  · exact .inl ⟨rfl, h.symm⟩
  · obtain ⟨b, hb⟩ := s.itemAt_cases .tagByte
    exact .inr ⟨rfl, b, by rw [← h, hb]⟩

/-- PROCESSING_GROUP in COMPRESS: FINDMATCH, the emission the latch asks for, NEXT_BIT. -/
theorem fetch_compress {s : State} {i : Instr} (h : s.fetch = some i) (hp : s.phase = .processingGroup)
    (hm : s.mode = .compress) :
    (s.stage = .token ∧ i = .findMatch) ∨ (s.stage = .body ∧ s.tokKind = .literal ∧ i = .emitLit) ∨
    (s.stage = .body ∧ s.tokKind = .matched ∧ i = .emitMatch) ∨ (s.stage = .advance ∧ i = .nextBit) := by
  simp only [State.fetch, hp, hm, Option.some.injEq] at h
  subst h
  cases hs : s.stage <;> cases hk : s.tokKind <;> simp [State.compressOp, hs, hk]

/-- PROCESSING_GROUP in DECOMPRESS: the LIT or MATCH the tag bit asks for, COPY_BYTE, NEXT_BIT. -/
theorem fetch_decompress {s : State} {i : Instr} (h : s.fetch = some i) (hp : s.phase = .processingGroup)
    (hm : s.mode = .decompress) :
    (s.stage = .token ∧ s.tagBitSet = true ∧ ∃ b, i = .lit b) ∨
    (s.stage = .token ∧ s.tagBitSet = false ∧ ∃ off len, i.matchFields? = some (s.split, off, len)) ∨
    (s.stage = .body ∧ i = .copyByte) ∨ (s.stage = .advance ∧ i = .nextBit) := by
  simp only [State.fetch, hp, hm, Option.some.injEq] at h
  subst h
  cases hs : s.stage
  · cases hb : s.tagBitSet
    · obtain ⟨o, l, _, h⟩ := s.itemAt_cases (.matchToken s.split)
      refine .inr (.inl ⟨rfl, rfl, o, l, ?_⟩)
      simp [State.decompressOp, hs, State.tokenPlace, hb, h]
    · obtain ⟨b, h⟩ := s.itemAt_cases .literal
      exact .inl ⟨rfl, rfl, b, by simp [State.decompressOp, hs, State.tokenPlace, hb, h]⟩
  · exact .inr (.inr (.inl ⟨rfl, by simp [State.decompressOp, hs]⟩))
  · exact .inr (.inr (.inr ⟨rfl, by simp [State.decompressOp, hs]⟩))

/-- The eight cursors with an open group. -/
theorem oneHot_cases {b : Byte} (h : oneHot b) :
    b = 1#8 ∨ b = 2#8 ∨ b = 4#8 ∨ b = 8#8 ∨ b = 16#8 ∨ b = 32#8 ∨ b = 64#8 ∨ b = 128#8 := by
  obtain ⟨g, hg, rfl⟩ := h
  have : g = 0 ∨ g = 1 ∨ g = 2 ∨ g = 3 ∨ g = 4 ∨ g = 5 ∨ g = 6 ∨ g = 7 := by omega
  rcases this with rfl | rfl | rfl | rfl | rfl | rfl | rfl | rfl <;> decide

theorem oneHot_one : oneHot 1#8 := ⟨0, by decide, by decide⟩

theorem oneHot_ne_zero {b : Byte} (h : oneHot b) : b ≠ 0#8 := by
  rcases oneHot_cases h with rfl | rfl | rfl | rfl | rfl | rfl | rfl | rfl <;> decide

/-- `(bit << 1) & 0xFF` as a number. -/
theorem shiftCursor_toNat (b : Byte) : (shiftCursor b).toNat = b.toNat * 2 % 256 := by
  simp [shiftCursor, Nat.shiftLeft_eq]

/-- The cursor stays one-hot until the eighth token. -/
theorem oneHot_shiftCursor {b : Byte} (h : oneHot b) (hz : shiftCursor b ≠ 0#8) : oneHot (shiftCursor b) := by
  rcases oneHot_cases h with rfl | rfl | rfl | rfl | rfl | rfl | rfl | rfl
  · exact ⟨1, by decide, by decide⟩
  · exact ⟨2, by decide, by decide⟩
  · exact ⟨3, by decide, by decide⟩
  · exact ⟨4, by decide, by decide⟩
  · exact ⟨5, by decide, by decide⟩
  · exact ⟨6, by decide, by decide⟩
  · exact ⟨7, by decide, by decide⟩
  · exact absurd (by decide) hz

/-- Setting the cursor's bit in a tag with no bit at or above the cursor keeps every bit above it clear. -/
theorem tag_or_lt {t b : Byte} (h : oneHot b) (ht : t.toNat < b.toNat) : (t ||| b).toNat < 2 * b.toNat := by
  rcases oneHot_cases h with rfl | rfl | rfl | rfl | rfl | rfl | rfl | rfl <;> revert t <;> decide

end Sys2Proof.Machine
end

