-- ==== Sys2Proof/Laws/PerInstr.lean ====
section
/-! SUPPORT. Statements made per instruction. EncodedWidth: an operation's encoding has as many bits as its row of
spec/opcode_table.json, and the internal operations have none (30_encoding.md R71, R82, R83). -/

namespace Sys2Proof.Laws.EncodedWidth

/-- The column `width` of spec/opcode_table.json. -/
def tableWidth : Instr → Nat
  | .compress | .decompress => 32
  | .tag _ | .lit _ => 8
  | .matchL2 _ _ | .matchL3 _ _ | .matchL4 _ _ | .matchL5 _ _ | .matchL6 _ _ | .matchL7 _ _ | .matchL8 _ _ => 16
  | .findMatch | .openGroup | .emitLit | .emitMatch | .copyByte | .nextBit => 0

/-- The encoding of `i` has the row's width; an operation of width 0 has no encoding and no place. -/
def Statement (i : Instr) : Prop :=
  (encode i).map Encoding.bits = (if tableWidth i = 0 then none else some (tableWidth i)) ∧
    (tableWidth i = 0 ↔ i.place? = none)

theorem compress : Statement .compress := ⟨rfl, by simp [tableWidth, Instr.place?]⟩
theorem decompress : Statement .decompress := ⟨rfl, by simp [tableWidth, Instr.place?]⟩
theorem tag (t : Byte) : Statement (.tag t) := ⟨rfl, by simp [tableWidth, Instr.place?]⟩
theorem lit (b : Byte) : Statement (.lit b) := ⟨rfl, by simp [tableWidth, Instr.place?]⟩
theorem matchL2 (off len : Nat) : Statement (.matchL2 off len) := ⟨rfl, by simp [tableWidth, Instr.place?]⟩
theorem matchL3 (off len : Nat) : Statement (.matchL3 off len) := ⟨rfl, by simp [tableWidth, Instr.place?]⟩
theorem matchL4 (off len : Nat) : Statement (.matchL4 off len) := ⟨rfl, by simp [tableWidth, Instr.place?]⟩
theorem matchL5 (off len : Nat) : Statement (.matchL5 off len) := ⟨rfl, by simp [tableWidth, Instr.place?]⟩
theorem matchL6 (off len : Nat) : Statement (.matchL6 off len) := ⟨rfl, by simp [tableWidth, Instr.place?]⟩
theorem matchL7 (off len : Nat) : Statement (.matchL7 off len) := ⟨rfl, by simp [tableWidth, Instr.place?]⟩
theorem matchL8 (off len : Nat) : Statement (.matchL8 off len) := ⟨rfl, by simp [tableWidth, Instr.place?]⟩
theorem findMatch : Statement .findMatch := ⟨rfl, by simp [tableWidth, Instr.place?]⟩
theorem openGroup : Statement .openGroup := ⟨rfl, by simp [tableWidth, Instr.place?]⟩
theorem emitLit : Statement .emitLit := ⟨rfl, by simp [tableWidth, Instr.place?]⟩
theorem emitMatch : Statement .emitMatch := ⟨rfl, by simp [tableWidth, Instr.place?]⟩
theorem copyByte : Statement .copyByte := ⟨rfl, by simp [tableWidth, Instr.place?]⟩
theorem nextBit : Statement .nextBit := ⟨rfl, by simp [tableWidth, Instr.place?]⟩

end Sys2Proof.Laws.EncodedWidth
end

