-- ==== Sys2Proof/Tests/Slice0.lean ====
section
/-! SUPPORT. The model's own tests: WellFormed refuses ill-formed terms, words written out from the spec decode to what they
stand for, one-step tests with results taken from spec/ (its examples, traces and vectors), and for every statement with
hypotheses a witness that meets them. -/

namespace Sys2Proof.Tests

open Sys2Proof Sys2Proof.Machine

/-! ### WellFormed (30_encoding.md R74, R78, R84; the table of R7) -/

theorem test_wf_l2_edges : (Instr.matchL2 16383 3).wf ∧ ¬ (Instr.matchL2 16384 3).wf ∧ ¬ (Instr.matchL2 16383 4).wf := by decide
theorem test_wf_l3_edges : (Instr.matchL3 8191 7).wf ∧ ¬ (Instr.matchL3 8192 7).wf ∧ ¬ (Instr.matchL3 8191 8).wf := by decide
theorem test_wf_l4_edges : (Instr.matchL4 4095 15).wf ∧ ¬ (Instr.matchL4 4096 15).wf ∧ ¬ (Instr.matchL4 4095 16).wf := by decide
theorem test_wf_l5_edges : (Instr.matchL5 2047 31).wf ∧ ¬ (Instr.matchL5 2048 31).wf ∧ ¬ (Instr.matchL5 2047 32).wf := by decide
theorem test_wf_l6_edges : (Instr.matchL6 1023 63).wf ∧ ¬ (Instr.matchL6 1024 63).wf ∧ ¬ (Instr.matchL6 1023 64).wf := by decide
theorem test_wf_l7_edges : (Instr.matchL7 511 127).wf ∧ ¬ (Instr.matchL7 512 127).wf ∧ ¬ (Instr.matchL7 511 128).wf := by decide
theorem test_wf_l8_edges : (Instr.matchL8 255 255).wf ∧ ¬ (Instr.matchL8 256 255).wf ∧ ¬ (Instr.matchL8 255 256).wf := by decide

/-- R78: the encoder produces no offset 0, no length below 2 and nothing out of range. -/
theorem test_produces_refuses : LengthBits.l5.produces 1 2 ∧ ¬ LengthBits.l5.produces 0 2 ∧ ¬ LengthBits.l5.produces 1 1 ∧
    ¬ LengthBits.l5.produces 2048 2 ∧ ¬ LengthBits.l5.produces 1 32 := by decide

/-- R84's example, and a listing for each clause it breaks: no token after a TAG; a short group that is not the last; a ninth
token; a tag bit that disagrees; offset 0; length 1; an offset beyond the bytes so far; another split; no TAG at all; an
operation that is no stream item. -/
theorem test_encoderOutput_example : encoderOutput .l5 [.tag 0x03, .lit 0x41, .lit 0x42, .matchL5 2 4] := by decide
theorem test_encoderOutput_empty_group : ¬ encoderOutput .l5 [.tag 0x00] := by decide
theorem test_encoderOutput_short_group : ¬ encoderOutput .l5 [.tag 0x01, .lit 0x41, .tag 0x01, .lit 0x42] := by decide
theorem test_encoderOutput_ninth_token : ¬ encoderOutput .l5 (.tag 0xFF :: List.replicate 9 (.lit 0x41)) := by decide
theorem test_encoderOutput_tag_bit : ¬ encoderOutput .l5 [.tag 0x00, .lit 0x41] ∧
    ¬ encoderOutput .l5 [.tag 0x03, .lit 0x41, .matchL5 1 2] := by decide
theorem test_encoderOutput_ranges : ¬ encoderOutput .l5 [.tag 0x01, .lit 0x41, .matchL5 0 2] ∧
    ¬ encoderOutput .l5 [.tag 0x01, .lit 0x41, .matchL5 1 1] ∧ ¬ encoderOutput .l5 [.tag 0x01, .lit 0x41, .matchL5 2 2] := by
  decide
theorem test_encoderOutput_other : ¬ encoderOutput .l5 [.tag 0x01, .lit 0x41, .matchL6 1 2] ∧
    ¬ encoderOutput .l5 [.lit 0x41] ∧ ¬ encoderOutput .l5 [.tag 0x01, .copyByte] := by decide

/-! ### Parameters (00_scope.md R7) -/

theorem test_window_sizes : [LengthBits.l2, .l3, .l4, .l5, .l6, .l7, .l8].map (·.windowSize) =
    [16383, 8191, 4095, 2047, 1023, 511, 255] := by decide
theorem test_max_lengths : [LengthBits.l2, .l3, .l4, .l5, .l6, .l7, .l8].map (·.maxMatch) =
    [3, 7, 15, 31, 63, 127, 255] := by decide

/-! ### Decoding, bit by bit from the formats (R72, R73, R74, R82) and the vectors V1 to V7 -/

theorem test_decode_compress : decodeTableWord 32 0b00000000000000000000000000000001 = some .compress := by decide
theorem test_decode_decompress : decodeTableWord 32 0b00000000000000000000000000000010 = some .decompress := by decide
theorem test_decode_ignored : decodeTableWord 32 0 = none ∧ decodeTableWord 32 3 = none ∧
    decodeTableWord 32 0x101 = none ∧ decodeTableWord 32 0x80000001 = none := by decide
/-- R72: bits 0, 1, 2 and 4 set: tokens 0, 1, 2 and 4 are literals (program P2). -/
theorem test_decode_tag : decodeTableWord 8 0b00010111 = some (.tag 0x17) := by decide
theorem test_decode_lit : decodeItem .literal [0b01000001, 0x42] = .ok (.lit 0x41, [0x42]) := by rfl
theorem test_decode_match_l2 : decodeItem (.matchToken .l2) [0b00000000, 0b00001011] = .ok (.matchL2 2 3, []) := by rfl
theorem test_decode_match_l3 : decodeItem (.matchToken .l3) [0b00000000, 0b00010100] = .ok (.matchL3 2 4, []) := by rfl
theorem test_decode_match_l4 : decodeItem (.matchToken .l4) [0b00000000, 0b00100100] = .ok (.matchL4 2 4, []) := by rfl
/-- R74 in the default split: offset 00000000010 in bits 15:5, length 00100 in bits 4:0. -/
theorem test_decode_match_l5 : decodeTableWord 16 0b0000000001000100 = some (.matchL5 2 4) := by decide
theorem test_decode_match_l6 : decodeItem (.matchToken .l6) [0b00000000, 0b10000100] = .ok (.matchL6 2 4, []) := by rfl
theorem test_decode_match_l7 : decodeItem (.matchToken .l7) [0b00000001, 0b00000100] = .ok (.matchL7 2 4, []) := by rfl
theorem test_decode_match_l8 : decodeItem (.matchToken .l8) [0b00000010, 0b00000100] = .ok (.matchL8 2 4, []) := by rfl
/-- V4, section 2.1: `M(520,0)` is `41 00`; `M(2047,31)` is `FF FF`. -/
theorem test_decode_match_edges : decodeTableWord 16 0x4100 = some (.matchL5 520 0) ∧
    decodeTableWord 16 0xFFFF = some (.matchL5 2047 31) ∧ decodeTableWord 16 0 = some (.matchL5 0 0) := by decide
theorem test_decode_truncated : (decodeItem (.matchToken .l5) [0x00]).toOption = none ∧
    (decodeItem .tagByte []).toOption = none ∧ (decodeItem .literal []).toOption = none := by decide
theorem test_decode_wrong_port : (decode .command (.stream [0x01])).toOption = none ∧
    (decode (.item .tagByte) (.cmd 1)).toOption = none := by decide

/-! ### Encoding (R75, R84, section 2.1) -/

theorem test_encode_match : itemBytes (.matchL5 2 4) = [0x00, 0x44] ∧ itemBytes (.matchL5 2047 2) = [0xFF, 0xE2] ∧
    itemBytes (.matchL8 255 44) = [0xFF, 0x2C] ∧ itemBytes (.matchL2 7 3) = [0x00, 0x1F] := by decide
/-- R84's example assembles to `03 41 42 00 44`, its GROUP to `03`. -/
theorem test_assemble : assemble [.tag 0x03, .lit 0x41, .lit 0x42, .matchL5 2 4] = [0x03, 0x41, 0x42, 0x00, 0x44] ∧
    groupTag [.lit 0x41, .lit 0x42, .matchL5 2 4] = 0x03 := by decide

/-! ### Small states -/

/-- One field of a next state; none for a stop. -/
def field (f : State → α) : Result → Option α
  | .next t => some (f t)
  | .fault _ => none
  | .refused _ => none

/-- The step stopped with this refusal. -/
def refusedWith (r : Refusal) : Result → Bool
  | .refused r' => decide (r = r')
  | _ => false

/-- The step stopped with this fault. -/
def faultedWith (f : Fault) : Result → Bool
  | .fault f' => decide (f = f')
  | _ => false

/-- Bytes laid out from index 0. -/
def bytes (bs : List Nat) : Memory := (List.range bs.length).zip (bs.map (BitVec.ofNat 8))

/-- `ABABAB` (program P1). -/
def ababab : Memory := bytes [0x41, 0x42, 0x41, 0x42, 0x41, 0x42]

/-- An idle engine of the default split with 16 bytes of either memory, after an earlier command of result 9, its six input
bytes `ABABAB` and a limit of 16. -/
def idle : State :=
  { State.reset with
    config := { lengthBits := .l5, inSize := 16, outSize := 16 }
    inLen := 6, outLimit := 16, result := 9, status := 2, inMem := ababab, draws := 7 }

/-- A running command before a TAG. -/
def awaiting (m : Mode) : State := { idle with mode := m, phase := .awaitingTag, status := 1 }

/-- A running command with an open group. -/
def group (m : Mode) (g : Stage) : State := { awaiting m with phase := .processingGroup, stage := g, bit := 1, op := 1 }

/-- COMPRESS of `ABABAB` at its third token (program P1, iteration 3). -/
def third (g : Stage) : State :=
  { group .compress g with ip := 2, op := 3, bit := 4, tag := 3, outMem := bytes [0x03, 0x41, 0x42] }

/-- DECOMPRESS of `01 41 00 27` at its match (program P3, command 3, iteration 2). -/
def atMatch : State :=
  { group .decompress .token with
    inMem := bytes [0x01, 0x41, 0x00, 0x27], inLen := 4, ip := 2, op := 1, bit := 2, tag := 1, outMem := bytes [0x41] }

/-- The same, in the middle of the copy. -/
def copying : State := { atMatch with stage := .body, ip := 4, val := 0x0027, mOff := 1, mLen := 7, cnt := 7 }

/-- DECOMPRESS of the one byte `01` after its TAG (42_decompressor.md R135). -/
def phantom : State :=
  { group .decompress .token with inMem := bytes [0x01], inLen := 1, ip := 1, op := 0, tag := 1 }

/-! ### One step of each operation, against the spec's traces -/

/-- R152: the registers a start sets. -/
theorem test_compress_starts : field (fun t => (t.phase, t.status, t.ip, t.op, t.bit)) (exec .compress
    { idle with ip := 5, op := 9, bit := 8 }) = some (.awaitingTag, 1, 0, 0, 0) := by decide
/-- V141: with `IN_LEN = 0` the command completes at once. -/
theorem test_compress_empty : field (fun t => (t.phase, t.status, t.result, t.outMem)) (exec .compress
    { idle with inLen := 0 }) = some (.idle, 2, 0, []) := by decide
theorem test_decompress_starts : field (fun t => (t.mode, t.phase, t.status, t.result)) (exec .decompress idle) =
    some (.decompress, .awaitingTag, 1, 9) := by decide
/-- R23: ignored while BUSY = 1. U6: refused when an argument exceeds its memory. -/
theorem test_decompress_not_started : field id (exec .decompress (awaiting .compress)) = some (awaiting .compress) ∧
    refusedWith .argumentsExceedMemory (exec .decompress { idle with inLen := 17 }) ∧
    refusedWith .argumentsExceedMemory (exec .decompress { idle with outLimit := 17 }) := by decide

/-- Program P2, iteration 1. -/
theorem test_tag : field (fun t => (t.tag, t.ip, t.bit, t.op, t.phase)) (exec (.tag 0x7F) (awaiting .decompress)) =
    some (0x7F, 1, 1, 0, .processingGroup) := by decide

/-- Program P2, iteration 1: `LIT OUT[0]=61 ip=2 op=1`. -/
theorem test_lit : field (fun t => (t.outMem, t.ip, t.op)) (exec (.lit 0x61)
    { group .decompress .token with ip := 1, op := 0, tag := 0x7F }) = some (bytes [0x61], 2, 1) := by decide
/-- Program P2 (b), iteration 9: `op ≥ limit`, nothing is copied and the cursors advance. -/
theorem test_lit_full : field (fun t => (t.outMem, t.ip, t.op)) (exec (.lit 0x58)
    { group .decompress .token with ip := 1, op := 16, tag := 0x17 }) = some ([], 2, 17) := by decide

/-- `00 44` as each split unpacks it (V1 to V7): offset, length, `ip` after. -/
theorem test_match_l2 : field (fun t => (t.mOff, t.mLen, t.cnt, t.ip, t.stage)) (exec (.matchL2 17 0)
    { group .decompress .token with config := { lengthBits := .l2, inSize := 16, outSize := 16 } }) =
    some (17, 0, 0, 2, .advance) := by decide
theorem test_match_l3 : field (fun t => (t.val, t.mOff, t.mLen, t.cnt, t.ip)) (exec (.matchL3 8 4)
    { group .decompress .token with config := { lengthBits := .l3, inSize := 16, outSize := 16 } }) =
    some (0x0044, 8, 4, 4, 2) := by decide
theorem test_match_l4 : field (fun t => (t.val, t.mOff, t.mLen, t.cnt, t.ip)) (exec (.matchL4 4 4)
    { group .decompress .token with config := { lengthBits := .l4, inSize := 16, outSize := 16 } }) =
    some (0x0044, 4, 4, 4, 2) := by decide
/-- Program P3, command 3: `MATCH val=0027 m_off=1 m_len=7 ip=4`, through a step that decodes it. -/
theorem test_match_l5 : field (fun t => (t.val, t.mOff, t.mLen, t.cnt, t.ip)) (step atMatch) =
    some (0x0027, 1, 7, 7, 4) := by decide
theorem test_match_l6 : field (fun t => (t.val, t.mOff, t.mLen, t.cnt, t.ip)) (exec (.matchL6 1 4)
    { group .decompress .token with config := { lengthBits := .l6, inSize := 16, outSize := 16 } }) =
    some (0x0044, 1, 4, 4, 2) := by decide
theorem test_match_l7 : field (fun t => (t.val, t.mOff, t.mLen, t.cnt, t.ip)) (exec (.matchL7 0 68)
    { group .decompress .token with config := { lengthBits := .l7, inSize := 16, outSize := 16 } }) =
    some (0x0044, 0, 68, 68, 2) := by decide
theorem test_match_l8 : field (fun t => (t.val, t.mOff, t.mLen, t.cnt, t.ip)) (exec (.matchL8 0 68)
    { group .decompress .token with config := { lengthBits := .l8, inSize := 16, outSize := 16 } }) =
    some (0x0044, 0, 68, 68, 2) := by decide
/-- V73: one byte is left, the token is skipped. -/
theorem test_match_tail_skip : field (fun t => (t.ip, t.op, t.outMem, t.stage)) (step
    { group .decompress .token with inMem := bytes [0x00, 0x12], inLen := 2, ip := 1, op := 0, tag := 0 }) =
    some (3, 0, [], .advance) := by decide
/-- R74: a MATCH row of another split. -/
theorem test_match_other_split : faultedWith .otherLengthBits (exec (.matchL4 1 2) atMatch) := by decide

/-- V17: `"ABxAByAB"` at 6: candidates 0 and 3 tie with 2, the oldest wins. -/
theorem test_findMatch_tie : field (fun t => (t.ws, t.ub, t.tokKind, t.tokOff, t.tokLen)) (exec .findMatch
    { group .compress .token with
      inMem := bytes [0x41, 0x42, 0x78, 0x41, 0x42, 0x79, 0x41, 0x42], inLen := 8, ip := 6 }) =
    some (0, 2, .matched, 6, 2) := by decide
/-- V12: `"AA"` at 1: a common prefix of 1 gives a literal. -/
theorem test_findMatch_literal : field (fun t => (t.ub, t.bestLen, t.tokKind, t.tokByte)) (exec .findMatch
    { group .compress .token with inMem := bytes [0x41, 0x41], inLen := 2, ip := 1 }) = some (1, 1, .literal, 0x41) := by
  decide

/-- Program P1, iteration 1: `OPEN_GROUP (tagpos=0, OUT[0]=00, op=1, bit=01)`. -/
theorem test_openGroup : field (fun t => (t.tagpos, t.outMem, t.op, t.bit, t.phase)) (exec .openGroup (awaiting .compress)) =
    some (0, bytes [0x00], 1, 1, .processingGroup) := by decide
/-- Program P3, command 1: the write is skipped and `op` advances. -/
theorem test_openGroup_full : field (fun t => (t.outMem, t.op)) (exec .openGroup { awaiting .compress with outLimit := 0 }) =
    some ([], 1) := by decide

/-- Program P1, iteration 2: `EMIT_LIT OUT[2]=42 op=3 tag=03 OUT[0]=03 ip=2`. -/
theorem test_emitLit : field (fun t => (t.outMem, t.op, t.tag, t.ip)) (exec .emitLit
    { group .compress .body with
      ip := 1, op := 2, bit := 2, tag := 1, tokKind := .literal, tokByte := 0x42, outMem := bytes [0x01, 0x41] }) =
    some (bytes [0x03, 0x41, 0x42], 3, 3, 2) := by decide
/-- V62: the tag is patched although the literal does not fit. -/
theorem test_emitLit_full : field (fun t => (t.outMem, t.op, t.tag)) (exec .emitLit
    { group .compress .body with
      ip := 1, op := 2, bit := 2, tag := 1, tokKind := .literal, tokByte := 0x42, outLimit := 1, outMem := bytes [0x01] }) =
    some (bytes [0x03], 3, 3) := by decide

/-- Program P1, iteration 3: `EMIT_MATCH value=0044 OUT[3]=00 OUT[4]=44 op=5 ip=6`. -/
theorem test_emitMatch : field (fun t => (t.outMem, t.op, t.tag, t.ip)) (exec .emitMatch
    { third .body with tokKind := .matched, tokOff := 2, tokLen := 4 }) =
    some (bytes [0x03, 0x41, 0x42, 0x00, 0x44], 5, 3, 6) := by decide
/-- V65: a match that straddles the limit leaves its high byte only. -/
theorem test_emitMatch_straddles : field (fun t => (t.outMem, t.op)) (exec .emitMatch
    { third .body with tokKind := .matched, tokOff := 2, tokLen := 4, outLimit := 4 }) =
    some (bytes [0x03, 0x41, 0x42, 0x00], 5) := by decide

/-- Program P6: `COPY_BYTE op=2: source OUT[0]=41, OUT[2]=41`. -/
theorem test_copyByte : field (fun t => (t.outMem.read 2, t.op, t.cnt, t.illRef, t.stage)) (exec .copyByte
    { copying with mOff := 2, mLen := 3, cnt := 2, op := 2, outMem := bytes [0x41, 0x99] }) =
    some (some 0x41, 3, 1, false, .body) := by decide
/-- Program P6: `COPY_BYTE op=1: m_off=2 > op=1 : ill-referenced`; some byte is written and the run is marked. -/
theorem test_copyByte_illReferenced : field (fun t => (t.outMem.length, t.outMem.read 0, t.op, t.cnt, t.illRef)) (exec .copyByte
    { copying with mOff := 2, mLen := 3, cnt := 3 }) = some (2, some 0x41, 2, 2, true) := by decide

/-- V146: from `80` the cursor is 0 and the next tag follows. -/
theorem test_nextBit_group : field (fun t => (t.bit, t.phase, t.stage)) (exec .nextBit
    { third .advance with bit := 0x80 }) = some (0, .awaitingTag, .token) := by decide
/-- V144: at `ip = n` the command completes with RESULT = 5; U4: a result that leaves 32 bits is refused. -/
theorem test_nextBit_completes : field (fun t => (t.bit, t.phase, t.status, t.result)) (exec .nextBit
    { third .advance with ip := 6, op := 5 }) = some (8, .idle, 2, 5) ∧
    refusedWith .resultOutOfDomain (exec .nextBit { third .advance with ip := 6, op := 0x100000000 }) := by decide

/-! ### The host's moves -/

/-- V140: CFG reads 5 and STATUS 0 after reset; V147: a write to CFG is ignored. -/
theorem test_reset_reads : field (·.hostData) (step { State.reset with host := [.readReg .cfg] }) = some 5 ∧
    field (·.hostData) (step { State.reset with host := [.readReg .status], hostData := 7 }) = some 0 ∧
    field (·.config) (step { idle with host := [.writeReg .cfg 8] }) = some idle.config := by decide
/-- V143: CMD writes of 0, 3 and 101 change nothing. -/
theorem test_cmd_ignored : field id (step { idle with host := [.writeReg .cmd 0] }) = some idle ∧
    field id (step { idle with host := [.writeReg .cmd 3] }) = some idle ∧
    field id (step { idle with host := [.writeReg .cmd 0x101] }) = some idle := by decide
/-- R160: a write of IN_LEN during a command waits; the engine goes on. -/
theorem test_host_waits : field (fun t => (t.inLen, t.host, t.phase)) (step
    { awaiting .compress with host := [.writeReg .inLen 3] }) = some (6, [.writeReg .inLen 3], .processingGroup) := by decide
/-- R185: reset during a command. -/
theorem test_hardReset : field (fun t => (t.phase, t.status, t.inMem, t.host)) (step { copying with host := [.reset] }) =
    some (.idle, 0, copying.inMem, []) := by decide

/-! ### The host's check: a placed word runs as the first step after reset (log 19) -/

theorem test_fetchWord_cmd : field (fun t => (t.phase, t.status, t.result, t.host)) (step (State.reset.withFetchWord 32 1)) =
    some (.idle, 2, 0, []) := by decide
theorem test_fetchWord_tag : field (fun t => (t.tag, t.ip, t.bit)) (step (State.reset.withFetchWord 8 0x17)) =
    some (0x17, 1, 1) := by decide
theorem test_fetchWord_match : field (fun t => (t.val, t.mOff, t.mLen, t.ip)) (step (State.reset.withFetchWord 16 0x0044)) =
    some (0x0044, 2, 4, 2) := by decide

/-! ### Witnesses: for every statement with hypotheses, values that meet them, one for each clause, at its boundary -/

theorem witness_DecodeInvertsEncode : ∃ (i : Instr) (e : Encoding) (p : Place) (q : ItemPlace),
    i.wf = true ∧ encode i = some e ∧ i.place? = some p ∧ p = .item q :=
  ⟨.matchL5 2047 31, _, _, _, rfl, rfl, rfl, rfl⟩
theorem witness_DecodeInvertsEncode_command : ∃ (i : Instr) (e : Encoding) (p : Place),
    i.wf = true ∧ encode i = some e ∧ i.place? = some p := ⟨.decompress, _, _, rfl, rfl, rfl⟩

theorem witness_EveryMatchValueUnpacks : 2047 ≤ LengthBits.l5.windowSize ∧ 31 ≤ LengthBits.l5.maxMatch := by decide
theorem witness_ProducedMatchPacks : ∃ (l : LengthBits) (off len : Nat),
    1 ≤ off ∧ off ≤ l.windowSize ∧ 2 ≤ len ∧ len ≤ l.maxMatch := ⟨.l2, 16383, 3, by decide⟩
theorem witness_CommandCodes : ∃ w : Word, w ≠ 1#32 ∧ w ≠ 2#32 := ⟨0, by decide⟩
theorem witness_StreamSizeOfAListing : ∃ items, encoderOutput .l5 items = true ∧ items.length = 12 :=
  ⟨.tag 0x7F :: List.replicate 7 (.lit 0x41) ++ [.matchL5 7 2, .tag 0x01, .lit 0x41, .matchL5 10 31], by decide⟩

theorem witness_HardwareReset : ∃ s rest, State.host s = .reset :: rest ∧ s.busy = true :=
  ⟨{ copying with host := [.reset] }, [], by decide⟩
theorem witness_HardwareReset_idle : ∃ s rest, State.host s = .reset :: rest ∧ s.busy = false :=
  ⟨{ idle with host := [.reset] }, [], by decide⟩

/-! The clauses of StepRunsTheSelectedOperation, in their order. -/

theorem witness_Step_idle : idle.host = [] ∧ idle.phase = .idle := by decide
theorem witness_Step_openGroup : ∃ s : State, s.host = [] ∧ s.phase = .awaitingTag ∧ s.mode = .compress :=
  ⟨awaiting .compress, by decide⟩
theorem witness_Step_tag : ∃ s : State, s.host = [] ∧ s.phase = .awaitingTag ∧ s.mode = .decompress ∧ s.ip + 1 = s.n :=
  ⟨{ awaiting .decompress with ip := 5 }, by decide⟩
theorem witness_Step_compress : ∃ s : State, s.host = [] ∧ s.phase = .processingGroup ∧ s.mode = .compress ∧ s.stage = .token :=
  ⟨third .token, by decide⟩
theorem witness_Step_emitLit : ∃ s : State, s.host = [] ∧ s.phase = .processingGroup ∧ s.mode = .compress ∧ s.stage = .body ∧
    s.tokKind = .literal := ⟨{ third .body with tokKind := .literal }, by decide⟩
theorem witness_Step_emitMatch : ∃ s : State, s.host = [] ∧ s.phase = .processingGroup ∧ s.mode = .compress ∧ s.stage = .body ∧
    s.tokKind = .matched := ⟨{ third .body with tokKind := .matched }, by decide⟩
theorem witness_Step_nextBit_compress : ∃ s : State, s.host = [] ∧ s.phase = .processingGroup ∧ s.mode = .compress ∧
    s.stage = .advance := ⟨third .advance, by decide⟩
theorem witness_Step_lit : ∃ s : State, s.host = [] ∧ s.phase = .processingGroup ∧ s.mode = .decompress ∧ s.stage = .token ∧
    s.tag &&& s.bit ≠ 0#8 ∧ s.ip + 1 = s.n := ⟨{ group .decompress .token with tag := 1, ip := 5 }, by decide⟩
theorem witness_Step_match : ∃ s : State, s.host = [] ∧ s.phase = .processingGroup ∧ s.mode = .decompress ∧ s.stage = .token ∧
    s.tag &&& s.bit = 0#8 ∧ s.ip + 2 = s.n := ⟨atMatch, by decide⟩
theorem witness_Step_skip : ∃ s : State, s.host = [] ∧ s.phase = .processingGroup ∧ s.mode = .decompress ∧ s.stage = .token ∧
    s.tag &&& s.bit = 0#8 ∧ s.ip + 1 = s.n := ⟨{ atMatch with ip := 3 }, by decide⟩
theorem witness_Step_phantom : ∃ s : State, s.host = [] ∧ s.phase = .processingGroup ∧ s.mode = .decompress ∧
    s.stage = .token ∧ s.tag &&& s.bit ≠ 0#8 ∧ s.ip = s.n := ⟨phantom, by decide⟩
theorem witness_Step_copyByte : ∃ s : State, s.host = [] ∧ s.phase = .processingGroup ∧ s.mode = .decompress ∧
    s.stage = .body := ⟨copying, by decide⟩
theorem witness_Step_nextBit_decompress : ∃ s : State, s.host = [] ∧ s.phase = .processingGroup ∧ s.mode = .decompress ∧
    s.stage = .advance := ⟨{ copying with stage := .advance }, by decide⟩

theorem witness_HostMove_command : ∃ (s : State) (m : HostMove) (rest : List HostMove) (v : Word) (i : Instr) (bs : List Byte),
    s.host = m :: rest ∧ m = .writeReg .cmd v ∧ decode .command (.cmd v) = .ok (i, bs) :=
  ⟨{ idle with host := [.writeReg .cmd 2] }, _, _, 2, _, _, rfl, rfl, rfl⟩
theorem witness_HostMove_wait : ∃ (s : State) (m : HostMove) (rest : List HostMove) (i : Instr),
    s.host = m :: rest ∧ m = .wait ∧ { s with host := rest }.fetch = some i :=
  ⟨{ awaiting .compress with host := [.wait] }, _, _, _, rfl, rfl, rfl⟩
theorem witness_HostMove_held : ∃ (s : State) (m : HostMove) (rest : List HostMove) (i : Instr),
    s.host = m :: rest ∧ s.admits m = false ∧ s.fetch = some i :=
  ⟨{ awaiting .compress with host := [.readReg .result] }, _, _, _, rfl, rfl, rfl⟩

theorem witness_Cfg_write : ∃ (s : State) (v : Word) (rest : List HostMove), s.host = .writeReg .cfg v :: rest ∧ s.busy = true :=
  ⟨{ copying with host := [.writeReg .cfg 8] }, _, _, rfl, by decide⟩
theorem witness_Cfg_read : ∃ (s : State) (rest : List HostMove), s.host = .readReg .cfg :: rest ∧ s.busy = true :=
  ⟨{ copying with host := [.readReg .cfg] }, _, rfl, by decide⟩

theorem witness_Cmd_compress : ∃ (s : State) (rest : List HostMove), s.phase = .idle ∧ s.busy = false ∧
    s.host = .writeReg .cmd 1#32 :: rest := ⟨{ idle with host := [.writeReg .cmd 1] }, [], by decide⟩
theorem witness_Cmd_decompress : ∃ (s : State) (rest : List HostMove), s.phase = .idle ∧ s.busy = false ∧
    s.host = .writeReg .cmd 2#32 :: rest := ⟨{ idle with host := [.writeReg .cmd 2] }, [], by decide⟩
theorem witness_Cmd_other : ∃ (s : State) (v : Word) (rest : List HostMove), v ≠ 1#32 ∧ v ≠ 2#32 ∧
    s.host = .writeReg .cmd v :: rest := ⟨{ idle with host := [.writeReg .cmd 3] }, 3, [], by decide⟩
theorem witness_Cmd_busy : ∃ (s : State) (v : Word) (rest : List HostMove), s.busy = true ∧
    s.host = .writeReg .cmd v :: rest := ⟨{ copying with host := [.writeReg .cmd 1] }, 1, [], by decide⟩
theorem witness_Cmd_read : ∃ (s : State) (rest : List HostMove), s.busy = true ∧ s.host = .readReg .cmd :: rest :=
  ⟨{ copying with host := [.readReg .cmd] }, [], by decide⟩

theorem witness_Arguments_inLen : ∃ (s : State) (v : Word) (rest : List HostMove), s.busy = false ∧
    s.host = .writeReg .inLen v :: rest := ⟨{ idle with host := [.writeReg .inLen 0xFFFFFFFF] }, 0xFFFFFFFF, [], by decide⟩
theorem witness_Arguments_outLimit : ∃ (s : State) (v : Word) (rest : List HostMove), s.busy = false ∧
    s.host = .writeReg .outLimit v :: rest := ⟨{ idle with host := [.writeReg .outLimit 0] }, 0, [], by decide⟩
theorem witness_Arguments_held : ∃ (s t : State) (r : HostReg) (v : Word) (rest : List HostMove), s.busy = true ∧
    (r = .inLen ∨ r = .outLimit) ∧ s.host = .writeReg r v :: rest ∧ step s = .next t :=
  ⟨{ copying with host := [.writeReg .inLen 0] }, _, .inLen, 0, [], rfl, .inl rfl, rfl, rfl⟩
theorem witness_Arguments_exec : ∃ (i : Instr) (s t : State), exec i s = .next t := ⟨.copyByte, copying, _, rfl⟩
theorem witness_Arguments_busyStep : ∃ s t : State, step s = .next t ∧ (∀ rest, s.host ≠ .reset :: rest) ∧ s.busy = true ∧
    s.host = [.writeReg .outLimit 0] :=
  ⟨{ copying with host := [.writeReg .outLimit 0] }, _, rfl, (by simp), by decide, rfl⟩
theorem witness_Arguments_idleStep : ∃ s t : State, step s = .next t ∧ (∀ rest, s.host ≠ .reset :: rest) ∧ s.busy = false ∧
    (∀ v rest, s.host ≠ .writeReg .inLen v :: rest) ∧ s.host = [.writeReg .outLimit 0] :=
  ⟨{ idle with host := [.writeReg .outLimit 0] }, _, rfl, (by simp), by decide, (by simp), rfl⟩
theorem witness_Arguments_idleStep_outLimit : ∃ s t : State, step s = .next t ∧ (∀ rest, s.host ≠ .reset :: rest) ∧
    s.busy = false ∧ (∀ v rest, s.host ≠ .writeReg .outLimit v :: rest) ∧ s.host = [.writeReg .inLen 0] :=
  ⟨{ idle with host := [.writeReg .inLen 0] }, _, rfl, (by simp), by decide, (by simp), rfl⟩

theorem witness_ReadOnly_result : ∃ (s : State) (v : Word) (rest : List HostMove), s.host = .writeReg .result v :: rest ∧
    s.busy = false ∧ v ≠ s.result := ⟨{ idle with host := [.writeReg .result 0] }, 0, [], by decide⟩
theorem witness_ReadOnly_status : ∃ (s : State) (v : Word) (rest : List HostMove), s.host = .writeReg .status v :: rest ∧
    s.busy = true ∧ v ≠ s.status := ⟨{ copying with host := [.writeReg .status 2] }, 2, [], by decide⟩

theorem witness_RegisterReads_status : ∃ (s : State) (rest : List HostMove), s.host = .readReg .status :: rest ∧
    s.busy = true := ⟨{ copying with host := [.readReg .status] }, [], by decide⟩
theorem witness_RegisterReads_inLen : ∃ (s : State) (rest : List HostMove), s.busy = false ∧
    s.host = .readReg .inLen :: rest := ⟨{ idle with host := [.readReg .inLen] }, [], by decide⟩
theorem witness_RegisterReads_outLimit : ∃ (s : State) (rest : List HostMove), s.busy = false ∧
    s.host = .readReg .outLimit :: rest := ⟨{ idle with host := [.readReg .outLimit] }, [], by decide⟩
theorem witness_RegisterReads_result : ∃ (s : State) (rest : List HostMove), s.busy = false ∧
    s.host = .readReg .result :: rest := ⟨{ idle with host := [.readReg .result] }, [], by decide⟩

/-! The memories have 16 bytes: index 15 is the last, 16 does not exist. -/

theorem witness_HostAccess_writeIn : ∃ s : State, s.busy = false ∧ s.host = [.writeIn 15 1] ∧ 15 < s.config.inSize.toNat :=
  ⟨{ idle with host := [.writeIn 15 1] }, by decide⟩
theorem witness_HostAccess_writeOut : ∃ s : State, s.busy = false ∧ s.host = [.writeOut 15 1] ∧ 15 < s.config.outSize.toNat :=
  ⟨{ idle with host := [.writeOut 15 1] }, by decide⟩
theorem witness_HostAccess_readOut : ∃ s : State, s.busy = false ∧ s.host = [.readOut 15] ∧ 15 < s.config.outSize.toNat :=
  ⟨{ idle with host := [.readOut 15] }, by decide⟩
theorem witness_HostAccess_writeIn_out : ∃ s : State, s.busy = false ∧ s.host = [.writeIn 16 1] ∧ s.config.inSize.toNat ≤ 16 :=
  ⟨{ idle with host := [.writeIn 16 1] }, by decide⟩
theorem witness_HostAccess_writeOut_out : ∃ s : State, s.busy = false ∧ s.host = [.writeOut 16 1] ∧
    s.config.outSize.toNat ≤ 16 := ⟨{ idle with host := [.writeOut 16 1] }, by decide⟩
theorem witness_HostAccess_readOut_out : ∃ s : State, s.busy = false ∧ s.host = [.readOut 16] ∧ s.config.outSize.toNat ≤ 16 :=
  ⟨{ idle with host := [.readOut 16] }, by decide⟩

theorem witness_HandsOff : ∃ (s t : State) (m : HostMove) (rest : List HostMove), s.busy = true ∧ s.host = m :: rest ∧
    (∃ a v, m = .writeIn a v ∨ m = .writeOut a v ∨ m = .readOut a ∨ m = .readReg .result) ∧ step s = .next t :=
  ⟨{ copying with host := [.writeOut 1 0x55] }, _, _, _, rfl, rfl, ⟨1, 0x55, .inr (.inl rfl)⟩, rfl⟩

theorem witness_CommandStart : idle.phase = .idle ∧ idle.busy = false ∧ idle.n ≤ idle.config.inSize.toNat ∧
    idle.limit = idle.config.outSize.toNat ∧ 0 < idle.n := by decide
theorem witness_CommandStart_empty : ∃ s : State, s.phase = .idle ∧ s.busy = false ∧ s.n ≤ s.config.inSize.toNat ∧
    s.limit ≤ s.config.outSize.toNat ∧ s.n = 0 := ⟨{ idle with inLen := 0 }, by decide⟩
theorem witness_Refused_input : ∃ s : State, isCommand .compress ∧ s.phase = .idle ∧ s.busy = false ∧
    s.config.inSize.toNat < s.n ∧ s.limit ≤ s.config.outSize.toNat := ⟨{ idle with inLen := 17 }, by decide⟩
theorem witness_Refused_limit : ∃ s : State, isCommand .decompress ∧ s.phase = .idle ∧ s.busy = false ∧
    s.n ≤ s.config.inSize.toNat ∧ s.config.outSize.toNat < s.limit := ⟨{ idle with outLimit := 17 }, by decide⟩
theorem witness_Ignored : isCommand .decompress ∧ copying.busy = true := by decide

theorem witness_NextBit_completes : ∃ s : State, s.bit ≠ 0#8 ∧ s.n = s.ip ∧ s.op < 2 ^ 32 :=
  ⟨{ third .advance with ip := 6, op := 0xFFFFFFFF }, by decide⟩
theorem witness_NextBit_refused : ∃ s : State, s.bit ≠ 0#8 ∧ s.n = s.ip ∧ 2 ^ 32 = s.op :=
  ⟨{ third .advance with ip := 6, op := 0x100000000 }, by decide⟩
theorem witness_NextBit_group : ∃ s : State, s.bit ≠ 0#8 ∧ s.ip + 1 = s.n ∧ s.bit = 0x80#8 :=
  ⟨{ third .advance with ip := 5, bit := 0x80 }, by decide⟩
theorem witness_NextBit_token : ∃ s : State, s.bit ≠ 0#8 ∧ s.ip + 1 = s.n ∧ s.bit = 0x40#8 :=
  ⟨{ third .advance with ip := 5, bit := 0x40 }, by decide⟩
theorem witness_Result_written : ∃ (s t : State), exec .nextBit s = .next t ∧ t.result ≠ s.result ∧ t.status ≠ s.status :=
  ⟨{ third .advance with ip := 6, op := 5 }, _, rfl, by decide, by decide⟩

theorem witness_FindMatch : (third .token).ip < (third .token).n ∧ 0 < (third .token).ip := by decide
theorem witness_FindMatch_start : (group .compress .token).ip = 0 ∧ (group .compress .token).ip < (group .compress .token).n := by
  decide
theorem witness_FindMatch_literal : field (·.bestLen) (exec .findMatch (group .compress .token)) = some 0 := by decide
theorem witness_FindMatch_matched : field (fun t => (t.bestLen, t.tokKind)) (exec .findMatch (third .token)) =
    some (4, .matched) := by decide

theorem witness_OpenGroup : (awaiting .compress).bit = 0#8 ∧ (awaiting .compress).ip < (awaiting .compress).n := by decide
theorem witness_EmitLit : ∃ s : State, s.bit ≠ 0#8 ∧ s.tokKind = .literal ∧ s.op + 1 = s.limit :=
  ⟨{ third .body with tokKind := .literal, outLimit := 4 }, by decide⟩
theorem witness_EmitMatch : ∃ s : State, s.bit ≠ 0#8 ∧ s.tokKind = .matched ∧ s.op + 1 = s.limit :=
  ⟨{ third .body with tokKind := .matched, outLimit := 4 }, by decide⟩

theorem witness_Tag : (awaiting .decompress).bit = 0#8 ∧ (awaiting .decompress).ip < (awaiting .decompress).n := by decide
theorem witness_Lit : phantom.bit ≠ 0#8 ∧ phantom.tag &&& phantom.bit ≠ 0#8 := by decide
theorem witness_Match : ∃ (i : Instr) (l : LengthBits) (off len : Nat), i.matchFields? = some (l, off, len) ∧ i.wf = true ∧
    atMatch.config.lengthBits = l ∧ atMatch.bit ≠ 0#8 ∧ atMatch.tag &&& atMatch.bit = 0#8 ∧ atMatch.ip + 2 = atMatch.n :=
  ⟨.matchL5 2047 0, .l5, 2047, 0, by decide⟩
theorem witness_TailSkip : ∃ (i : Instr) (l : LengthBits) (off len : Nat) (s : State),
    i.matchFields? = some (l, off, len) ∧ s.config.lengthBits = l ∧ s.bit ≠ 0#8 ∧ s.tag &&& s.bit = 0#8 ∧ s.ip + 1 = s.n :=
  ⟨.matchL5 0 0, .l5, 0, 0, { atMatch with ip := 3 }, by decide⟩
theorem witness_CopyByte : ∃ s : State, 0 < s.cnt ∧ s.op + 1 = s.limit ∧ 1 ≤ s.mOff ∧ s.mOff = s.op :=
  ⟨{ copying with outLimit := 2 }, by decide⟩
theorem witness_CopyByte_full : ∃ s : State, 0 < s.cnt ∧ s.limit = s.op := ⟨{ copying with outLimit := 1 }, by decide⟩
theorem witness_CopyByte_ill : ∃ s : State, 0 < s.cnt ∧ s.op < s.limit ∧ s.op + 1 = s.mOff :=
  ⟨{ copying with mOff := 2 }, by decide⟩
theorem witness_CopyByte_ill_zero : ∃ s : State, 0 < s.cnt ∧ s.op < s.limit ∧ s.mOff = 0 :=
  ⟨{ copying with mOff := 0 }, by decide⟩
theorem witness_CopyLoop : copying.host = [] ∧ copying.phase = .processingGroup ∧ copying.mode = .decompress ∧
    copying.stage = .body ∧ 0 < copying.cnt := by decide
theorem witness_Overlapping : ∃ o l : Nat, atMatch.host = [] ∧ atMatch.phase = .processingGroup ∧
    atMatch.mode = .decompress ∧ atMatch.stage = .token ∧ atMatch.bit ≠ 0#8 ∧ atMatch.tag &&& atMatch.bit = 0#8 ∧
    atMatch.ip + 2 ≤ atMatch.n ∧
    decodeItem (.matchToken atMatch.split) [atMatch.inByte atMatch.ip, atMatch.inByte (atMatch.ip + 1)] =
      .ok (Instr.ofMatch atMatch.split o l, []) ∧
    1 ≤ o ∧ o ≤ atMatch.op ∧ atMatch.op + l ≤ atMatch.limit :=
  ⟨1, 7, by decide, by decide, by decide, by decide, by decide, by decide, by decide, rfl, by decide, by decide, by decide⟩

/-! The clauses of OutsideRequiresTheModelStops, in their order. -/

theorem witness_Outside_findMatch : ∃ s : State, s.n = s.ip := ⟨{ third .token with ip := 6 }, by decide⟩
theorem witness_Outside_opening : ∃ s : State, s.bit ≠ 0#8 ∧ s.ip < s.n := ⟨third .token, by decide⟩
theorem witness_Outside_opening_end : ∃ s : State, s.bit = 0#8 ∧ s.n = s.ip := ⟨{ awaiting .compress with ip := 6 }, by decide⟩
theorem witness_Outside_emitLit : ∃ s : State, s.bit ≠ 0#8 ∧ s.tokKind = .matched := ⟨third .body, by decide⟩
theorem witness_Outside_emitMatch : ∃ s : State, s.bit ≠ 0#8 ∧ s.tokKind = .literal :=
  ⟨{ third .body with tokKind := .literal }, by decide⟩
theorem witness_Outside_noGroup : ∃ s : State, s.bit = 0#8 ∧ s.tag &&& s.bit = 0#8 := ⟨awaiting .decompress, by decide⟩
theorem witness_Outside_lit : ∃ s : State, s.bit ≠ 0#8 ∧ s.tag &&& s.bit = 0#8 := ⟨atMatch, by decide⟩
theorem witness_Outside_match : ∃ (i : Instr) (l : LengthBits) (off len : Nat), i.matchFields? = some (l, off, len) ∧
    phantom.config.lengthBits = l ∧ phantom.tag &&& phantom.bit ≠ 0#8 := ⟨.matchL5 1 2, .l5, 1, 2, by decide⟩
theorem witness_Outside_split : ∃ (i : Instr) (l : LengthBits) (off len : Nat), i.matchFields? = some (l, off, len) ∧
    atMatch.config.lengthBits ≠ l := ⟨.matchL6 1 2, .l6, 1, 2, by decide⟩
theorem witness_Outside_copyByte : ∃ s : State, s.cnt = 0 := ⟨{ copying with cnt := 0 }, by decide⟩

theorem witness_Writes : ∃ (i : Instr) (s t : State) (a : Nat), exec i s = .next t ∧ s.limit = a ∧ s.op = a :=
  ⟨.copyByte, { copying with outLimit := 1 }, _, 1, rfl, by decide, by decide⟩
theorem witness_Reads : ∃ s u t : State, s.host = [] ∧ s.SameBelowLength u ∧ s.inMem ≠ u.inMem ∧ step s = .next t :=
  ⟨{ atMatch with stage := .advance }, { atMatch with stage := .advance, inMem := bytes [0x01, 0x41, 0x00, 0x27, 0x99] }, _,
    by decide, ⟨rfl, by decide⟩, by decide, rfl⟩

/-! ### Invariants: a state inside each command, and the edges -/

theorem witness_Inv_idle : idle.Inv ∧ idle.Fits :=
  ⟨⟨by decide, by decide, by decide, by decide, by decide, fun h => absurd h (by decide), by decide⟩, by decide⟩
theorem witness_Inv_compress : (third .token).Inv ∧ (third .token).Fits :=
  ⟨⟨by decide, by decide, by decide, by decide, by decide, fun _ => ⟨by decide, by decide, by decide⟩, by decide⟩, by decide⟩
theorem witness_Inv_compress_body : { third .body with tokKind := .matched, tokOff := 2, tokLen := 4 }.Inv :=
  ⟨by decide, by decide, by decide, by decide, by decide, fun _ => ⟨by decide, by decide, by decide⟩, by decide⟩
theorem witness_Inv_decompress : copying.Inv ∧ copying.Fits :=
  ⟨⟨by decide, by decide, by decide, by decide, by decide, fun _ => ⟨by decide, by decide, by decide⟩, by decide⟩, by decide⟩
theorem witness_EveryStepKeepsTheInvariant : ∃ s t : State, s.Inv ∧ s.Fits ∧ step s = .next t :=
  ⟨copying, _, witness_Inv_decompress.1, witness_Inv_decompress.2, rfl⟩
theorem witness_EveryStepKeepsTheInvariant_host : ∃ s t : State, s.Inv ∧ s.Fits ∧ step s = .next t ∧ s.host ≠ [] :=
  ⟨{ copying with host := [.reset] }, _, witness_Inv_decompress.1, witness_Inv_decompress.2, rfl, by decide⟩
theorem witness_NoEngineStepStops : copying.Inv ∧ copying.host = [] := ⟨witness_Inv_decompress.1, rfl⟩
theorem witness_PhantomLiteral : phantom.Inv ∧ phantom.host = [] ∧ phantom.phase = .processingGroup ∧
    phantom.mode = .decompress ∧ phantom.stage = .token ∧ phantom.tagBitSet = true ∧ phantom.n ≤ phantom.ip ∧
    phantom.op + 1 < 2 ^ 32 :=
  ⟨⟨by decide, by decide, by decide, by decide, by decide, fun _ => ⟨by decide, by decide, by decide⟩, by decide⟩, by decide⟩

/-! ### Whole commands -/

/-- Prepared states: one in domain, one whose worst-case bound exceeds 32 bits (R27). -/
def longest : State :=
  { idle with config := { lengthBits := .l8, inSize := 0xFFFFFFFF, outSize := 16 }, inLen := 0xFFFFFFFF }
theorem witness_CommandCompletes : idle.Ready ∧ idle.n + (idle.n + 7) / 8 < 2 ^ 32 ∧
    idle.split.maxMatch * idle.n / 2 < 2 ^ 32 := by decide
theorem witness_CommandCompletes_longest : longest.Ready ∧ 2 ^ 32 ≤ longest.n + (longest.n + 7) / 8 ∧
    2 ^ 32 ≤ longest.split.maxMatch * longest.n / 2 := by decide
theorem witness_SizingRun : ∃ (u t : State), isCommand .decompress ∧ idle.Ready ∧ u.Ready ∧ idle.SameButOut u ∧
    u.limit = 0 ∧ runCommand .decompress 3 idle = .next t :=
  ⟨{ idle with outLimit := 0, outMem := bytes [0xEE] }, _, by decide, by decide, by decide, rfl, by decide, rfl⟩
theorem witness_Truncated : ∃ (s t : State), isCommand .compress ∧ s.Ready ∧ idle.Ready ∧
    idle = { s with outLimit := idle.outLimit } ∧ s.limit ≤ idle.limit ∧ s.limit = 4 ∧ runCommand .compress 3 s = .next t :=
  ⟨{ idle with outLimit := 4 }, _, by decide, by decide, by decide, rfl, by decide, by decide, rfl⟩
theorem witness_KeepOther : ∃ t : State, isCommand .compress ∧ idle.Ready ∧ runCommand .compress 3 idle = .next t ∧ t.op = 2 :=
  ⟨_, by decide, by decide, rfl, by decide⟩
theorem witness_EarlierRegisters : ∃ (u t : State), isCommand .compress ∧ idle.Ready ∧ u.Ready ∧ idle.SameCommandInputs u ∧
    u.ip = 99 ∧ runCommand .compress 3 idle = .next t :=
  ⟨{ idle with ip := 99, bit := 0x40, tokKind := .literal, result := 1 }, _, by decide, by decide, by decide, by decide,
    by decide, rfl⟩
/-- R122's hypothesis: `"ABC"` has no pair of bytes that occurs twice. -/
theorem witness_LiteralOnly : ∃ s : State, s.Ready ∧ s.n + (s.n + 7) / 8 < 2 ^ 32 ∧ s.n = 3 ∧
    ∀ p c, p + 2 ≤ s.n → p - s.split.windowSize ≤ c → c < p →
      ¬ (s.inByte c = s.inByte p ∧ s.inByte (c + 1) = s.inByte (p + 1)) := by
  refine ⟨{ idle with inLen := 3, inMem := bytes [0x41, 0x42, 0x43] }, by decide, by decide, by decide, ?_⟩
  intro p c hp _ hc
  have hp : p ≤ 1 := by
    have : p + 2 ≤ 3 := hp
    omega
  obtain ⟨rfl, rfl⟩ : p = 1 ∧ c = 0 := by omega
  decide
theorem witness_CompressWrites_room : ∃ s : State, s.Ready ∧ s.n + (s.n + 7) / 8 = s.limit ∧ 0 < s.n :=
  ⟨{ idle with outLimit := 7 }, by decide⟩
/-- The input `"AAAA"`, tokens `L(A) M(1,3)` (R84, R97, R98), with a limit that just fits its stream `01 41 00 23` and is below
the worst case 5: the filling run of R161. -/
def four : State := { idle with inLen := 4, inMem := bytes [0x41, 0x41, 0x41, 0x41], outLimit := 4 }
/-- The state that COMPRESS of `four` completes in, and a DECOMPRESS whose input is its stream. -/
theorem witness_RoundTrip_exactFit : ∃ (k : Nat) (t u : State), four.Ready ∧ four.limit < four.n + (four.n + 7) / 8 ∧
    runCommand .compress k four = .next t ∧ t.Completed ∧ t.result.toNat = four.limit ∧ u.Ready ∧ u.split = four.split ∧
    u.inLen = t.result ∧ ∀ a, a < 4 → u.inByte a = t.outByte a :=
  ⟨7, _, { idle with inLen := 4, inMem := bytes [0x01, 0x41, 0x00, 0x23] }, by decide, by decide, rfl, by decide, by decide,
    by decide, by decide, by decide, by decide⟩

end Sys2Proof.Tests
end

section
/-! Rules that the proofs about the state share: where the control state selects an operation, what the scan leaves, what a
CMD word decodes to, and what a step is, by the host's next move (43_commands_and_control.md R155, R160). -/

namespace Sys2Proof.Machine

/-! ### What the control state selects -/

/-- The control state in which the engine runs an operation (43_commands_and_control.md R155); it never selects a host
command. -/
def State.Selects (s : State) : Instr → Prop
  | .compress | .decompress => False
  | .openGroup => s.phase = .awaitingTag ∧ s.mode = .compress
  | .tag _ => s.phase = .awaitingTag ∧ s.mode = .decompress
  | .findMatch => s.phase = .processingGroup ∧ s.mode = .compress ∧ s.stage = .token
  | .emitLit | .emitMatch => s.phase = .processingGroup ∧ s.mode = .compress ∧ s.stage = .body
  | .lit _ | .matchL2 _ _ | .matchL3 _ _ | .matchL4 _ _ | .matchL5 _ _ | .matchL6 _ _ | .matchL7 _ _ | .matchL8 _ _ =>
    s.phase = .processingGroup ∧ s.mode = .decompress ∧ s.stage = .token
  | .copyByte => s.phase = .processingGroup ∧ s.mode = .decompress ∧ s.stage = .body
  | .nextBit => s.phase = .processingGroup ∧ s.stage = .advance

/-- A MATCH row is selected at a token of DECOMPRESS. -/
theorem State.selects_match {s : State} {i : Instr} {f : LengthBits × Nat × Nat} (h : i.matchFields? = some f) :
    s.Selects i ↔ s.phase = .processingGroup ∧ s.mode = .decompress ∧ s.stage = .token := by
  rw [eq_ofMatch (l := f.1) (off := f.2.1) (len := f.2.2) h]
  cases f.1 <;> rfl

theorem State.not_selects_command {s : State} {i : Instr} (h : isCommand i) : ¬ s.Selects i := by
  rcases h with rfl | rfl <;> exact id

/-- The fetch runs an operation only in the control state that selects it. -/
theorem fetch_selects {s : State} {i : Instr} (h : s.fetch = some i) : s.Selects i := by
  cases hp : s.phase with
  | idle => exact absurd hp (fetch_running h)
  | awaitingTag =>
    rcases fetch_awaiting h hp with ⟨hm, rfl⟩ | ⟨hm, b, rfl⟩ <;> exact ⟨hp, hm⟩
  | processingGroup =>
    cases hm : s.mode with
    | compress =>
      rcases fetch_compress h hp hm with ⟨hs, rfl⟩ | ⟨hs, -, rfl⟩ | ⟨hs, -, rfl⟩ | ⟨hs, rfl⟩
      · exact ⟨hp, hm, hs⟩
      · exact ⟨hp, hm, hs⟩
      · exact ⟨hp, hm, hs⟩
      · exact ⟨hp, hs⟩
    | decompress =>
      rcases fetch_decompress h hp hm with ⟨hs, -, b, rfl⟩ | ⟨hs, -, off, len, hi⟩ | ⟨hs, rfl⟩ | ⟨hs, rfl⟩
      · exact ⟨hp, hm, hs⟩
      · exact (State.selects_match hi).mpr ⟨hp, hm, hs⟩
      · exact ⟨hp, hm, hs⟩
      · exact ⟨hp, hs⟩

/-! ### The scan -/

/-- The best length lies within the bound (40_match_finder.md R92, R94). -/
theorem State.scan_bestLen_le (s : State) : s.scan.bestLen ≤ s.lengthBound := by
  rcases s.scan_best with ⟨h, -⟩ | ⟨-, -, h, -⟩
  · omega
  · exact h ▸ commonPrefix_le ..

/-- A best length that is not 0 is the agreement of a candidate (40_match_finder.md R94, R95). -/
theorem State.scan_agrees {s : State} (h : 0 < s.scan.bestLen) :
    s.candidate s.scan.bestStart ∧ s.agrees s.scan.bestStart s.scan.bestLen := by
  rcases s.scan_best with ⟨h0, -⟩ | ⟨-, hc, hl, -⟩
  · omega
  · exact ⟨hc, fun j hj => commonPrefix_agrees _ _ _ _ j (hl ▸ hj)⟩

/-! ### STATUS -/

@[simp] theorem statusRunning_getLsbD_zero : statusRunning.getLsbD 0 = true := by decide

/-- BUSY tells whether a command runs (10_state.md R26). -/
theorem State.StatusAgrees.busy_iff {s : State} (h : s.StatusAgrees) : s.busy = true ↔ s.phase ≠ .idle := by
  obtain ⟨hidle, hrun⟩ := h
  constructor
  · rintro hb hp
    rcases hidle hp with hs | hs <;> simp [State.busy, hs, statusComplete] at hb
  · intro hp
    simp [State.busy, hrun hp]

/-! ### CMD words (30_encoding.md R82) -/

theorem decode_command_ignored {v : Word} (h1 : v ≠ 1#32) (h2 : v ≠ 2#32) :
    decode .command (.cmd v) = .error .ignoredCommand := by
  simp [decode, decodeCommand, h1, h2, Except.map]

theorem isCommand_of_decode {v : Word} {i : Instr} {bs : List Byte} (h : decode .command (.cmd v) = .ok (i, bs)) :
    isCommand i := by
  by_cases h1 : v = 1#32
  · subst h1
    cases h
    exact .inl rfl
  · by_cases h2 : v = 2#32
    · subst h2
      cases h
      exact .inr rfl
    · simp [decode_command_ignored h1 h2] at h

/-- A command is the start of its mode. -/
theorem exec_command {i : Instr} (hi : isCommand i) : ∃ m, ∀ s, exec i s = startCommand m s := by
  rcases hi with rfl | rfl
  · exact ⟨.compress, fun _ => rfl⟩
  · exact ⟨.decompress, fun _ => rfl⟩

/-! ### The host's moves -/

theorem atIndex_next {size : Word} {a : Nat} {t u : State} (h : atIndex size a t = .next u) : u = t := by
  simp only [atIndex] at h
  split at h
  · exact (Host.Outcome.next.inj h).symm
  · cases h

/-- A move that may land, and starts no command, is the step (log 14). -/
theorem step_of_hostEffect {s : State} {m : HostMove} {rest : List HostMove} (h : s.host = m :: rest)
    (ha : s.admits m = true) (hw : m ≠ .wait) (hc : ∀ v, m ≠ .writeReg .cmd v) :
    step s = hostEffect m { s with host := rest } := by
  cases m with
  | wait => exact absurd rfl hw
  | writeReg r v =>
    cases r with
    | cmd => exact absurd rfl (hc v)
    | _ => simp [step, nextAction, h, ha, hostAction]
  | _ => simp [step, nextAction, h, ha, hostAction]

/-- A CMD write that decodes is the step of the command it holds. -/
theorem step_of_command {s : State} {v : Word} {i : Instr} {bs : List Byte} {rest : List HostMove}
    (h : s.host = .writeReg .cmd v :: rest) (hd : decode .command (.cmd v) = .ok (i, bs)) :
    step s = exec i { s with host := rest } := by
  simp [step, nextAction, h, State.admits, hostAction, hd]

/-- Any other CMD write is used up (10_state.md R23). -/
theorem step_of_ignoredCommand {s : State} {v : Word} {e : DecodeError} {rest : List HostMove}
    (h : s.host = .writeReg .cmd v :: rest) (hd : decode .command (.cmd v) = .error e) :
    step s = .next { s with host := rest } := by
  simp [step, nextAction, h, State.admits, hostAction, hd]

/-- A move that is held back leaves the step to the engine (U5, log 14). -/
theorem step_of_held {s t : State} {m : HostMove} {rest : List HostMove} (h : s.host = m :: rest)
    (ha : s.admits m = false) (he : step s = .next t) : t = s ∨ ∃ i, s.fetch = some i ∧ exec i s = .next t := by
  have hw : m ≠ .wait := by
    rintro rfl
    cases ha
  have hn : nextAction s = engineAction s := by simp [nextAction, h, ha]
  rw [step, hn, engineAction] at he
  cases hf : s.fetch with
  | none => exact .inl (Host.Outcome.next.inj (hf ▸ he)).symm
  | some i => exact .inr ⟨i, rfl, by simpa [hf] using he⟩

/-- The state in which the engine takes its turn is `s`, but for the host's moves. -/
theorem turn_eq {s u : State} (h : u = s ∨ ∃ m, s.host = m :: u.host ∧ u = { s with host := u.host }) :
    u = { s with host := u.host } := by
  rcases h with rfl | ⟨m, -, hu⟩
  · rfl
  · exact hu

/-- What holds of a state whatever moves its host has left, and is kept by the engine's operation, by a command and by
every other move that the host may make, is kept by a step. -/
theorem step_keeps {P : State → Prop} (hhost : ∀ {s rest}, P s → P { s with host := rest })
    (hengine : ∀ {i s t}, P s → s.fetch = some i → exec i s = .next t → P t)
    (hcommand : ∀ {i s t}, P s → isCommand i → exec i s = .next t → P t)
    (heffect : ∀ {m s t}, P s → s.admits m = true → hostEffect m s = .next t → P t)
    {s t : State} (h : P s) (he : step s = .next t) : P t := by
  rcases step_next he with ⟨i, u, hu, hf, he⟩ | ⟨u, hu, -, rfl⟩ | ⟨rest, v, i, bs, -, hd, he⟩ |
    ⟨rest, v, e, -, -, rfl⟩ | ⟨m, rest, -, ha, -, -, he⟩
  · exact hengine (turn_eq hu ▸ hhost h) hf he
  · exact turn_eq hu ▸ hhost h
  · exact hcommand (hhost h) (isCommand_of_decode hd) he
  · exact hhost h
  · exact heffect (s := { s with host := rest }) (hhost h) ha he

end Sys2Proof.Machine
end

section
/-! The invariant of the control state and the working registers (10_state.md R26, R40, R41): its parts by phase, and what
each operation does to them. -/

namespace Sys2Proof.Machine

/-! ### The parts of the invariant -/

/-- What the invariant says of a running command whatever its phase: canonical memories, BUSY = 1, arguments within the
memories. -/
structure State.Running (s : State) : Prop where
  inMem_wf : s.inMem.wf
  outMem_wf : s.outMem.wf
  status : s.status = statusRunning
  args : s.n ≤ s.config.inSize.toNat ∧ s.limit ≤ s.config.outSize.toNat

theorem State.inv_idle {s : State} (hin : s.inMem.wf) (hout : s.outMem.wf) (hp : s.phase = .idle)
    (hs : s.status = 0#32 ∨ s.status = statusComplete) : s.Inv := by
  have hn : ¬ s.phase ≠ .idle := not_not_intro hp
  exact ⟨hin, hout, ⟨fun _ => hs, fun h => absurd h hn⟩, fun h => absurd h hn, fun h => by simp [hp] at h,
    fun h => by simp [hp] at h, fun h => absurd h hn⟩

theorem State.Running.inv_awaiting {s : State} (h : s.Running) (hp : s.phase = .awaitingTag)
    (ha : s.bit = 0#8 ∧ s.ip < s.n ∧ s.stage = .token) (hw : s.mode = .decompress → s.OutWritten) : s.Inv :=
  ⟨h.inMem_wf, h.outMem_wf, ⟨fun e => by simp [hp] at e, fun _ => h.status⟩, fun _ => h.args, fun _ => ha,
    fun e => by simp [hp] at e, fun _ => hw⟩

theorem State.Running.inv_group {s : State} (h : s.Running) (hp : s.phase = .processingGroup) (hb : oneHot s.bit)
    (hc : s.mode = .compress → s.CompressGood)
    (hd : s.mode = .decompress → s.DecompressGood ∧ s.OutWritten) : s.Inv :=
  ⟨h.inMem_wf, h.outMem_wf, ⟨fun e => by simp [hp] at e, fun _ => h.status⟩, fun _ => h.args,
    fun e => by simp [hp] at e, fun _ => ⟨hb, hc, fun hm => (hd hm).1⟩, fun _ hm => (hd hm).2⟩

theorem State.Running.inv_compress {s : State} (h : s.Running) (hp : s.phase = .processingGroup) (hm : s.mode = .compress)
    (hb : oneHot s.bit) (hg : s.CompressGood) : s.Inv :=
  h.inv_group hp hb (fun _ => hg) (fun e => by simp [hm] at e)

theorem State.Running.inv_decompress {s : State} (h : s.Running) (hp : s.phase = .processingGroup)
    (hm : s.mode = .decompress) (hb : oneHot s.bit) (hg : s.DecompressGood) (hw : s.OutWritten) : s.Inv :=
  h.inv_group hp hb (fun e => by simp [hm] at e) (fun _ => ⟨hg, hw⟩)

theorem State.Inv.statusAgrees {s : State} (h : s.Inv) : s.StatusAgrees := h.2.2.1

theorem State.Inv.running {s : State} (h : s.Inv) (hp : s.phase ≠ .idle) : s.Running := by
  obtain ⟨hin, hout, hst, hargs, -⟩ := h
  exact ⟨hin, hout, hst.2 hp, hargs hp⟩

theorem State.Inv.awaiting {s : State} (h : s.Inv) (hp : s.phase = .awaitingTag) :
    s.bit = 0#8 ∧ s.ip < s.n ∧ s.stage = .token ∧ (s.mode = .decompress → s.OutWritten) := by
  obtain ⟨-, -, -, -, ha, -, hw⟩ := h
  obtain ⟨hb, hip, hs⟩ := ha hp
  exact ⟨hb, hip, hs, hw (by simp [hp])⟩

theorem State.Inv.group {s : State} (h : s.Inv) (hp : s.phase = .processingGroup) :
    oneHot s.bit ∧ (s.mode = .compress → s.CompressGood) ∧
      (s.mode = .decompress → s.DecompressGood ∧ s.OutWritten) := by
  obtain ⟨-, -, -, -, -, hg, hw⟩ := h
  obtain ⟨hb, hc, hd⟩ := hg hp
  exact ⟨hb, hc, fun hm => ⟨hd hm, hw (by simp [hp]) hm⟩⟩

/-! ### A running command keeps what holds of every phase -/

theorem exec_outMem_wf {i : Instr} {s t : State} (h : s.outMem.wf) (he : exec i s = .next t) : t.outMem.wf := by
  cases exec_effect he with
  | lit b hb ht =>
    dsimp only
    split
    · exact Memory.wf_write h _ _
    · exact h
  | openGroup hb hn => exact State.gwrite_wf h _ _
  | emitLit hb hk => exact State.gwrite_wf (State.gwrite_wf h _ _) _ _
  | emitMatch hb hk => exact State.gwrite_wf (State.gwrite_wf h _ _) _ _
  | copyByte hc => exact State.gwrite_wf h _ _
  | _ => exact h

/-- While BUSY = 1, an operation that does not leave the engine idle leaves STATUS alone. -/
theorem exec_status {i : Instr} {s t : State} (h : s.status = statusRunning) (he : exec i s = .next t)
    (hp : t.phase ≠ .idle) : t.status = statusRunning := by
  cases exec_effect he with
  | startedEmpty i m hi => exact absurd rfl hp
  | started i m hi => rfl
  | complete hb hn ho => exact absurd rfl hp
  | _ => exact h

theorem exec_running {i : Instr} {s t : State} (h : s.Running) (he : exec i s = .next t) (hp : t.phase ≠ .idle) :
    t.Running := by
  obtain ⟨hc, hn, hl, hin, -⟩ := exec_frame he
  refine ⟨hin ▸ h.inMem_wf, exec_outMem_wf h.outMem_wf he, exec_status h.status he hp, ?_⟩
  rw [State.n, State.limit, hc, hn, hl]
  exact h.args

/-! ### COMPRESS with an open group (R40) -/

theorem openGroup_compressGood {s : State} (hn : s.ip < s.n) :
    State.CompressGood { s.gwrite s.op 0#8 with
      tagpos := s.op, tag := 0#8, op := s.op + 1, bit := 1#8, phase := .processingGroup, stage := .token } := by
  refine ⟨Nat.lt_succ_self _, fun hl => ?_, fun _ => ⟨hn, (by decide : 0 < 1)⟩, by simp, by simp⟩
  rw [State.gwrite_read]
  exact if_pos ⟨rfl, hl⟩

/-- FINDMATCH's Match is a latch as R99 asks. -/
theorem findMatched_latchGood {s : State} (hn : s.ip < s.n) (hl : 2 ≤ s.scan.bestLen) :
    State.LatchGood { s.withScan s.scan with
      tokKind := .matched, tokOff := s.ip - s.scan.bestStart, tokLen := s.scan.bestLen, stage := .body } := by
  obtain ⟨⟨hw, hc⟩, ha⟩ := State.scan_agrees (s := s) (by omega)
  have hle := s.scan_bestLen_le
  have hM : s.lengthBound ≤ s.split.maxMatch := Nat.min_le_left _ _
  have hR : s.lengthBound ≤ s.n - s.ip := Nat.min_le_right _ _
  have hstart : s.ip - (s.ip - s.scan.bestStart) = s.scan.bestStart := by omega
  refine ⟨by simp, fun _ => ⟨?_, ?_, ?_, hl, Nat.le_trans hle hM, ?_, ?_⟩⟩
  · show 1 ≤ s.ip - s.scan.bestStart
    omega
  · exact Nat.sub_le _ _
  · show s.ip - s.scan.bestStart ≤ s.split.windowSize
    omega
  · show s.ip + s.scan.bestLen ≤ s.n
    omega
  · show s.agrees (s.ip - (s.ip - s.scan.bestStart)) s.scan.bestLen
    rw [hstart]
    exact ha

/-- FINDMATCH leaves the open group as it was: with a good latch the token's body may follow. -/
theorem findMatch_compressGood {s : State} {kind : TokenKind} {byte : Byte} {off len : Nat} (h : s.CompressGood)
    (hs : s.stage = .token)
    (hl : State.LatchGood { s.withScan s.scan with
      tokKind := kind, tokByte := byte, tokOff := off, tokLen := len, stage := .body }) :
    State.CompressGood { s.withScan s.scan with
      tokKind := kind, tokByte := byte, tokOff := off, tokLen := len, stage := .body } := by
  obtain ⟨hpos, hread, htoken, -, -⟩ := h
  obtain ⟨hip, htag⟩ := htoken hs
  exact ⟨hpos, hread, by simp, fun _ => ⟨hip, htag, hl⟩, by simp⟩

theorem emitLit_compressGood {s : State} (h : s.CompressGood) (hb : oneHot s.bit) (hs : s.stage = .body) :
    State.CompressGood { (s.gwrite s.op s.tokByte).gwrite s.tagpos s.tagWithBit with
      op := s.op + 1, tag := s.tagWithBit, ip := s.ip + 1, stage := .advance } := by
  obtain ⟨hpos, -, -, hbody, -⟩ := h
  obtain ⟨hip, htag, -⟩ := hbody hs
  dsimp only [State.CompressGood, State.n, State.limit]
  refine ⟨Nat.lt_succ_of_lt hpos, fun hl => ?_, by simp, by simp, fun _ => ⟨hip, tag_or_lt hb htag⟩⟩
  rw [State.gwrite_read]
  exact if_pos ⟨rfl, hl⟩

theorem emitMatch_compressGood {s : State} (h : s.CompressGood) (hs : s.stage = .body) (hk : s.tokKind = .matched)
    (v w : Byte) :
    State.CompressGood { (s.gwrite s.op v).gwrite (s.op + 1) w with
      op := s.op + 2, ip := s.ip + s.tokLen, stage := .advance } := by
  obtain ⟨hpos, hread, -, hbody, -⟩ := h
  obtain ⟨-, htag, -, hmatch⟩ := hbody hs
  obtain ⟨-, -, -, -, -, hend, -⟩ := hmatch hk
  dsimp only [State.CompressGood, State.n, State.limit]
  refine ⟨Nat.lt_add_right 2 hpos, fun hl => ?_, by simp, by simp, fun _ => ⟨hend, ?_⟩⟩
  · rw [State.gwrite_read, State.gwrite_read, if_neg (fun e => Nat.ne_of_lt (Nat.lt_succ_of_lt hpos) e.1),
      if_neg (fun e => Nat.ne_of_lt hpos e.1)]
    exact hread hl
  · show s.tag.toNat < 2 * s.bit.toNat
    omega

/-- Inside a group NEXT_BIT doubles the cursor (43_commands_and_control.md R154). -/
theorem shiftCursor_double {b : Byte} (h : oneHot b) (hz : shiftCursor b ≠ 0#8) :
    (shiftCursor b).toNat = 2 * b.toNat := by
  rcases oneHot_cases h with rfl | rfl | rfl | rfl | rfl | rfl | rfl | rfl <;> revert hz <;> decide

theorem nextToken_compressGood {s : State} (h : s.CompressGood) (hb : oneHot s.bit) (hs : s.stage = .advance)
    (hn : s.ip < s.n) (hz : shiftCursor s.bit ≠ 0#8) :
    State.CompressGood { s with bit := shiftCursor s.bit, stage := .token, phase := .processingGroup } := by
  obtain ⟨hpos, hread, -, -, hadv⟩ := h
  have hdouble : (shiftCursor s.bit).toNat = 2 * s.bit.toNat := shiftCursor_double hb hz
  exact ⟨hpos, hread, fun _ => ⟨hn, hdouble ▸ (hadv hs).2⟩, by simp, by simp⟩

/-! ### DECOMPRESS with an open group (R41) -/

theorem tag_decompressGood {s : State} (b : Byte) (hn : s.ip < s.n) :
    State.DecompressGood { s with
      tag := b, ip := s.ip + 1, bit := 1#8, phase := .processingGroup, stage := .token } :=
  ⟨fun _ => ⟨hn, fun _ => rfl⟩, by simp, by simp⟩

theorem nextToken_decompressGood {s : State} (hn : s.ip < s.n) :
    State.DecompressGood { s with bit := shiftCursor s.bit, stage := .token, phase := .processingGroup } :=
  ⟨fun _ => ⟨Nat.le_of_lt hn, fun e => absurd e (Nat.ne_of_lt hn)⟩, by simp, by simp⟩

/-- A state about to advance, with `ip` at most 2 past the end, is a good one. -/
theorem State.decompressGood_advance {s : State} (hs : s.stage = .advance) (hip : s.ip ≤ s.n + 2) : s.DecompressGood :=
  ⟨by simp [hs], by simp [hs], fun _ => hip⟩

/-- MATCH with its two bytes present: the copy is under way, or over at once for length 0. -/
theorem matchRead_decompressGood {s : State} (v : Half) (off len : Nat) (hn : s.ip + 2 ≤ s.n) :
    State.DecompressGood { s with
      val := v, ip := s.ip + 2, mLen := len, mOff := off, cnt := len,
      stage := if len = 0 then .advance else .body } := by
  refine ⟨fun h => ?_, fun h => ⟨hn, ?_, Nat.le_refl _⟩, fun _ => Nat.le_add_right_of_le hn⟩
  · dsimp only at h
    split at h <;> cases h
  · refine Nat.pos_of_ne_zero fun (h0 : len = 0) => ?_
    dsimp only at h
    rw [if_pos h0] at h
    cases h

theorem copyByte_decompressGood {s : State} (h : s.DecompressGood) (hs : s.stage = .body) :
    State.DecompressGood { s.copyWrite with
      op := s.op + 1, cnt := s.cnt - 1, stage := if s.cnt = 1 then .advance else .body } := by
  obtain ⟨-, hbody, -⟩ := h
  obtain ⟨hip, hpos, hle⟩ := hbody hs
  dsimp only [State.DecompressGood, State.n]
  refine ⟨fun h => ?_, fun h => ⟨hip, ?_, Nat.le_trans (Nat.sub_le _ _) hle⟩, fun _ => Nat.le_add_right_of_le hip⟩
  · split at h <;> cases h
  · refine Nat.sub_pos_of_lt (Nat.lt_of_le_of_ne hpos fun h1 => ?_)
    rw [if_pos h1.symm] at h
    cases h

/-- OUT stays written where neither OUT, `op` nor the limit changes and `ip` does not go back. -/
theorem State.OutWritten.mono {s t : State} (h : s.OutWritten) (hm : t.outMem = s.outMem) (ho : t.op = s.op)
    (hl : t.outLimit = s.outLimit) (hn : t.inLen = s.inLen) (hip : s.ip ≤ t.ip) : t.OutWritten := by
  intro hle a ha hlim
  rw [State.n, hn] at hle
  rw [State.limit, hl] at hlim
  rw [hm]
  exact h (Nat.le_trans hip hle) a (ho ▸ ha) hlim

/-- One more byte written at `op`, unless the limit forbids it, keeps OUT written below `op + 1`. -/
theorem State.OutWritten.write {s : State} (h : s.OutWritten) (hip : s.ip ≤ s.n) {a : Nat} (v : Byte)
    (ha : a < s.op + 1) (hl : a < s.limit) : (s.gwrite s.op v).outMem.read a ≠ none := by
  rw [State.gwrite_read]
  split
  · simp
  · exact h hip a (by omega) hl

theorem lit_outWritten {s : State} (h : s.OutWritten) (b : Byte) :
    State.OutWritten { s with
      outMem := if s.ip < s.n ∧ s.op < s.limit then s.outMem.write s.op b else s.outMem
      ip := s.ip + 1, op := s.op + 1, stage := .advance } := by
  intro hle a ha hl
  have hip : s.ip < s.n := hle
  have := h.write (Nat.le_of_lt hip) b ha hl
  simpa [hip] using this

theorem copyByte_outWritten {s : State} (h : s.OutWritten) (c : Nat) (g : Stage) :
    State.OutWritten { s.copyWrite with op := s.op + 1, cnt := c, stage := g } := by
  dsimp only [State.OutWritten, State.n, State.limit]
  exact fun hip _ ha hl => h.write hip s.copiedByte ha hl

end Sys2Proof.Machine
end

section
/-! The invariant over a step (10_state.md R26, R40, R41). -/

namespace Sys2Proof.Machine

/-- The engine's operation keeps the invariant. -/
theorem engine_inv {i : Instr} {s t : State} (h : s.Inv) (hf : s.fetch = some i) (he : exec i s = .next t) : t.Inv := by
  have hsel := fetch_selects hf
  have hr := exec_running (h.running (fetch_running hf)) he
  cases exec_effect he with
  | ignored i hi => exact h
  | startedEmpty i m hi hp | started i m hi hp => exact absurd hp (fetch_running hf)
  | openGroup hb hn =>
    obtain ⟨hp, hm⟩ := hsel
    exact (hr (by simp)).inv_compress rfl hm oneHot_one (openGroup_compressGood hn)
  | findLiteral hn hl =>
    obtain ⟨hp, hm, hs⟩ := hsel
    obtain ⟨hb, hc, -⟩ := h.group hp
    exact (hr (by simp [hp])).inv_compress hp hm hb (findMatch_compressGood (hc hm) hs ⟨fun _ => rfl, by simp⟩)
  | findMatched hn hl =>
    obtain ⟨hp, hm, hs⟩ := hsel
    obtain ⟨hb, hc, -⟩ := h.group hp
    exact (hr (by simp [hp])).inv_compress hp hm hb (findMatch_compressGood (hc hm) hs (findMatched_latchGood hn hl))
  | emitLit hb hk =>
    obtain ⟨hp, hm, hs⟩ := hsel
    obtain ⟨hb, hc, -⟩ := h.group hp
    exact (hr (by simp [hp])).inv_compress hp hm hb (emitLit_compressGood (hc hm) hb hs)
  | emitMatch hb hk =>
    obtain ⟨hp, hm, hs⟩ := hsel
    obtain ⟨hb, hc, -⟩ := h.group hp
    exact (hr (by simp [hp])).inv_compress hp hm hb (emitMatch_compressGood (hc hm) hs hk _ _)
  | tag b hb hn =>
    obtain ⟨hp, hm⟩ := hsel
    obtain ⟨-, -, -, hw⟩ := h.awaiting hp
    exact (hr (by simp)).inv_decompress rfl hm oneHot_one (tag_decompressGood b hn)
      ((hw hm).mono rfl rfl rfl rfl (Nat.le_succ _))
  | lit b hb ht =>
    obtain ⟨hp, hm, hs⟩ := hsel
    obtain ⟨hb, -, hd⟩ := h.group hp
    obtain ⟨⟨htoken, -⟩, hw⟩ := hd hm
    exact (hr (by simp [hp])).inv_decompress hp hm hb
      (State.decompressGood_advance rfl (Nat.succ_le_succ (Nat.le_succ_of_le (htoken hs).1))) (lit_outWritten hw b)
  | matchRead i off len hi hb ht hn =>
    obtain ⟨hp, hm, hs⟩ := (State.selects_match hi).mp hsel
    obtain ⟨hb, -, hd⟩ := h.group hp
    exact (hr (by simp [hp])).inv_decompress hp hm hb (matchRead_decompressGood _ _ _ hn)
      ((hd hm).2.mono rfl rfl rfl rfl (Nat.le_add_right _ _))
  | matchSkip i off len hi hb ht hn =>
    obtain ⟨hp, hm, hs⟩ := (State.selects_match hi).mp hsel
    obtain ⟨hb, -, hd⟩ := h.group hp
    obtain ⟨⟨htoken, -⟩, hw⟩ := hd hm
    exact (hr (by simp [hp])).inv_decompress hp hm hb
      (State.decompressGood_advance rfl (Nat.add_le_add_right (htoken hs).1 2))
      (hw.mono rfl rfl rfl rfl (Nat.le_add_right _ _))
  | copyByte hc =>
    obtain ⟨hp, hm, hs⟩ := hsel
    obtain ⟨hb, -, hd⟩ := h.group hp
    obtain ⟨hg, hw⟩ := hd hm
    exact (hr (by simp [hp])).inv_decompress hp hm hb (copyByte_decompressGood hg hs) (copyByte_outWritten hw _ _)
  | complete hb hn ho =>
    obtain ⟨hin, hout, -⟩ := h
    exact State.inv_idle hin hout rfl (.inr rfl)
  | nextGroup hb hn hz =>
    obtain ⟨hp, hs⟩ := hsel
    obtain ⟨-, -, hd⟩ := h.group hp
    exact (hr (by simp)).inv_awaiting rfl ⟨hz, hn, rfl⟩ (fun hm => (hd hm).2.mono rfl rfl rfl rfl (Nat.le_refl _))
  | nextToken hb hn hz =>
    obtain ⟨hp, hs⟩ := hsel
    obtain ⟨hb, hc, hd⟩ := h.group hp
    exact (hr (by simp)).inv_group rfl (oneHot_shiftCursor hb hz)
      (fun hm => nextToken_compressGood (hc hm) hb hs hn hz)
      (fun hm => ⟨nextToken_decompressGood hn, (hd hm).2.mono rfl rfl rfl rfl (Nat.le_refl _)⟩)

/-- A host command, started or ignored, keeps the invariant. -/
theorem command_inv {i : Instr} {s t : State} (h : s.Inv) (hi : isCommand i) (he : exec i s = .next t) : t.Inv := by
  obtain ⟨m, hm⟩ := exec_command hi
  have ⟨hin, hout, _⟩ := h
  rcases startCommand_next ((hm s).symm.trans he) with ⟨-, rfl⟩ | ⟨hp, hb, hn, hl, ⟨-, rfl⟩ | ⟨h0, rfl⟩⟩
  · exact h
  · exact State.inv_idle hin hout rfl (.inr rfl)
  · have hrun : (s.started m).Running := ⟨hin, hout, rfl, hn, hl⟩
    exact hrun.inv_awaiting rfl ⟨rfl, h0, rfl⟩ (fun _ _ a ha => absurd ha (Nat.not_lt_zero a))

/-- A move that the host may make only while BUSY = 0 finds the engine idle. -/
theorem State.Inv.idle_of_not_busy {s : State} (h : s.Inv) (hb : s.busy = false) : s.phase = .idle := by
  refine Decidable.byContradiction fun hp => ?_
  rw [h.statusAgrees.busy_iff.mpr hp] at hb
  cases hb

/-- A move of the host that starts no command keeps the invariant. -/
theorem hostEffect_inv {m : HostMove} {s t : State} (h : s.Inv) (ha : s.admits m = true) (he : hostEffect m s = .next t) :
    t.Inv := by
  have ⟨hin, hout, _⟩ := h
  cases m with
  | writeReg r v =>
    obtain rfl := Host.Outcome.next.inj he
    cases r with
    | inLen | outLimit =>
      have hp := h.idle_of_not_busy (by simpa [State.admits] using ha)
      exact State.inv_idle hin hout hp (h.statusAgrees.1 hp)
    | cfg | cmd | result | status => exact h
  | readReg r =>
    obtain rfl := Host.Outcome.next.inj he
    exact h
  | writeIn a v =>
    obtain rfl := atIndex_next he
    have hp := h.idle_of_not_busy (by simpa [State.admits] using ha)
    exact State.inv_idle (Memory.wf_write hin a v) hout hp (h.statusAgrees.1 hp)
  | writeOut a v =>
    obtain rfl := atIndex_next he
    have hp := h.idle_of_not_busy (by simpa [State.admits] using ha)
    exact State.inv_idle hin (Memory.wf_write hout a v) hp (h.statusAgrees.1 hp)
  | readOut a =>
    obtain rfl := atIndex_next he
    exact h
  | reset =>
    obtain rfl := Host.Outcome.next.inj he
    refine State.inv_idle hin ?_ rfl (.inl rfl)
    rw [State.hardReset_outMem]
    split
    · exact Memory.wf_nil
    · exact hout
  | wait =>
    obtain rfl := Host.Outcome.next.inj he
    exact h

/-- Settles O40: the engine's operation, a command and every other move of the host keep the invariant. -/
theorem everyStepKeepsTheInvariant : Obligations.EveryStepKeepsTheInvariant :=
  fun _ _ h he => step_keeps (P := State.Inv) (fun h => h) engine_inv command_inv hostEffect_inv h he

end Sys2Proof.Machine
end

section
/-! The invariant at reset and what it says of STATUS; the widths of the working registers (10_state.md R26 to R32,
R37). -/

namespace Sys2Proof.Machine

/-- Settles O42: STATUS is one of 0, 1 and 2, the second exactly while a command runs. -/
theorem statusTellsThePhase : Obligations.StatusTellsThePhase := by
  intro s h
  have hst := h.statusAgrees
  refine ⟨hst.busy_iff, ?_⟩
  by_cases hp : s.phase = .idle
  · rcases hst.1 hp with hs | hs <;> simp [State.busy, State.done, hs, statusComplete]
  · simp [State.busy, State.done, hst.2 hp, statusRunning]

/-- Settles O39: after reset the engine is idle, and every register that has a width is 0. -/
theorem invariantAtReset : Obligations.InvariantAtReset :=
  ⟨State.inv_idle Memory.wf_nil Memory.wf_nil rfl (.inl rfl), by decide⟩

/-! ### The widths -/

theorem lt_of_le_windowSize {l : LengthBits} {x : Nat} (h : x ≤ l.windowSize) : x < 2 ^ l.offsetBits :=
  l.windowSize_add_one ▸ Nat.lt_succ_of_le h

theorem lt_of_le_maxMatch {l : LengthBits} {x : Nat} (h : x ≤ l.maxMatch) : x < 2 ^ l.toNat :=
  l.maxMatch_add_one ▸ Nat.lt_succ_of_le h

theorem State.n_lt (s : State) : s.n < 2 ^ 32 := s.inLen.isLt

/-- While a command runs, `ip` is at most 2 past the end of the input (10_state.md R41, 42_decompressor.md R146). -/
theorem State.Inv.ip_le {s : State} (h : s.Inv) (hp : s.phase ≠ .idle) : s.ip ≤ s.n + 2 := by
  cases hph : s.phase with
  | idle => exact absurd hph hp
  | awaitingTag =>
    obtain ⟨-, hip, -⟩ := h.awaiting hph
    omega
  | processingGroup =>
    obtain ⟨-, hc, hd⟩ := h.group hph
    cases hm : s.mode with
    | compress =>
      obtain ⟨-, -, htoken, hbody, hadv⟩ := hc hm
      cases hs : s.stage with
      | token => exact Nat.le_add_right_of_le (Nat.le_of_lt (htoken hs).1)
      | body => exact Nat.le_add_right_of_le (Nat.le_of_lt (hbody hs).1)
      | advance => exact Nat.le_add_right_of_le (hadv hs).1
    | decompress =>
      obtain ⟨⟨htoken, hbody, hadv⟩, -⟩ := hd hm
      cases hs : s.stage with
      | token => exact Nat.le_add_right_of_le (htoken hs).1
      | body => exact Nat.le_add_right_of_le (hbody hs).1
      | advance => exact hadv hs

/-- The finder's registers keep to their widths: positions below 2^32, lengths at most `M`, at most 255. -/
theorem State.Fits.withScan {s : State} (h : s.Fits) (hn : s.ip < s.n) : (s.withScan s.scan).Fits := by
  have hlt := s.n_lt
  have hM : s.lengthBound ≤ s.split.maxMatch := Nat.min_le_left _ _
  have hM' := s.split.maxMatch_bounds.2
  have hbest := s.scan_bestLen_le
  obtain ⟨hip, -, hcand, hstart, -, hk, -, hrest⟩ := h
  have hlast : s.scan.cand < 2 ^ 32 ∧ s.scan.k < 2 ^ 8 := by
    rcases scanFrom_last s.inByte s.ip s.lengthBound (s.ip - s.windowStart) s.windowStart
      { cand := s.cand, k := s.k, bestLen := 0, bestStart := s.bestStart } with ⟨-, he⟩ | ⟨hpos, hc, hk⟩
    · rw [State.scan, he]
      exact ⟨hcand, hk⟩
    · have hle := commonPrefix_le s.inByte (s.windowStart + (s.ip - s.windowStart) - 1) s.ip s.lengthBound
      rw [State.scan, hc, hk]
      omega
  have hstart' : s.scan.bestStart < 2 ^ 32 := by
    rcases s.scan_best with ⟨-, he, -⟩ | ⟨-, ⟨-, hlt'⟩, -⟩
    · exact he ▸ hstart
    · omega
  have hws : s.windowStart ≤ s.ip := Nat.sub_le _ _
  have hws' : s.windowStart < 2 ^ 32 := by omega
  have hub : s.lengthBound < 2 ^ 8 := by omega
  exact ⟨hip, hws', hlast.1, hstart', hub, hlast.2, Nat.lt_of_le_of_lt hbest hub, hrest⟩

/-- `ip` keeps to 33 bits: while the command runs the invariant bounds it, and a completion leaves it alone. -/
theorem engine_ip_lt {i : Instr} {s t : State} (hs : s.ip < 2 ^ 33) (hp : s.phase ≠ .idle) (h : t.Inv)
    (he : exec i s = .next t) : t.ip < 2 ^ 33 := by
  by_cases ht : t.phase = .idle
  · cases exec_effect he with
    | ignored | complete => exact hs
    | startedEmpty i m hi hs => exact absurd hs hp
    | _ => simp [hp] at ht
  · have := h.ip_le ht
    have := t.n_lt
    omega

theorem State.Fits.gwrite {s : State} (h : s.Fits) (a : Nat) (v : Byte) : (s.gwrite a v).Fits := h

theorem State.Fits.copyWrite {s : State} (h : s.Fits) : s.copyWrite.Fits := h

/-- An operation keeps every width but that of `ip`: FINDMATCH the finder's and the latch's, MATCH and COPY_BYTE the
copy's, and the others write none of these registers. -/
theorem exec_fits {i : Instr} {s t : State} (h : s.Fits) (hip : t.ip < 2 ^ 33) (he : exec i s = .next t) : t.Fits := by
  cases exec_effect he with
  | findLiteral hn hl => exact h.withScan hn
  | findMatched hn hl =>
    obtain ⟨-, hws, hcand, hstart, hub, hk, hbest, hcnt, -, hmo, -, hml⟩ := h.withScan hn
    obtain ⟨-, -, ho, -, hl, -⟩ := (findMatched_latchGood hn hl).2 rfl
    exact ⟨hip, hws, hcand, hstart, hub, hk, hbest, hcnt, lt_of_le_windowSize ho, hmo, lt_of_le_maxMatch hl, hml⟩
  | matchRead i off len hi hb ht hn =>
    obtain ⟨-, hws, hcand, hstart, hub, hk, hbest, -, hto, -, htl, -⟩ := h
    obtain ⟨ho, hl⟩ := (s.split.admits_iff _ _).mp (unpack_admits s.split (pack s.split off len))
    have h8 : 2 ^ s.split.toNat ≤ 2 ^ 8 := Nat.pow_le_pow_right (by decide) s.split.toNat_pos.2
    exact ⟨hip, hws, hcand, hstart, hub, hk, hbest, Nat.lt_of_lt_of_le hl h8, hto, ho, htl, hl⟩
  | copyByte hc =>
    obtain ⟨-, hws, hcand, hstart, hub, hk, hbest, hcnt, hregs⟩ := h.copyWrite
    exact ⟨hip, hws, hcand, hstart, hub, hk, hbest, Nat.lt_of_le_of_lt (Nat.sub_le _ _) hcnt, hregs⟩
  | openGroup => exact ⟨hip, (h.gwrite s.op 0#8).2⟩
  | emitLit => exact ⟨hip, ((h.gwrite s.op s.tokByte).gwrite s.tagpos s.tagWithBit).2⟩
  | emitMatch =>
    exact ⟨hip, ((h.gwrite s.op (hiByte (pack s.split s.tokOff s.tokLen))).gwrite (s.op + 1)
      (loByte (pack s.split s.tokOff s.tokLen))).2⟩
  | _ => exact ⟨hip, h.2⟩

theorem command_fits {i : Instr} {s t : State} (h : s.Fits) (hi : isCommand i) (he : exec i s = .next t) : t.Fits := by
  obtain ⟨m, hm⟩ := exec_command hi
  have ⟨_, hregs⟩ := h
  rcases startCommand_next ((hm s).symm.trans he) with ⟨-, rfl⟩ | ⟨-, -, -, -, ⟨-, rfl⟩ | ⟨-, rfl⟩⟩
  · exact h
  · exact ⟨Nat.two_pow_pos 33, hregs⟩
  · exact ⟨Nat.two_pow_pos 33, hregs⟩

/-- No other move of the host writes a working register, but for a reset, which leaves them 0. -/
theorem hostEffect_fits {m : HostMove} {s t : State} (h : s.Fits) (he : hostEffect m s = .next t) : t.Fits := by
  cases m with
  | writeReg r v =>
    obtain rfl := Host.Outcome.next.inj he
    cases r <;> exact h
  | writeIn | writeOut | readOut =>
    obtain rfl := atIndex_next he
    exact h
  | readReg | wait =>
    obtain rfl := Host.Outcome.next.inj he
    exact h
  | reset =>
    obtain rfl := Host.Outcome.next.inj he
    have h0 (k : Nat) : 0 < 2 ^ k := Nat.two_pow_pos k
    exact ⟨h0 33, h0 32, h0 32, h0 32, h0 8, h0 8, h0 8, h0 8, h0 _, h0 _, h0 _, h0 _⟩

/-- Settles O41: with the invariant, which bounds `ip`, the widths are kept by every step. -/
theorem everyStepKeepsTheWidths : Obligations.EveryStepKeepsTheWidths := by
  intro s t h hfit he
  refine (step_keeps (P := fun s => s.Inv ∧ s.Fits) id ?_ ?_ ?_ ⟨h, hfit⟩ he).2
  · rintro i s t ⟨h, hfit⟩ hf he
    have ht := engine_inv h hf he
    exact ⟨ht, exec_fits hfit (engine_ip_lt hfit.1 (fetch_running hf) ht he) he⟩
  · rintro i s t ⟨h, hfit⟩ hi he
    exact ⟨command_inv h hi he, command_fits hfit hi he⟩
  · rintro m s t ⟨h, hfit⟩ ha he
    exact ⟨hostEffect_inv h ha he, hostEffect_fits hfit he⟩

end Sys2Proof.Machine
end

section
/-! The host registers (10_state.md R22 to R26, R37): what the host's reads and writes do, and what no operation does. -/

namespace Sys2Proof.Machine

/-- A read of a register that may land returns its value in `hostData` and changes nothing else. -/
theorem step_of_readReg {s : State} {r : HostReg} {rest : List HostMove} (h : s.host = .readReg r :: rest)
    (ha : s.admits (.readReg r) = true) : step s = .next { s with host := rest, hostData := s.regValue r } := by
  rw [step_of_hostEffect h ha (by simp) (by simp)]
  cases r <;> rfl

/-- A write of a register that may land, CMD apart. -/
theorem step_of_writeReg {s : State} {r : HostReg} {v : Word} {rest : List HostMove} (h : s.host = .writeReg r v :: rest)
    (ha : s.admits (.writeReg r v) = true) (hr : r ≠ .cmd) :
    step s = .next ({ s with host := rest }.writeReg r v) :=
  step_of_hostEffect h ha (by simp) (by simp [hr])

/-- A command given while BUSY = 1 changes nothing (10_state.md R23). -/
theorem exec_command_busy {i : Instr} {s : State} (hi : isCommand i) (hb : s.busy = true) : exec i s = .next s :=
  Effect.exec_eq (.ignored i hi (by simp [hb]))

/-- `CFG[3:0]` holds `length_bits`, and the other bits are 0. -/
theorem cfgWord_bits (s : State) :
    (s.cfgWord.extractLsb' 0 4).toNat = s.config.lengthBits.toNat ∧ s.cfgWord.extractLsb' 4 28 = 0#28 := by
  rw [State.cfgWord, State.split]
  cases s.config.lengthBits <;> decide

/-- No move of the host changes the parameters (10_state.md R21). -/
theorem hostEffect_config {m : HostMove} {s t : State} (he : hostEffect m s = .next t) : t.config = s.config := by
  cases m with
  | writeReg r v =>
    obtain rfl := Host.Outcome.next.inj he
    cases r <;> rfl
  | writeIn | writeOut | readOut =>
    obtain rfl := atIndex_next he
    rfl
  | readReg | wait | reset =>
    obtain rfl := Host.Outcome.next.inj he
    rfl

/-- Settles O11: CFG is a function of the parameters, which nothing changes. -/
theorem cfgIsReadOnly : Obligations.CfgIsReadOnly := by
  intro s rest
  obtain ⟨hlo, hhi⟩ := s.config.lengthBits.toNat_pos
  refine ⟨fun v h => step_of_writeReg h rfl (by simp), fun h => ?_, hlo, hhi, fun t he => ?_⟩
  · obtain ⟨hbits, hzero⟩ := cfgWord_bits s
    exact ⟨_, step_of_readReg h rfl, rfl, hbits, hzero⟩
  · exact step_keeps (P := fun t => t.config = s.config) id (fun h _ he => (exec_frame he).1.trans h)
      (fun h _ he => (exec_frame he).1.trans h) (fun h _ he => (hostEffect_config he).trans h) rfl he

/-- Settles O12: 1 and 2 decode to the commands, any other word to none, and a running engine ignores both. -/
theorem cmdWritesStartOrAreIgnored : Obligations.CmdWritesStartOrAreIgnored := by
  intro s rest
  refine ⟨fun _ _ h => step_of_command (bs := []) h rfl, fun _ _ h => step_of_command (bs := []) h rfl,
    fun v h1 h2 h => step_of_ignoredCommand h (decode_command_ignored h1 h2), fun v hb h => ?_,
    fun h => step_of_readReg h rfl⟩
  cases hd : decode .command (.cmd v) with
  | error e => exact step_of_ignoredCommand h hd
  | ok r => exact (step_of_command h hd).trans (exec_command_busy (isCommand_of_decode hd) hb)

/-- Settles O14: each of the four registers is read where the host may read it. -/
theorem registerReadsReturnTheRegister : Obligations.RegisterReadsReturnTheRegister := by
  intro s rest
  refine ⟨fun h => step_of_readReg h rfl, fun hb => ?_⟩
  have hfree : (!s.busy) = true := by simp [hb]
  exact ⟨fun h => step_of_readReg h hfree, fun h => step_of_readReg h hfree, fun h => step_of_readReg h hfree⟩

/-- Settles O53: the write may land at any time, and writes nothing. -/
theorem resultAndStatusIgnoreHostWrites : Obligations.ResultAndStatusIgnoreHostWrites := by
  rintro s r v rest (rfl | rfl) h
  · exact step_of_writeReg h rfl (by simp)
  · exact step_of_writeReg h rfl (by simp)

/-! ### The arguments -/

/-- Of the host's moves only a reset, and a write of the register while BUSY = 0, change IN_LEN or OUT_LIMIT. -/
theorem hostEffect_arguments {m : HostMove} {s t : State} (ha : s.admits m = true) (he : hostEffect m s = .next t)
    (hr : m ≠ .reset) :
    (s.busy = true ∨ (∀ v, m ≠ .writeReg .inLen v) → t.inLen = s.inLen) ∧
    (s.busy = true ∨ (∀ v, m ≠ .writeReg .outLimit v) → t.outLimit = s.outLimit) := by
  cases m with
  | writeReg r v =>
    obtain rfl := Host.Outcome.next.inj he
    cases r with
    | inLen =>
      have hb : s.busy = false := by simpa [State.admits] using ha
      exact ⟨by simp [hb], fun _ => rfl⟩
    | outLimit =>
      have hb : s.busy = false := by simpa [State.admits] using ha
      exact ⟨fun _ => rfl, by simp [hb]⟩
    | cfg | cmd | result | status => exact ⟨fun _ => rfl, fun _ => rfl⟩
  | writeIn | writeOut | readOut =>
    obtain rfl := atIndex_next he
    exact ⟨fun _ => rfl, fun _ => rfl⟩
  | readReg | wait =>
    obtain rfl := Host.Outcome.next.inj he
    exact ⟨fun _ => rfl, fun _ => rfl⟩
  | reset => exact absurd rfl hr

/-- A step leaves the arguments alone unless it is a move of the host that starts no command. -/
theorem step_arguments {s t : State} (he : step s = .next t) :
    (t.inLen = s.inLen ∧ t.outLimit = s.outLimit) ∨
    ∃ m rest, s.host = m :: rest ∧ s.admits m = true ∧ hostEffect m { s with host := rest } = .next t := by
  rcases step_next he with ⟨i, u, hu, -, he⟩ | ⟨u, hu, -, rfl⟩ | ⟨rest, v, i, bs, -, -, he⟩ |
    ⟨rest, v, e, -, -, rfl⟩ | ⟨m, rest, h, ha, -, -, he⟩
  · obtain ⟨-, hn, hl, -⟩ := exec_frame he
    rw [hn, hl, turn_eq hu]
    exact .inl ⟨rfl, rfl⟩
  · rw [turn_eq hu]
    exact .inl ⟨rfl, rfl⟩
  · obtain ⟨-, hn, hl, -⟩ := exec_frame he
    exact .inl ⟨hn, hl⟩
  · exact .inl ⟨rfl, rfl⟩
  · exact .inr ⟨m, rest, h, ha, he⟩

/-- Settles O13: only the host's moves touch the arguments, and of these a write is held back while BUSY = 1. -/
theorem argumentsHoldDuringACommand : Obligations.ArgumentsHoldDuringACommand := by
  refine ⟨fun s v rest hb => ⟨fun h => ?_, fun h => ?_⟩, ?_, fun i s t he => ?_, ?_⟩
  · exact step_of_writeReg h (by simp [State.admits, hb]) (by simp)
  · exact step_of_writeReg h (by simp [State.admits, hb]) (by simp)
  · intro s t r v rest hb hr h he
    have ha : s.admits (.writeReg r v) = false := by rcases hr with rfl | rfl <;> simp [State.admits, hb]
    rcases step_of_held h ha he with rfl | ⟨i, -, he⟩
    · exact ⟨rfl, rfl, rfl⟩
    · obtain ⟨-, hn, hl, -, -, hh, -⟩ := exec_frame he
      exact ⟨hn, hl, hh⟩
  · obtain ⟨hc, hn, hl, -⟩ := exec_frame he
    exact ⟨hn, hl, hc⟩
  · intro s t he hr
    rcases step_arguments he with ⟨hn, hl⟩ | ⟨m, rest, h, ha, he⟩
    · exact ⟨fun _ => hn, fun _ => hl⟩
    · obtain ⟨hn, hl⟩ := hostEffect_arguments (s := { s with host := rest }) ha he (fun e => hr rest (e ▸ h))
      exact ⟨fun hw => hn (hw.imp id fun hw v e => hw v rest (e ▸ h)),
        fun hw => hl (hw.imp id fun hw v e => hw v rest (e ▸ h))⟩

/-! ### RESULT and STATUS -/

/-- Settles O20: only a completion writes RESULT, and only a start or a completion writes STATUS. -/
theorem resultIsWrittenAtCompletionOnly : Obligations.ResultIsWrittenAtCompletionOnly := by
  intro i s t he
  cases exec_effect he with
  | startedEmpty i m hi => exact ⟨fun _ => ⟨rfl, rfl, rfl⟩, fun _ => .inl (hi.imp And.left And.left)⟩
  | started i m hi => exact ⟨fun h => absurd rfl h, fun _ => .inl (hi.imp And.left And.left)⟩
  | complete hb hn ho => exact ⟨fun _ => ⟨rfl, rfl, Nat.mod_eq_of_lt ho⟩, fun _ => .inr ⟨rfl, hn, rfl, rfl⟩⟩
  | _ => exact ⟨fun h => absurd rfl h, fun h => absurd rfl h⟩

/-! ### Reset -/

theorem step_reset : step State.reset = .next State.reset := step_of_host_nil rfl

/-- A state that a step leaves as it is stays so for any number of steps. -/
theorem steps_of_fixed {s : State} (h : step s = .next s) (k : Nat) : steps k s = .next s := by
  induction k with
  | zero => rfl
  | succ k ih => rw [steps_succ, h]; exact ih

/-- Settles O7: the reset values, and an idle engine without a host move stands still. -/
theorem resetLeavesTheEngineIdle : Obligations.ResetLeavesTheEngineIdle :=
  ⟨rfl, rfl, rfl, rfl, rfl, step_reset, steps_of_fixed step_reset⟩

end Sys2Proof.Machine
end

section
/-! Two runs side by side: what a command's run reads of the registers an earlier command left (10_state.md R20, R37;
70_reset_and_hazards.md R186). -/

namespace Sys2Proof.Machine

/-! ### Runs -/

theorem steps_succ_next {k : Nat} {s t : State} :
    steps (k + 1) s = .next t ↔ ∃ u, step s = .next u ∧ steps k u = .next t := by
  rw [steps_succ]
  cases step s <;> simp

theorem runCommand_next {i : Instr} {k : Nat} {s t : State} :
    runCommand i k s = .next t ↔ ∃ u, exec i s = .next u ∧ steps k u = .next t := by
  rw [runCommand]
  cases exec i s <;> simp

/-- A relation that every step of the first state can follow in the second carries over to runs. -/
theorem steps_simulate {R : State → State → Prop}
    (hstep : ∀ {s u t}, R s u → step s = .next t → ∃ w, step u = .next w ∧ R t w)
    {k : Nat} {s u t : State} (h : R s u) (he : steps k s = .next t) : ∃ w, steps k u = .next w ∧ R t w := by
  induction k generalizing s u with
  | zero =>
    obtain rfl := Host.Outcome.next.inj he
    exact ⟨u, rfl, h⟩
  | succ k ih =>
    obtain ⟨s', hs, he⟩ := steps_succ_next.mp he
    obtain ⟨u', hu, h⟩ := hstep h hs
    obtain ⟨w, hw, h⟩ := ih h he
    exact ⟨w, steps_succ_next.mpr ⟨u', hu, hw⟩, h⟩

/-! ### The registers that hold nothing between two operations, but where an operation is about to read them -/

/-- The registers that a command start leaves as they were and that are none of its inputs (43_commands_and_control.md
R152), with what the host read last. -/
structure Scratch where
  result    : Word
  tagpos    : Nat
  scan      : Scan
  ws        : Nat
  ub        : Nat
  tokKind   : TokenKind
  tokByte   : Byte
  tokOff    : Nat
  tokLen    : Nat
  val       : Half
  mLen      : Nat
  mOff      : Nat
  cnt       : Nat
  hostData  : Word

/-- What `s` holds in these registers. -/
def State.scratch (s : State) : Scratch where
  result   := s.result
  tagpos   := s.tagpos
  scan     := { cand := s.cand, k := s.k, bestLen := s.bestLen, bestStart := s.bestStart }
  ws       := s.ws
  ub       := s.ub
  tokKind  := s.tokKind
  tokByte  := s.tokByte
  tokOff   := s.tokOff
  tokLen   := s.tokLen
  val      := s.val
  mLen     := s.mLen
  mOff     := s.mOff
  cnt      := s.cnt
  hostData := s.hostData

/-- `s` with other contents in these registers. -/
def State.withScratch (s : State) (r : Scratch) : State :=
  { s with
    result := r.result, tagpos := r.tagpos, ws := r.ws, ub := r.ub
    cand := r.scan.cand, k := r.scan.k, bestLen := r.scan.bestLen, bestStart := r.scan.bestStart
    tokKind := r.tokKind, tokByte := r.tokByte, tokOff := r.tokOff, tokLen := r.tokLen
    val := r.val, mLen := r.mLen, mOff := r.mOff, cnt := r.cnt, hostData := r.hostData }

/-- Two states at the same point of the same run: equal but for scratch registers, and equal in those that a later
operation reads before it writes them. The host makes no move. -/
structure State.SameRun (s u : State) : Prop where
  host : s.host = []
  rest : u = s.withScratch u.scratch
  result : s.phase = .idle → u.result = s.result
  tagpos : s.phase = .processingGroup → s.mode = .compress → u.tagpos = s.tagpos
  latch : s.phase = .processingGroup → s.mode = .compress → s.stage = .body → u.tokKind = s.tokKind ∧
    (s.tokKind = .literal → u.tokByte = s.tokByte) ∧
    (s.tokKind = .matched → u.tokOff = s.tokOff ∧ u.tokLen = s.tokLen)
  copy : s.phase = .processingGroup → s.mode = .decompress → s.stage = .body → u.mOff = s.mOff ∧ u.cnt = s.cnt

/-- The best of a scan does not depend on the registers the scan starts from, but for the best so far. -/
theorem scanFrom_best_congr (rd : Nat → Byte) (p ub count c : Nat) {a b : Scan} (hl : a.bestLen = b.bestLen)
    (hs : 0 < b.bestLen → a.bestStart = b.bestStart) :
    (scanFrom rd p ub count c a).bestLen = (scanFrom rd p ub count c b).bestLen ∧
    (0 < (scanFrom rd p ub count c b).bestLen →
      (scanFrom rd p ub count c a).bestStart = (scanFrom rd p ub count c b).bestStart) := by
  induction count generalizing c a b with
  | zero => exact ⟨hl, hs⟩
  | succ count ih =>
    have hv : (visit rd p ub c a).bestLen = (visit rd p ub c b).bestLen ∧
        (0 < (visit rd p ub c b).bestLen → (visit rd p ub c a).bestStart = (visit rd p ub c b).bestStart) := by
      simp only [visit, hl]
      split
      · exact ⟨rfl, fun _ => rfl⟩
      · exact ⟨rfl, hs⟩
    exact ih (c + 1) hv.1 hv.2

theorem State.scan_withScratch (s : State) (r : Scratch) :
    (s.withScratch r).scan.bestLen = s.scan.bestLen ∧
    (0 < s.scan.bestLen → (s.withScratch r).scan.bestStart = s.scan.bestStart) :=
  scanFrom_best_congr _ _ _ _ _ rfl (fun h => absurd h (Nat.lt_irrefl 0))

/-- The fetch reads no scratch register but the latch's kind, where a token's body is next. -/
theorem State.SameRun.fetch_eq {s u : State} (h : s.SameRun u) : u.fetch = s.fetch := by
  obtain ⟨-, hrest, -, -, hlatch, -⟩ := h
  have hop : s.phase = .processingGroup → s.mode = .compress → u.compressOp = s.compressOp := by
    intro hp hm
    have hs : u.stage = s.stage := by rw [hrest]; rfl
    rw [State.compressOp, State.compressOp, hs]
    cases hst : s.stage with
    | token | advance => rfl
    | body => rw [(hlatch hp hm hst).1]
  have hd : u.decompressOp = s.decompressOp := by rw [hrest]; rfl
  have hi : u.itemAt .tagByte = s.itemAt .tagByte := by rw [hrest]; rfl
  have hp : u.phase = s.phase := by rw [hrest]; rfl
  have hm : u.mode = s.mode := by rw [hrest]; rfl
  rw [State.fetch, State.fetch, hp, hm, hd, hi]
  cases hps : s.phase with
  | idle => rfl
  | awaitingTag => cases s.mode <;> rfl
  | processingGroup =>
    cases hms : s.mode with
    | compress => exact congrArg some (hop hps hms)
    | decompress => rfl

/-- A copy step reads one scratch register, the offset. -/
theorem State.copyWrite_withScratch {s : State} {r : Scratch} (h : (s.withScratch r).mOff = s.mOff) :
    (s.withScratch r).copyWrite = s.copyWrite.withScratch r := by
  have hw : (s.withScratch r).wellReferenced = s.wellReferenced := by
    rw [State.wellReferenced, h]
    rfl
  have hb : (s.withScratch r).copiedByte = s.copiedByte := by
    rw [State.copiedByte, hw, h]
    rfl
  rw [State.copyWrite, State.illReferencedStep, hb, hw]
  rfl

theorem State.SameRun.finish {s u : State} (h : s.SameRun u) : s.finish.SameRun u.finish where
  host := h.host
  rest := by rw [h.rest]; rfl
  result := fun _ => by rw [h.rest]; rfl
  tagpos := by simp
  latch := by simp
  copy := by simp

/-- An engine's operation of the first state is followed in the second. -/
theorem State.SameRun.engine {s u t : State} {i : Instr} (h : s.SameRun u) (hf : s.fetch = some i)
    (he : exec i s = .next t) : ∃ w, exec i u = .next w ∧ t.SameRun w := by
  have hsel := fetch_selects hf
  obtain ⟨hh, hrest, hresult, htagpos, hlatch, hcopy⟩ := h
  generalize u.scratch = r at hrest
  subst hrest
  cases exec_effect he with
  | ignored i hi => exact absurd hsel (State.not_selects_command hi)
  | startedEmpty i m hi hp | started i m hi hp => exact absurd hp (fetch_running hf)
  | tag b hb hn =>
    obtain ⟨hp, hm⟩ := hsel
    exact ⟨_, Effect.exec_eq (.tag b hb hn), hh, rfl, by simp, by simp [hm], by simp, by simp⟩
  | lit b hb ht => exact ⟨_, Effect.exec_eq (.lit b hb ht), hh, rfl, hresult, htagpos, by simp, by simp⟩
  | matchRead i off len hi hb ht hn =>
    obtain ⟨hp, hm, hs⟩ := (State.selects_match hi).mp hsel
    exact ⟨_, Effect.exec_eq (.matchRead i off len hi hb ht hn), hh, rfl, hresult, htagpos, by simp [hm],
      fun _ _ _ => ⟨rfl, rfl⟩⟩
  | matchSkip i off len hi hb ht hn =>
    exact ⟨_, Effect.exec_eq (.matchSkip i off len hi hb ht hn), hh, rfl, hresult, htagpos, by simp, by simp⟩
  | findLiteral hn hl =>
    obtain ⟨hp, hm, hs⟩ := hsel
    have hbest := (s.scan_withScratch r).1
    exact ⟨_, Effect.exec_eq (.findLiteral hn (hbest ▸ hl)), hh, rfl, hresult, htagpos,
      fun _ _ _ => ⟨rfl, fun _ => rfl, by simp⟩, by simp [hm]⟩
  | findMatched hn hl =>
    obtain ⟨hp, hm, hs⟩ := hsel
    obtain ⟨hbest, hstart⟩ := s.scan_withScratch r
    exact ⟨_, Effect.exec_eq (.findMatched hn (hbest ▸ hl)), hh, rfl, hresult, htagpos,
      fun _ _ _ => ⟨rfl, by simp, fun _ => ⟨congrArg (s.ip - ·) (hstart (by omega)), hbest⟩⟩, by simp [hm]⟩
  | openGroup hb hn =>
    exact ⟨_, Effect.exec_eq (.openGroup hb hn), hh, rfl, by simp, fun _ _ => rfl, by simp, by simp⟩
  | emitLit hb hk =>
    obtain ⟨hp, hm, hs⟩ := hsel
    obtain ⟨hkind, hbyte, -⟩ := hlatch hp hm hs
    refine ⟨_, Effect.exec_eq (.emitLit hb (hkind.trans hk)), hh, ?_, hresult, htagpos, by simp, by simp⟩
    rw [hbyte hk, htagpos hp hm]
    rfl
  | emitMatch hb hk =>
    obtain ⟨hp, hm, hs⟩ := hsel
    obtain ⟨hkind, -, hmatch⟩ := hlatch hp hm hs
    obtain ⟨hoff, hlen⟩ := hmatch hk
    refine ⟨_, Effect.exec_eq (.emitMatch hb (hkind.trans hk)), hh, ?_, hresult, htagpos, by simp, by simp⟩
    rw [hoff, hlen]
    rfl
  | copyByte hc =>
    obtain ⟨hp, hm, hs⟩ := hsel
    obtain ⟨hoff, hcnt⟩ := hcopy hp hm hs
    refine ⟨_, Effect.exec_eq (.copyByte (hcnt ▸ hc)), hh, ?_, hresult, htagpos, by simp [hm],
      fun _ _ _ => ⟨hoff, congrArg (· - 1) hcnt⟩⟩
    rw [State.copyWrite_withScratch hoff, hcnt]
    rfl
  | complete hb hn ho =>
    have hnext : State.SameRun { s with bit := shiftCursor s.bit, stage := .token }
        { s.withScratch r with bit := shiftCursor s.bit, stage := .token } :=
      ⟨hh, rfl, hresult, htagpos, by simp, by simp⟩
    exact ⟨_, Effect.exec_eq (.complete hb hn ho), hnext.finish⟩
  | nextGroup hb hn hz =>
    exact ⟨_, Effect.exec_eq (.nextGroup hb hn hz), hh, rfl, by simp, by simp, by simp, by simp⟩
  | nextToken hb hn hz =>
    obtain ⟨hp, hs⟩ := hsel
    exact ⟨_, Effect.exec_eq (.nextToken hb hn hz), hh, rfl, by simp, fun _ => htagpos hp, by simp, by simp⟩

/-- A step of the first state is followed in the second. -/
theorem State.SameRun.step {s u t : State} (h : s.SameRun u) (he : Machine.step s = .next t) :
    ∃ w, Machine.step u = .next w ∧ t.SameRun w := by
  have hu : u.host = [] := by
    rw [h.rest]
    exact h.host
  rw [step_of_host_nil h.host] at he
  rw [step_of_host_nil hu, h.fetch_eq]
  cases hf : s.fetch with
  | none =>
    rw [hf] at he
    obtain rfl := Host.Outcome.next.inj he
    exact ⟨u, rfl, h⟩
  | some i =>
    rw [hf] at he
    exact h.engine hf he

/-- What a command start leaves outside the scratch registers, it writes or has from its inputs (10_state.md R20). -/
theorem State.SameCommandInputs.started {s u : State} (h : s.SameCommandInputs u) (m : Mode) :
    (s.started m).SameRun (u.started m) := by
  obtain ⟨hc, hn, hl, hin, hout, he, hd, hs, hu⟩ := h
  refine ⟨hs, ?_, by simp, by simp, by simp, by simp⟩
  rw [State.started, hc, hn, hl, hin, hout, he, hd, hu, ← hs]
  rfl

/-- In a prepared state a command starts, with completion at once when there is no input (43_commands_and_control.md R152,
R155). -/
theorem startCommand_ready {s : State} (h : s.Ready) (m : Mode) :
    startCommand m s = .next (if s.n = 0 then (s.started m).finish else s.started m) := by
  obtain ⟨hp, hb, -, hargs⟩ := h
  rw [startCommand, if_pos ⟨hp, hb⟩, if_pos hargs]
  split
  · exact complete_next.mpr ⟨Nat.two_pow_pos 32, rfl⟩
  · rfl

/-- From prepared states with the same inputs a command starts the same run. -/
theorem State.SameCommandInputs.command {i : Instr} {s u t : State} (h : s.SameCommandInputs u) (hi : isCommand i)
    (hs : s.Ready) (hu : u.Ready) (he : exec i s = .next t) : ∃ w, exec i u = .next w ∧ t.SameRun w := by
  obtain ⟨m, hm⟩ := exec_command hi
  have hn : u.n = s.n := congrArg BitVec.toNat h.2.1
  rw [hm, startCommand_ready hs] at he
  rw [hm, startCommand_ready hu, hn]
  refine ⟨_, rfl, ?_⟩
  rw [← Host.Outcome.next.inj he]
  split
  · exact (h.started m).finish
  · exact h.started m

/-- Settles O49: a command start leaves two runs that differ in scratch registers only, and every step keeps it so. -/
theorem earlierRegistersDoNotMatter : Obligations.EarlierRegistersDoNotMatter := by
  intro i s u hi hs hu h k t he
  obtain ⟨s', hstart, hrun⟩ := runCommand_next.mp he
  obtain ⟨u', hstart', h'⟩ := h.command hi hs hu hstart
  obtain ⟨w, hrun', hw⟩ := steps_simulate State.SameRun.step h' hrun
  refine ⟨w, runCommand_next.mpr ⟨u', hstart', hrun'⟩, ?_⟩
  obtain ⟨-, hrest, hresult, -⟩ := hw
  rw [hrest] at hresult ⊢
  exact ⟨rfl, rfl, rfl, rfl, rfl, rfl, hresult⟩

end Sys2Proof.Machine
end

section
/-! The two memories (20_memory.md R51 to R54): where an operation may write, what a command leaves of OUT, and what an
operation may read of IN. -/

namespace Sys2Proof.Machine

/-! ### Command arguments (R53, U6) -/

/-- Settles O18: the start tests the arguments of an idle engine, and a busy engine ignores the command. -/
theorem commandsRefusedOrIgnored : Obligations.CommandsRefusedOrIgnored := by
  intro i s hi
  refine ⟨fun hp hb hsize => ?_, exec_command_busy hi⟩
  obtain ⟨m, hm⟩ := exec_command hi
  have hfit : ¬ (s.n ≤ s.config.inSize.toNat ∧ s.limit ≤ s.config.outSize.toNat) := by omega
  rw [hm, startCommand, if_pos ⟨hp, hb⟩, if_neg hfit]

/-! ### Writes (R51, R52, R54) -/

/-- A guarded write changes at most the byte at its index, and only below the limit. -/
theorem State.gwrite_read_cases (s : State) (a x : Nat) (v : Byte) :
    (s.gwrite a v).outMem.read x = s.outMem.read x ∨ (x = a ∧ x < s.limit) := by
  rw [State.gwrite_read]
  split
  · next h => exact .inr ⟨h.1, h.1 ▸ h.2⟩
  · exact .inl rfl

/-- The same of two guarded writes. -/
theorem State.gwrite_gwrite_read_cases (s : State) (a b x : Nat) (v w : Byte) :
    ((s.gwrite a v).gwrite b w).outMem.read x = s.outMem.read x ∨ ((x = a ∨ x = b) ∧ x < s.limit) := by
  rcases (s.gwrite a v).gwrite_read_cases b x w with h | ⟨hx, hl⟩
  · exact (s.gwrite_read_cases a x v).imp h.trans fun ⟨hx, hl⟩ => ⟨.inl hx, hl⟩
  · exact .inr ⟨.inr hx, hl⟩

/-- The OUT bytes that an operation may change: below the limit, those from `op` up to its new value, and for EMIT_LIT the
group's tag byte (41_token_encoder.md R113, R117; 42_decompressor.md R141). -/
theorem exec_outMem_read {i : Instr} {s t : State} (he : exec i s = .next t) (a : Nat) :
    t.outMem.read a = s.outMem.read a ∨
      (a < s.limit ∧ ((s.op ≤ a ∧ a < t.op) ∨ (i = .emitLit ∧ a = s.tagpos))) := by
  cases exec_effect he with
  | lit b hb ht =>
    by_cases hn : s.ip < s.n
    · simp only [hn, true_and]
      exact (s.gwrite_read_cases s.op a b).imp_right fun ⟨hx, hl⟩ => ⟨hl, .inl (by omega)⟩
    · exact .inl (by simp [hn])
  | openGroup hb hn =>
    exact (s.gwrite_read_cases s.op a _).imp_right fun ⟨hx, hl⟩ => ⟨hl, .inl (by simp [hx])⟩
  | emitLit hb hk =>
    refine (s.gwrite_gwrite_read_cases s.op s.tagpos a _ _).imp_right fun ⟨hx, hl⟩ => ⟨hl, ?_⟩
    exact hx.imp (fun hx => by simp [hx]) fun hx => ⟨rfl, hx⟩
  | emitMatch hb hk =>
    refine (s.gwrite_gwrite_read_cases s.op (s.op + 1) a _ _).imp_right fun ⟨hx, hl⟩ => ⟨hl, .inl ?_⟩
    dsimp only
    omega
  | copyByte hc =>
    exact (s.gwrite_read_cases s.op a _).imp_right fun ⟨hx, hl⟩ => ⟨hl, .inl (by simp [hx])⟩
  | _ => exact .inl rfl

/-- Settles O37: IN is in the frame of every operation, and OUT changes below the limit only. -/
theorem writesStayInsideOutBelowTheLimit : Obligations.WritesStayInsideOutBelowTheLimit := by
  intro i s t he
  obtain ⟨-, -, -, hin, -⟩ := exec_frame he
  refine ⟨hin, fun a ha => ?_⟩
  rcases exec_outMem_read he a with h | ⟨hl, -⟩
  · exact h
  · omega

/-! ### What a command leaves of OUT (R54) -/

/-- What every step keeps, a run of steps keeps. -/
theorem steps_keeps {P : State → Prop} (hstep : ∀ {s t}, P s → step s = .next t → P t) {k : Nat} {s t : State}
    (h : P s) (he : steps k s = .next t) : P t := by
  induction k generalizing s with
  | zero => exact Host.Outcome.next.inj he ▸ h
  | succ k ih =>
    obtain ⟨u, hu, he⟩ := steps_succ_next.mp he
    exact ih (hstep h hu) he

/-- The tag byte of COMPRESS's open group lies below `op` (10_state.md R40). -/
def State.TagposBelow (s : State) : Prop := s.phase = .processingGroup → s.mode = .compress → s.tagpos < s.op

/-- No operation of the engine moves `op` back. -/
theorem engine_op_le {i : Instr} {s t : State} (hsel : s.Selects i) (he : exec i s = .next t) : s.op ≤ t.op := by
  cases exec_effect he with
  | startedEmpty i m hi | started i m hi =>
    exact absurd hsel (State.not_selects_command (hi.imp And.left And.left))
  | lit | openGroup | emitLit | copyByte => exact Nat.le_add_right s.op 1
  | emitMatch => exact Nat.le_add_right s.op 2
  | _ => exact Nat.le_refl s.op

/-- OPEN_GROUP reserves the tag byte at `op` and passes it; no later operation of the group moves `tagpos`. -/
theorem engine_tagposBelow {i : Instr} {s t : State} (h : s.TagposBelow) (hsel : s.Selects i)
    (he : exec i s = .next t) : t.TagposBelow := by
  have hop := engine_op_le hsel he
  cases exec_effect he with
  | ignored => exact h
  | startedEmpty | complete | started | nextGroup => exact fun hp => by cases hp
  | openGroup => exact fun _ _ => Nat.lt_succ_self s.op
  | tag => exact fun _ hm => by simp [hsel.2] at hm
  | nextToken => exact fun _ hm => h hsel.1 hm
  | _ => exact fun hp hm => Nat.lt_of_lt_of_le (h hp hm) hop

/-- `t` is a point of a command given in `s`, with OUT as in `s` at or above `op` and at or above the limit. -/
structure State.KeepsOut (s t : State) : Prop where
  host : t.host = []
  limit : t.limit = s.limit
  tagpos : t.TagposBelow
  out : ∀ a, t.op ≤ a ∨ s.limit ≤ a → t.outMem.read a = s.outMem.read a

theorem State.KeepsOut.engine {i : Instr} {s t u : State} (h : s.KeepsOut t) (hf : t.fetch = some i)
    (he : exec i t = .next u) : s.KeepsOut u := by
  have hsel := fetch_selects hf
  have hop := engine_op_le hsel he
  obtain ⟨-, -, hl, -, -, hh, -⟩ := exec_frame he
  refine ⟨hh.trans h.host, (congrArg BitVec.toNat hl).trans h.limit, engine_tagposBelow h.tagpos hsel he, fun a ha => ?_⟩
  have hold := h.out a (ha.imp_left (Nat.le_trans hop))
  have hlim := h.limit
  rcases exec_outMem_read he a with hread | ⟨hlt, ⟨-, hlt'⟩ | ⟨rfl, rfl⟩⟩
  · exact hread.trans hold
  · omega
  · have hpos := h.tagpos hsel.1 hsel.2.1
    omega

theorem State.KeepsOut.step {s t u : State} (h : s.KeepsOut t) (he : Machine.step t = .next u) : s.KeepsOut u := by
  rw [step_of_host_nil h.host] at he
  cases hf : t.fetch with
  | none => exact Host.Outcome.next.inj (hf ▸ he) ▸ h
  | some i => exact h.engine hf (by simpa [hf] using he)

/-- A command start writes nothing. -/
theorem State.Ready.keepsOut {i : Instr} {s t : State} (h : s.Ready) (hi : isCommand i) (he : exec i s = .next t) :
    s.KeepsOut t := by
  obtain ⟨m, hm⟩ := exec_command hi
  rw [hm, startCommand_ready h] at he
  obtain rfl := Host.Outcome.next.inj he
  obtain ⟨-, -, hh, -⟩ := h
  split
  · exact ⟨hh, rfl, by simp [State.TagposBelow], fun _ _ => rfl⟩
  · exact ⟨hh, rfl, by simp [State.TagposBelow], fun _ _ => rfl⟩

/-- Settles O48: the start writes nothing, and a step writes only from `op` up to its new value or at the tag byte, which
lies below `op`. -/
theorem commandsKeepTheOtherOutBytes : Obligations.CommandsKeepTheOtherOutBytes := by
  intro i s hi hs k t he
  obtain ⟨u, hstart, hrun⟩ := runCommand_next.mp he
  exact (steps_keeps State.KeepsOut.step (hs.keepsOut hi hstart) hrun).out

/-! ### Reads of IN (R51) -/

section
variable {s : State} {m : Memory} (hm : ∀ a, a < s.n → { s with inMem := m }.inByte a = s.inByte a)
include hm

/-- The stream is read below IN_LEN. -/
theorem streamBytes_withInMem (count : Nat) : { s with inMem := m }.streamBytes count = s.streamBytes count := by
  refine List.map_congr_left fun j hj => hm (s.ip + j) ?_
  have hj : j < min count (s.n - s.ip) := List.mem_range.mp hj
  omega

theorem itemAt_withInMem (p : ItemPlace) : { s with inMem := m }.itemAt p = s.itemAt p := by
  rw [State.itemAt, streamBytes_withInMem hm, State.itemAt]

theorem fetch_withInMem : { s with inMem := m }.fetch = s.fetch := by
  have hd : { s with inMem := m }.decompressOp = s.decompressOp := by
    rw [State.decompressOp, itemAt_withInMem hm]
    rfl
  rw [State.fetch, itemAt_withInMem hm, hd]
  rfl

/-- The scan compares bytes below `ip + ub`, at most IN_LEN (40_match_finder.md R92). -/
theorem scan_withInMem (hn : s.ip < s.n) : { s with inMem := m }.scan = s.scan := by
  have hw : s.windowStart ≤ s.ip := Nat.sub_le _ _
  have hb : s.lengthBound ≤ s.n - s.ip := Nat.min_le_right _ _
  have hcand : s.windowStart + (s.ip - s.windowStart) ≤ s.ip := by omega
  have hend : s.ip + s.lengthBound ≤ s.n := by omega
  exact scanFrom_congr hcand hend hm _

/-- An operation has the same effect with other bytes at or above IN_LEN. -/
theorem Effect.withInMem {i : Instr} {t : State} (h : Effect s i t) :
    Effect { s with inMem := m } i { t with inMem := m } := by
  cases h with
  | ignored i hi hb => exact .ignored i hi hb
  | startedEmpty i mode hi hp hb ha hn => exact .startedEmpty i mode hi hp hb ha hn
  | started i mode hi hp hb ha hn => exact .started i mode hi hp hb ha hn
  | tag b hb hn => exact .tag b hb hn
  | lit b hb ht => exact .lit b hb ht
  | matchRead i off len hi hb ht hn => exact .matchRead i off len hi hb ht hn
  | matchSkip i off len hi hb ht hn => exact .matchSkip i off len hi hb ht hn
  | findLiteral hn hl =>
    have hscan := scan_withInMem hm hn
    have h := Effect.findLiteral (s := { s with inMem := m }) hn (hscan ▸ hl)
    rwa [hscan, hm _ hn] at h
  | findMatched hn hl =>
    have hscan := scan_withInMem hm hn
    have h := Effect.findMatched (s := { s with inMem := m }) hn (hscan ▸ hl)
    rwa [hscan] at h
  | openGroup hb hn => exact .openGroup hb hn
  | emitLit hb hk => exact .emitLit hb hk
  | emitMatch hb hk => exact .emitMatch hb hk
  | copyByte hc => exact .copyByte hc
  | complete hb hn ho => exact .complete hb hn ho
  | nextGroup hb hn hz => exact .nextGroup hb hn hz
  | nextToken hb hn hz => exact .nextToken hb hn hz

theorem exec_withInMem {i : Instr} {t : State} (he : exec i s = .next t) :
    exec i { s with inMem := m } = .next { t with inMem := m } :=
  ((exec_effect he).withInMem hm).exec_eq

end

/-- Settles O38: the second state fetches the same operation, which does the same there. -/
theorem readsStayInsideInBelowTheLength : Obligations.ReadsStayInsideInBelowTheLength := by
  rintro s u t hh ⟨hu, hm⟩ he
  generalize u.inMem = m at hu
  subst hu
  rw [step_of_host_nil hh] at he
  rw [step_of_host_nil (s := { s with inMem := m }) hh, fetch_withInMem hm]
  cases hf : s.fetch with
  | none =>
    obtain rfl := Host.Outcome.next.inj (hf ▸ he)
    exact ⟨_, rfl, rfl, hm⟩
  | some i =>
    have he : exec i s = .next t := by simpa [hf] using he
    obtain ⟨-, hn, -, hin, -⟩ := exec_frame he
    refine ⟨_, exec_withInMem hm he, rfl, fun a ha => ?_⟩
    rw [State.n, hn] at ha
    rw [State.inByte, State.inByte, hin]
    exact hm a ha

end Sys2Proof.Machine
end

section
/-! The encoding (30_encoding.md R70 to R84): packing and unpacking invert each other, decoding inverts encoding at an
operation's place, and the size of an assembled listing. -/

namespace Sys2Proof

/-! ### Both fields and both bytes of a packed value (R75, R76) -/

theorem LengthBits.admits_iff_le (l : LengthBits) (off len : Nat) :
    l.admits off len = true ↔ off ≤ l.windowSize ∧ len ≤ l.maxMatch := by
  simp [LengthBits.admits]

theorem unpackOffset_pack {l : LengthBits} {off len : Nat} (h : l.admits off len = true) :
    unpackOffset l (pack l off len) = off := by
  have hlen := ((l.admits_iff off len).mp h).2
  rw [unpackOffset_eq, pack_toNat h, Nat.add_comm, Nat.add_mul_div_right _ _ (Nat.two_pow_pos _), Nat.div_eq_of_lt hlen,
    Nat.zero_add]

theorem unpackLength_pack {l : LengthBits} {off len : Nat} (h : l.admits off len = true) :
    unpackLength l (pack l off len) = len := by
  have hlen := ((l.admits_iff off len).mp h).2
  rw [unpackLength_eq, pack_toNat h, Nat.mul_add_mod_self_right, Nat.mod_eq_of_lt hlen]

/-- Every value is the packing of its own fields (30_encoding.md R79). -/
@[simp] theorem pack_unpack (l : LengthBits) (v : Half) : pack l (unpackOffset l v) (unpackLength l v) = v := by
  apply BitVec.eq_of_toNat_eq
  rw [pack_toNat (unpack_admits l v), unpackOffset_eq, unpackLength_eq, Nat.div_add_mod']

theorem hiByte_eq_ofNat (v : Half) : hiByte v = BitVec.ofNat 8 (v.toNat / 256) := by
  rw [← hiByte_toNat, BitVec.ofNat_toNat, BitVec.setWidth_eq]

theorem loByte_eq_ofNat (v : Half) : loByte v = BitVec.ofNat 8 (v.toNat % 256) := by
  rw [← loByte_toNat, BitVec.ofNat_toNat, BitVec.setWidth_eq]

@[simp] theorem itemBytes_ofMatch (l : LengthBits) (off len : Nat) :
    itemBytes (Instr.ofMatch l off len) = matchBytes l off len := by
  simp [itemBytes]

/-! ### Decoding at a place (R77) -/

/-- What a match position reads off a stream, by the value of its two bytes (30_encoding.md R76). -/
theorem decodeItem_matchToken (l : LengthBits) (hi lo : Byte) (rest : List Byte) :
    decodeItem (.matchToken l) (hi :: lo :: rest) =
      .ok (Instr.ofMatch l (unpackOffset l (ofBytes hi lo)) (unpackLength l (ofBytes hi lo)), rest) := rfl

theorem decodeItem_matchBytes {l : LengthBits} {off len : Nat} (h : l.admits off len = true) (rest : List Byte) :
    decodeItem (.matchToken l) (matchBytes l off len ++ rest) = .ok (Instr.ofMatch l off len, rest) := by
  simp [matchBytes, decodeItem_matchToken, unpackOffset_pack h, unpackLength_pack h]

/-- The rows that are met in the stream, each at its place (30_encoding.md R77, R83). -/
theorem Instr.item_cases {i : Instr} {q : ItemPlace} (h : i.place? = some (.item q)) :
    (∃ t, i = .tag t ∧ q = .tagByte) ∨ (∃ b, i = .lit b ∧ q = .literal) ∨
      ∃ l off len, i = Instr.ofMatch l off len ∧ q = .matchToken l := by
  cases hf : i.matchFields? with
  | some f =>
    obtain ⟨l, off, len⟩ := f
    obtain rfl := eq_ofMatch hf
    simp only [place_ofMatch, Option.some.injEq, Place.item.injEq] at h
    exact .inr (.inr ⟨l, off, len, rfl, h.symm⟩)
  | none =>
    cases i with
    | tag t => exact .inl ⟨t, rfl, by cases h; rfl⟩
    | lit b => exact .inr (.inl ⟨b, rfl, by cases h; rfl⟩)
    | findMatch | openGroup | emitLit | emitMatch | copyByte | nextBit | compress | decompress => cases h
    | _ => cases hf

/-- The operations that are met at CMD (30_encoding.md R82). -/
theorem Instr.command_cases {i : Instr} (h : i.place? = some .command) : i = .compress ∨ i = .decompress := by
  cases i with
  | compress => exact .inl rfl
  | decompress => exact .inr rfl
  | _ => cases h

/-- A stream item's encoding is its bytes. -/
theorem encode_item {i : Instr} {q : ItemPlace} (h : i.place? = some (.item q)) :
    encode i = some (.stream (itemBytes i)) := by
  rcases Instr.item_cases h with ⟨t, rfl, -⟩ | ⟨b, rfl, -⟩ | ⟨l, off, len, rfl, -⟩
  · rfl
  · rfl
  · simp

/-- A well-formed item is read off the front of any stream at its place. -/
theorem decodeItem_itemBytes {i : Instr} {q : ItemPlace} (hw : i.wf = true) (h : i.place? = some (.item q))
    (rest : List Byte) : decodeItem q (itemBytes i ++ rest) = .ok (i, rest) := by
  rcases Instr.item_cases h with ⟨t, rfl, rfl⟩ | ⟨b, rfl, rfl⟩ | ⟨l, off, len, rfl, rfl⟩
  · rfl
  · rfl
  · rw [wf_ofMatch] at hw
    rw [itemBytes_ofMatch, decodeItem_matchBytes hw]

/-- Settles O1, by the operation's place: a CMD word, or an item at the front of a stream. -/
theorem decodeInvertsEncode : Obligations.DecodeInvertsEncode := by
  intro i e p hw he hp
  cases p with
  | command =>
    rcases Instr.command_cases hp with rfl | rfl <;> cases he <;> exact ⟨rfl, nofun⟩
  | item q =>
    obtain rfl := Option.some.inj (he.symm.trans (encode_item hp))
    have hitem := decodeItem_itemBytes hw hp
    refine ⟨by simpa [decode] using hitem [], ?_⟩
    rintro _ rest ⟨⟩
    exact hitem rest

/-- Settles O2: the fields of a value are its quotient and its remainder by `2^L`, and packing inverts unpacking. -/
theorem everyMatchValueUnpacks : Obligations.EveryMatchValueUnpacks := by
  intro l
  constructor
  · intro hi lo rest
    obtain ⟨hoff, hlen⟩ := (l.admits_iff_le ..).mp (unpack_admits l (ofBytes hi lo))
    refine ⟨_, _, decodeItem_matchToken l hi lo rest, ?_, ?_, hoff, hlen, ?_⟩
    · rw [unpackOffset_eq, ofBytes_toNat]
    · rw [unpackLength_eq, ofBytes_toNat]
    · simp [matchBytes]
  · intro off len hoff hlen
    have h := (l.admits_iff_le off len).mpr ⟨hoff, hlen⟩
    exact ⟨unpackOffset_pack h, unpackLength_pack h⟩

/-- Settles O3: the bytes are the quotient and the remainder of the packed value by 256. -/
theorem producedMatchPacks : Obligations.ProducedMatchPacks := by
  refine ⟨fun l off len _ hoff _ hlen => ?_, by decide⟩
  have hpack := pack_toNat ((l.admits_iff_le off len).mpr ⟨hoff, hlen⟩)
  refine ⟨hpack, ?_⟩
  rw [itemBytes_ofMatch, matchBytes, hiByte_eq_ofNat, loByte_eq_ofNat, hpack]

/-- Settles O4: the two codes evaluate, and any other word falls through both tests. -/
theorem commandCodes : Obligations.CommandCodes :=
  ⟨fun _ h1 h2 => Machine.decode_command_ignored h1 h2, rfl, rfl, rfl, rfl⟩

/-- Settles O5: each word evaluates. -/
theorem sampleWordsDecode : Obligations.SampleWordsDecode :=
  ⟨rfl, rfl, rfl, rfl, rfl, rfl, rfl, rfl, rfl, rfl, rfl⟩

/-! ### The size of a listing (R81) -/

/-- The item is a literal token. -/
def Instr.isLit : Instr → Bool
  | .lit _ => true
  | _ => false

/-- The item is a match token. -/
def Instr.isMatch (i : Instr) : Bool := i.matchFields?.isSome

@[simp] theorem isLit_ofMatch (l : LengthBits) (off len : Nat) : (Instr.ofMatch l off len).isLit = false := by
  cases l <;> rfl

@[simp] theorem isMatch_ofMatch (l : LengthBits) (off len : Nat) : (Instr.ofMatch l off len).isMatch = true := by
  simp [Instr.isMatch]

@[simp] theorem isLit_lit (b : Byte) : (Instr.lit b).isLit = true := rfl
@[simp] theorem isMatch_lit (b : Byte) : (Instr.lit b).isMatch = false := rfl
@[simp] theorem isLit_tag (t : Byte) : (Instr.tag t).isLit = false := rfl
@[simp] theorem isMatch_tag (t : Byte) : (Instr.tag t).isMatch = false := rfl

@[simp] theorem assemble_nil : assemble [] = [] := rfl
@[simp] theorem length_assemble_cons (i : Instr) (items : List Instr) :
    (assemble (i :: items)).length = (itemBytes i).length + (assemble items).length := by
  simp [assemble]

@[simp] theorem length_itemBytes_tag (t : Byte) : (itemBytes (.tag t)).length = 1 := rfl
@[simp] theorem length_itemBytes_lit (b : Byte) : (itemBytes (.lit b)).length = 1 := rfl
@[simp] theorem length_matchBytes (l : LengthBits) (off len : Nat) : (matchBytes l off len).length = 2 := rfl

/-- Before the first TAG a listing is over, or begins with one (30_encoding.md R84). -/
theorem encoderOutput_cases {l : LengthBits} {items : List Instr} (h : encoderOutput l items = true) :
    items = [] ∨ ∃ t rest, items = .tag t :: rest ∧ encoderOutputFrom l rest (some ⟨t, 0⟩) 0 = true := by
  cases items with
  | nil => exact .inl rfl
  | cons i rest =>
    cases i with
    | tag t => exact .inr ⟨t, rest, rfl, h⟩
    | _ => simp only [encoderOutput, encoderOutputFrom, Bool.false_eq_true] at h

/-- What may follow inside a group: the TAG of the next, a literal, or a match (30_encoding.md R84). -/
theorem encoderOutputFrom_cons {l : LengthBits} {i : Instr} {rest : List Instr} {g : OpenGroup} {p : Nat}
    (h : encoderOutputFrom l (i :: rest) (some g) p = true) :
    (∃ t, i = .tag t ∧ g.mayClose false = true ∧ encoderOutputFrom l rest (some ⟨t, 0⟩) p = true) ∨
    (∃ b, i = .lit b ∧ g.expects true = true ∧
      encoderOutputFrom l rest (some ⟨g.tag, g.tokens + 1⟩) (p + 1) = true) ∨
    (∃ off len, i = Instr.ofMatch l off len ∧ g.expects false = true ∧ l.produces off len = true ∧ off ≤ p ∧
      encoderOutputFrom l rest (some ⟨g.tag, g.tokens + 1⟩) (p + len) = true) := by
  cases hf : i.matchFields? with
  | some f =>
    obtain ⟨l', off, len⟩ := f
    obtain rfl := eq_ofMatch hf
    have h : (((l' = l ∧ g.expects false = true) ∧ l.produces off len = true) ∧ off ≤ p) ∧
        encoderOutputFrom l rest (some ⟨g.tag, g.tokens + 1⟩) (p + len) = true := by
      cases l' <;> simpa [Instr.ofMatch, encoderOutputFrom, Instr.matchFields?] using h
    obtain ⟨⟨⟨⟨rfl, hg⟩, hl⟩, ho⟩, hr⟩ := h
    exact .inr (.inr ⟨off, len, rfl, hg, hl, ho, hr⟩)
  | none =>
    cases i with
    | tag t => exact .inl ⟨t, rfl, Bool.and_eq_true_iff.mp h⟩
    | lit v => exact .inr (.inl ⟨v, rfl, Bool.and_eq_true_iff.mp h⟩)
    | findMatch | openGroup | emitLit | emitMatch | copyByte | nextBit | compress | decompress => cases h
    | _ => cases hf

/-- From inside a group with `k` tokens read, and with its own tag byte counted: a tag byte for every eight tokens begun,
the `k` among them; the token bytes are those still to come. -/
theorem length_assemble_in_group {b : LengthBits} {items : List Instr} {t : Byte} {k p : Nat}
    (h : encoderOutputFrom b items (some ⟨t, k⟩) p = true) :
    (assemble items).length + 1 = (k + items.countP Instr.isLit + items.countP Instr.isMatch + 7) / 8 +
      items.countP Instr.isLit + 2 * items.countP Instr.isMatch := by
  induction items generalizing t k p with
  | nil =>
    have hread : 1 ≤ k ∧ k ≤ 8 := by simpa [encoderOutputFrom, OpenGroup.mayClose] using h
    simp
    omega
  | cons i rest ih =>
    rcases encoderOutputFrom_cons h with ⟨t', rfl, hg, hr⟩ | ⟨v, rfl, -, hr⟩ | ⟨off, len, rfl, -, -, -, hr⟩
    · have hfull : k = 8 := by simpa [OpenGroup.mayClose] using hg
      have hlen := ih hr
      simp
      omega
    · have hlen := ih (k := k + 1) hr
      simp [List.countP_cons]
      omega
    · have hlen := ih (k := k + 1) hr
      simp
      omega

/-- Settles O6: an empty listing has no bytes, and any other opens its first group with a tag byte. -/
theorem streamSizeOfAListing : Obligations.StreamSizeOfAListing := by
  intro b items h
  change (assemble items).length = (items.countP Instr.isLit + items.countP Instr.isMatch + 7) / 8 +
    items.countP Instr.isLit + 2 * items.countP Instr.isMatch
  rcases encoderOutput_cases h with rfl | ⟨t, rest, rfl, hr⟩
  · simp
  · have hlen := length_assemble_in_group hr
    simp
    omega

end Sys2Proof
end

section
/-! The match finder (40_match_finder.md): what the scan returns, what FINDMATCH leaves, and the operations that stop outside
the `requires` clause of their rule. -/

namespace Sys2Proof.Machine

/-! ### What the scan returns (R94 to R96) -/

/-- No candidate agrees with the cursor on more bytes than the best length. -/
theorem State.scan_longest {s : State} {c k : Nat} (hc : s.candidate c) (hk : k ≤ s.lengthBound) (ha : s.agrees c k) :
    k ≤ s.scan.bestLen := by
  have hcpl := commonPrefix_greatest s.inByte c s.ip s.lengthBound k hk ha
  rcases s.scan_best with ⟨-, -, hnone⟩ | ⟨-, -, -, hbest⟩
  · exact Nat.le_trans hcpl (Nat.le_trans (Nat.le_of_eq (hnone c hc)) (Nat.zero_le _))
  · exact Nat.le_trans hcpl (hbest c hc).1

/-- Of the candidates that agree on the best length the scan keeps the oldest. -/
theorem State.scan_oldest {s : State} {c : Nat} (hpos : 0 < s.scan.bestLen) (hc : s.candidate c)
    (ha : s.agrees c s.scan.bestLen) : s.scan.bestStart ≤ c := by
  have hcpl := commonPrefix_greatest s.inByte c s.ip s.lengthBound _ s.scan_bestLen_le ha
  rcases s.scan_best with ⟨hzero, -⟩ | ⟨-, -, -, hbest⟩
  · omega
  · obtain ⟨hle, hold⟩ := hbest c hc
    exact hold (Nat.le_antisymm hle hcpl)

/-- The best length is below 2 exactly when no candidate agrees with the cursor on 2 bytes. -/
theorem State.scan_bestLen_lt_two_iff (s : State) :
    s.scan.bestLen < 2 ↔ ∀ c k, s.candidate c → k ≤ s.lengthBound → s.agrees c k → k < 2 := by
  refine ⟨fun hl c k hc hk ha => Nat.lt_of_le_of_lt (State.scan_longest hc hk ha) hl, fun hall => ?_⟩
  refine Decidable.byContradiction fun hl => ?_
  obtain ⟨hc, ha⟩ := State.scan_agrees (s := s) (by omega)
  exact hl (hall _ _ hc s.scan_bestLen_le ha)

/-- With no candidate, at `ip = 0`, the scan finds nothing and leaves `cand` and `k` alone (log 22). -/
theorem State.scan_no_candidate {s : State} (h0 : s.ip = 0) :
    s.scan.cand = s.cand ∧ s.scan.k = s.k ∧ s.scan.bestLen = 0 := by
  have hcount : s.ip - s.windowStart = 0 := by omega
  rw [State.scan, hcount]
  exact ⟨rfl, rfl, rfl⟩

/-- With a candidate the scan ends at the newest, the byte before the cursor. -/
theorem State.scan_last {s : State} (hpos : 0 < s.ip) : s.scan.cand = s.ip - 1 ∧ s.scan.k ≤ s.lengthBound := by
  have hsize := s.split.windowSize_add_one
  have htwo : 2 ≤ 2 ^ s.split.offsetBits := by cases s.split <;> decide
  have hstart : s.windowStart < s.ip := by
    rw [State.windowStart]
    omega
  have hend : s.windowStart + (s.ip - s.windowStart) - 1 = s.ip - 1 := by omega
  rcases scanFrom_last s.inByte s.ip s.lengthBound (s.ip - s.windowStart) s.windowStart
    { cand := s.cand, k := s.k, bestLen := 0, bestStart := s.bestStart } with ⟨hzero, -⟩ | ⟨-, hcand, hk⟩
  · omega
  · rw [State.scan, hcand, hk]
    exact ⟨hend, commonPrefix_le ..⟩

/-! ### FINDMATCH (R97 to R100) -/

/-- Settles O22: a best length below 2 is a Literal; otherwise the latch is good, and the scan's best is the longest and the
oldest. -/
theorem findMatchReturnsTheOldestLongest : Obligations.FindMatchReturnsTheOldestLongest := by
  intro s hn
  by_cases hl : s.scan.bestLen < 2
  · refine ⟨_, (Effect.findLiteral hn hl).exec_eq, ?_, fun _ => rfl, by simp⟩
    exact iff_of_true rfl (s.scan_bestLen_lt_two_iff.mp hl)
  · have hl2 : 2 ≤ s.scan.bestLen := Nat.not_lt.mp hl
    obtain ⟨hoff, hip, hwin, -, hmax, hend, hagree⟩ := (findMatched_latchGood hn hl2).2 rfl
    have holdest : ∀ c, s.candidate c → s.agrees c s.scan.bestLen → s.ip - c ≤ s.ip - s.scan.bestStart :=
      fun _ hc ha => Nat.sub_le_sub_left (State.scan_oldest (by omega) hc ha) _
    refine ⟨_, (Effect.findMatched hn hl2).exec_eq, ?_, by simp, fun _ => ?_⟩
    · exact iff_of_false (by simp) (mt s.scan_bestLen_lt_two_iff.mpr hl)
    · exact ⟨hl2, s.scan_bestLen_le, hoff, Nat.le_min.mpr ⟨hip, hwin⟩, fun _ _ => State.scan_longest, holdest,
        fun j hj => (hagree j hj).symm, hend, lt_of_le_windowSize hwin, lt_of_le_maxMatch hmax⟩

/-- Settles O21: both results differ from `s` in the scan's registers, the latch and `stage` alone. -/
theorem findMatchWritesOnlyItsRegisters : Obligations.FindMatchWritesOnlyItsRegisters := by
  intro s hn
  have hlast (hpos : 0 < s.ip) :
      s.scan.cand = s.ip - 1 ∧ s.scan.k ≤ s.lengthBound ∧ s.scan.bestLen ≤ s.lengthBound := by
    obtain ⟨hcand, hk⟩ := State.scan_last hpos
    exact ⟨hcand, hk, s.scan_bestLen_le⟩
  by_cases hl : s.scan.bestLen < 2
  · refine ⟨_, (Effect.findLiteral hn hl).exec_eq, rfl, fun _ => ⟨rfl, rfl, rfl, rfl⟩, fun hl2 => ?_,
      State.scan_no_candidate, hlast⟩
    exact absurd hl (Nat.not_lt.mpr hl2)
  · refine ⟨_, (Effect.findMatched hn (Nat.not_lt.mp hl)).exec_eq, rfl, fun hl1 => ?_, fun _ => ⟨rfl, rfl, rfl, rfl⟩,
      State.scan_no_candidate, hlast⟩
    exact absurd hl1 hl

/-! ### Outside the `requires` clause (log 8, log 10) -/

theorem requiring_of_false {p : Bool} {o : Result} (h : p = false) : requiring p o = .fault .requiresViolated :=
  requiring_fault.mpr (.inl ⟨h, rfl⟩)

theorem requiring_of_not {p : Prop} [Decidable p] {o : Result} (h : ¬ p) :
    requiring (decide p) o = .fault .requiresViolated :=
  requiring_of_false (decide_eq_false h)

/-- A MATCH of the instance's split with no group open, or at a literal position (42_decompressor.md R136). -/
theorem matchToken_of_requires_fails {s : State} {off len : Nat} (h : s.bit = 0#8 ∨ s.tag &&& s.bit ≠ 0#8) :
    matchToken s.split off len s = .fault .requiresViolated := by
  rw [matchToken, if_pos rfl]
  refine requiring_of_false (Bool.and_eq_false_iff.mpr ?_)
  exact h.imp (fun hb => by simp [hb]) (fun ht => by simp [State.tagBitSet_true.mpr ht])

/-- A MATCH of another split (30_encoding.md R74). -/
theorem matchToken_of_other_split {l : LengthBits} {s : State} {off len : Nat} (h : s.split ≠ l) :
    matchToken l off len s = .fault .otherLengthBits := if_neg h

/-- Settles O36: the condition of each clause denies the `requires` clause of its operation. -/
theorem outsideRequiresTheModelStops : Obligations.OutsideRequiresTheModelStops := by
  intro s
  have opening : s.bit ≠ 0#8 ∨ s.n ≤ s.ip → ¬ (s.bit = 0#8 ∧ s.ip < s.n) :=
    fun h ⟨hb, hn⟩ => h.elim (· hb) (Nat.not_le.mpr hn)
  refine ⟨fun h => ?_, fun h => ?_, fun h => ?_, fun h => ?_, fun b h => ?_, fun b h => ?_, fun i l off len hi hl h => ?_,
    fun i l off len hi hl => ?_, fun h => ?_, fun h => ?_⟩
  · exact requiring_of_not (Nat.not_lt.mpr h)
  · exact requiring_of_not (opening h)
  · exact requiring_of_not fun ⟨hb, hk⟩ => h.elim hb (by simp [hk])
  · exact requiring_of_not fun ⟨hb, hk⟩ => h.elim hb (by simp [hk])
  · exact requiring_of_not (opening h)
  · exact requiring_of_false (by simp [State.tagBitSet_false.mpr h])
  · subst hl
    rw [eq_ofMatch hi, exec_ofMatch]
    exact matchToken_of_requires_fails h
  · rw [eq_ofMatch hi, exec_ofMatch]
    exact matchToken_of_other_split hl
  · exact requiring_of_not (by omega)
  · exact requiring_of_not (· h)

end Sys2Proof.Machine
end

section
/-! The token encoder's operations (41_token_encoder.md R111 to R117): where each writes OUT, below the limit and nowhere
else. -/

namespace Sys2Proof.Machine

/-- One byte of OUT after a guarded write, with the guard at the byte read. -/
theorem State.gwrite_read_at (s : State) (a x : Nat) (v : Byte) :
    (s.gwrite a v).outMem.read x = if x = a ∧ x < s.limit then some v else s.outMem.read x := by
  have hguard : (x = a ∧ a < s.limit) = (x = a ∧ x < s.limit) := propext (and_congr_right fun h => by rw [h])
  simp only [State.gwrite_read, hguard]

/-- Settles O23: one guarded write, at `op`. -/
theorem openGroupReservesTheTagByte : Obligations.OpenGroupReservesTheTagByte :=
  fun s hb hn => ⟨_, (Effect.openGroup hb hn).exec_eq, rfl, fun a => s.gwrite_read_at s.op a _⟩

/-- Settles O24: two guarded writes, the tag byte's last. -/
theorem emitLitWritesByteAndTag : Obligations.EmitLitWritesByteAndTag := by
  intro s hb hk
  refine ⟨_, (Effect.emitLit hb hk).exec_eq, rfl, fun a => ?_⟩
  rw [State.gwrite_read_at, State.gwrite_read_at]
  rfl

/-- The high and the low byte of a packed value, as numbers (30_encoding.md R75). -/
theorem pack_bytes (l : LengthBits) (off len : Nat) :
    hiByte (pack l off len) = BitVec.ofNat 8 (((off <<< l.toNat) ||| (len &&& l.maxMatch)) % 65536 / 256) ∧
    loByte (pack l off len) = BitVec.ofNat 8 (((off <<< l.toNat) ||| (len &&& l.maxMatch)) % 65536 % 256) := by
  rw [hiByte_eq_ofNat, loByte_eq_ofNat, pack, BitVec.toNat_ofNat]
  exact ⟨rfl, rfl⟩

/-- Settles O25: two guarded writes at different indices, the low byte's last. -/
theorem emitMatchWritesThePackedValue : Obligations.EmitMatchWritesThePackedValue := by
  intro s hb hk
  refine ⟨_, (Effect.emitMatch hb hk).exec_eq, rfl, fun a => ?_⟩
  obtain ⟨hhi, hlo⟩ := pack_bytes s.split s.tokOff s.tokLen
  rw [← hhi, ← hlo, State.gwrite_read_at, State.gwrite_read_at]
  by_cases ha : a = s.op
  · have hne : a ≠ s.op + 1 := by omega
    simp [ha]
  · simp [ha]

end Sys2Proof.Machine
end

section
/-! Runs of a command on two OUT sides (41_token_encoder.md R120, R121; 42_decompressor.md R143, R144): nothing outside OUT
depends on the limit or on OUT, and below the smaller of two limits OUT is the same. -/

namespace Sys2Proof.Machine

/-- What a sizing run and a filling run may differ in: the limit, OUT, and the draws made for it. -/
structure OutSide where
  outLimit : Word
  outMem   : Memory
  outEpoch : Nat
  draws    : Nat
  illRef   : Bool

/-- `s` with another OUT side. -/
def State.withOut (s : State) (r : OutSide) : State :=
  { s with outLimit := r.outLimit, outMem := r.outMem, outEpoch := r.outEpoch, draws := r.draws, illRef := r.illRef }

/-- What `s` holds on its OUT side. -/
def State.outSide (s : State) : OutSide where
  outLimit := s.outLimit
  outMem   := s.outMem
  outEpoch := s.outEpoch
  draws    := s.draws
  illRef   := s.illRef

/-- States that are the same but for OUT are the same state with two OUT sides. -/
theorem State.SameButOut.eq_withOut {s u : State} (h : s.SameButOut u) : u = s.withOut u.outSide := h

/-- The limit of `u` is at least that of `s`, and below the limit of `s` both hold the same OUT. As long as `s` may still
write there, both have made the same draws (log 6). -/
structure State.Covers (u s : State) : Prop where
  limit : s.limit ≤ u.limit
  epoch : u.outEpoch = s.outEpoch
  draws : s.op < s.limit → u.draws = s.draws
  read : ∀ a, a < s.limit → u.outMem.read a = s.outMem.read a

/-- A pair of states with these OUT sides, and `op` not moved back, is still covered. -/
theorem State.Covers.keep {s u t w : State} (h : u.Covers s) (ht : t.outSide = s.outSide) (hw : w.outSide = u.outSide)
    (hop : s.op ≤ t.op) : w.Covers t := by
  obtain ⟨htl, htm, hte, htd, -⟩ := OutSide.mk.inj ht
  obtain ⟨hwl, hwm, hwe, hwd, -⟩ := OutSide.mk.inj hw
  have htl : t.limit = s.limit := congrArg BitVec.toNat htl
  have hwl : w.limit = u.limit := congrArg BitVec.toNat hwl
  refine ⟨htl ▸ hwl ▸ h.limit, hte ▸ hwe ▸ h.epoch, fun hl => ?_, fun a ha => ?_⟩
  · rw [htd, hwd]
    exact h.draws (by omega)
  · rw [htm, hwm]
    exact h.read a (htl ▸ ha)

/-- The same guarded write on both sides keeps OUT the same below the smaller limit. -/
theorem State.Covers.gwrite {s u : State} (h : u.Covers s) (a : Nat) (v : Byte) : (u.gwrite a v).Covers (s.gwrite a v) where
  limit := h.limit
  epoch := h.epoch
  draws := h.draws
  read := fun x (hx : x < s.limit) => by
    have hx' := Nat.lt_of_lt_of_le hx h.limit
    simp only [State.gwrite_read_at, hx, hx', and_true, h.read x hx]

/-- Whether a copy step has a source byte is a matter of `op` and the offset. -/
theorem State.wellReferenced_congr {s u : State} (hop : u.op = s.op) (hoff : u.mOff = s.mOff) :
    u.wellReferenced = s.wellReferenced := by
  rw [State.wellReferenced, hop, hoff]
  rfl

/-- Below the smaller limit a copy step writes the same byte on both sides, and spends the same draw. -/
theorem State.Covers.copiedByte {s u : State} (h : u.Covers s) (hop : u.op = s.op) (hoff : u.mOff = s.mOff)
    (hl : s.op < s.limit) : u.copiedByte = s.copiedByte := by
  rw [State.copiedByte, State.copiedByte, State.wellReferenced_congr hop hoff, h.draws hl, hop, hoff]
  split
  · rw [State.outByte, State.outByte, h.epoch, h.read _ (by omega)]
  · rfl

/-- A copy step keeps OUT the same below the smaller limit: at or above it, neither side writes there. -/
theorem State.Covers.copyByte {s u : State} (h : u.Covers s) (hop : u.op = s.op) (hoff : u.mOff = s.mOff) (c : Nat)
    (g : Stage) :
    State.Covers { u.copyWrite with op := u.op + 1, cnt := c, stage := g }
      { s.copyWrite with op := s.op + 1, cnt := c, stage := g } where
  limit := h.limit
  epoch := h.epoch
  draws := fun (hl : s.op + 1 < s.limit) => by
    have hl : s.op < s.limit := Nat.lt_of_succ_lt hl
    have hl' : u.op < u.limit := hop ▸ Nat.lt_of_lt_of_le hl h.limit
    simp [State.illReferencedStep, hl, hl', State.wellReferenced_congr hop hoff, h.draws hl]
  read := fun a (ha : a < s.limit) => by
    show (u.gwrite u.op u.copiedByte).outMem.read a = (s.gwrite s.op s.copiedByte).outMem.read a
    by_cases hl : s.op < s.limit
    · rw [h.copiedByte hop hoff hl, hop]
      exact (h.gwrite s.op s.copiedByte).read a ha
    · have hne : a ≠ s.op := by omega
      simp only [State.gwrite_read_at, hop, hne, false_and, if_false, h.read a ha]

/-- A literal's copy keeps OUT the same below the smaller limit: where it writes, it is a guarded write. -/
theorem State.Covers.read_litWrite {s u : State} (h : u.Covers s) (c : Prop) [Decidable c] (x : Nat) (v : Byte) (a : Nat)
    (ha : a < s.limit) :
    Memory.read (if c ∧ x < u.limit then u.outMem.write x v else u.outMem) a =
      Memory.read (if c ∧ x < s.limit then s.outMem.write x v else s.outMem) a := by
  by_cases hc : c
  · simp only [hc, true_and]
    exact (h.gwrite x v).read a ha
  · simp only [hc, false_and, if_false]
    exact h.read a ha

/-- The fetch does not see the OUT side. -/
theorem fetch_withOut (s : State) (r : OutSide) : (s.withOut r).fetch = s.fetch := rfl

/-- An engine's operation does the same on another OUT side, and on a covering one leaves a covering one. -/
theorem exec_withOut {i : Instr} {s t : State} (hsel : s.Selects i) (he : exec i s = .next t) (r : OutSide) :
    ∃ w, exec i (s.withOut r) = .next w ∧ t.SameButOut w ∧ ((s.withOut r).Covers s → w.Covers t) := by
  cases exec_effect he with
  | ignored i hi => exact absurd hsel (State.not_selects_command hi)
  | startedEmpty i m hi | started i m hi =>
    exact absurd hsel (State.not_selects_command (hi.imp And.left And.left))
  | tag b hb hn => exact ⟨_, Effect.exec_eq (.tag b hb hn), rfl, fun h => h.keep rfl rfl (Nat.le_refl _)⟩
  | lit b hb ht =>
    exact ⟨_, Effect.exec_eq (.lit b hb ht), rfl, fun h =>
      ⟨h.limit, h.epoch, fun hl => h.draws (Nat.lt_of_succ_lt hl), h.read_litWrite _ _ _⟩⟩
  | matchRead i off len hi hb ht hn =>
    exact ⟨_, Effect.exec_eq (.matchRead i off len hi hb ht hn), rfl, fun h => h.keep rfl rfl (Nat.le_refl _)⟩
  | matchSkip i off len hi hb ht hn =>
    exact ⟨_, Effect.exec_eq (.matchSkip i off len hi hb ht hn), rfl, fun h => h.keep rfl rfl (Nat.le_refl _)⟩
  | findLiteral hn hl =>
    exact ⟨_, Effect.exec_eq (.findLiteral hn hl), rfl, fun h => h.keep rfl rfl (Nat.le_refl _)⟩
  | findMatched hn hl =>
    exact ⟨_, Effect.exec_eq (.findMatched hn hl), rfl, fun h => h.keep rfl rfl (Nat.le_refl _)⟩
  | openGroup hb hn =>
    exact ⟨_, Effect.exec_eq (.openGroup hb hn), rfl, fun h => (h.gwrite _ _).keep rfl rfl (Nat.le_add_right _ 1)⟩
  | emitLit hb hk =>
    exact ⟨_, Effect.exec_eq (.emitLit hb hk), rfl, fun h =>
      ((h.gwrite _ _).gwrite _ _).keep rfl rfl (Nat.le_add_right _ 1)⟩
  | emitMatch hb hk =>
    exact ⟨_, Effect.exec_eq (.emitMatch hb hk), rfl, fun h =>
      ((h.gwrite _ _).gwrite _ _).keep rfl rfl (Nat.le_add_right _ 2)⟩
  | copyByte hc => exact ⟨_, Effect.exec_eq (.copyByte hc), rfl, fun h => h.copyByte rfl rfl _ _⟩
  | complete hb hn ho =>
    exact ⟨_, Effect.exec_eq (.complete hb hn ho), rfl, fun h => h.keep rfl rfl (Nat.le_refl _)⟩
  | nextGroup hb hn hz =>
    exact ⟨_, Effect.exec_eq (.nextGroup hb hn hz), rfl, fun h => h.keep rfl rfl (Nat.le_refl _)⟩
  | nextToken hb hn hz =>
    exact ⟨_, Effect.exec_eq (.nextToken hb hn hz), rfl, fun h => h.keep rfl rfl (Nat.le_refl _)⟩

/-- `u` is at the same point of the same command as `s`, on another OUT side, which under the condition `c` covers that of
`s`. -/
structure State.SameRunButOut (c : Prop) (s u : State) : Prop where
  host : s.host = []
  same : s.SameButOut u
  covers : c → u.Covers s

/-- A step of the first run is followed in the second. -/
theorem State.SameRunButOut.step {c : Prop} {s u t : State} (h : s.SameRunButOut c u) (he : Machine.step s = .next t) :
    ∃ w, Machine.step u = .next w ∧ t.SameRunButOut c w := by
  obtain ⟨hh, hsame, hcov⟩ := h
  rw [hsame.eq_withOut] at hcov ⊢
  generalize u.outSide = r at hcov ⊢
  rw [step_of_host_nil hh] at he
  rw [step_of_host_nil (s := s.withOut r) hh, fetch_withOut]
  cases hf : s.fetch with
  | none =>
    obtain rfl := Host.Outcome.next.inj (hf ▸ he)
    exact ⟨_, rfl, hh, rfl, hcov⟩
  | some i =>
    have he : exec i s = .next t := by simpa [hf] using he
    obtain ⟨-, -, -, -, -, hhost, -⟩ := exec_frame he
    obtain ⟨w, hw, hsame, hkeep⟩ := exec_withOut (fetch_selects hf) he r
    exact ⟨w, hw, hhost.trans hh, hsame, fun hc => hkeep (hcov hc)⟩

/-- From prepared states a command starts the same run on both OUT sides. -/
theorem State.SameButOut.command {c : Prop} {i : Instr} {s u t : State} (h : s.SameButOut u)
    (hcov : c → ∀ m, (u.started m).Covers (s.started m)) (hi : isCommand i) (hs : s.Ready) (hu : u.Ready)
    (he : exec i s = .next t) : ∃ w, exec i u = .next w ∧ t.SameRunButOut c w := by
  obtain ⟨m, hm⟩ := exec_command hi
  rw [hm, startCommand_ready hs] at he
  rw [hm, startCommand_ready hu]
  rw [h.eq_withOut] at hcov ⊢
  generalize u.outSide = r at hcov ⊢
  obtain ⟨-, -, hh, -⟩ := hs
  refine ⟨_, rfl, ?_⟩
  rw [← Host.Outcome.next.inj he, show (s.withOut r).n = s.n from rfl]
  split
  · exact ⟨hh, rfl, fun hc => (hcov hc m).keep rfl rfl (Nat.le_refl _)⟩
  · exact ⟨hh, rfl, fun hc => hcov hc m⟩

/-- A whole command on two OUT sides. -/
theorem State.SameButOut.runCommand {c : Prop} {i : Instr} {k : Nat} {s u t : State} (h : s.SameButOut u)
    (hcov : c → ∀ m, (u.started m).Covers (s.started m)) (hi : isCommand i) (hs : s.Ready) (hu : u.Ready)
    (he : Machine.runCommand i k s = .next t) : ∃ w, Machine.runCommand i k u = .next w ∧ t.SameRunButOut c w := by
  obtain ⟨s', hstart, hrun⟩ := runCommand_next.mp he
  obtain ⟨u', hstart', h'⟩ := h.command hcov hi hs hu hstart
  obtain ⟨w, hrun', hw⟩ := steps_simulate State.SameRunButOut.step h' hrun
  exact ⟨w, runCommand_next.mpr ⟨u', hstart', hrun'⟩, hw⟩

/-- No operation changes the limit. -/
theorem runCommand_limit {i : Instr} {k : Nat} {s t : State} (hi : isCommand i) (hs : s.Ready)
    (he : runCommand i k s = .next t) : t.limit = s.limit := by
  obtain ⟨u, hstart, hrun⟩ := runCommand_next.mp he
  exact (steps_keeps State.KeepsOut.step (hs.keepsOut hi hstart) hrun).limit

/-- Settles O46: the second run follows the first, the same but for its OUT side. -/
theorem sizingRunAgreesWithFillingRun : Obligations.SizingRunAgreesWithFillingRun := by
  intro i s u hi hs hu h k t he
  obtain ⟨w, hw, hrun⟩ := h.runCommand (c := False) nofun hi hs hu he
  refine ⟨w, hw, ?_⟩
  rw [hrun.same]
  exact ⟨rfl, rfl, rfl, rfl⟩

/-- Settles O47: the second run follows the first, and covers it. -/
theorem truncatedOutputIsAPrefix : Obligations.TruncatedOutputIsAPrefix := by
  intro i s u hi hs hu h hl k t he
  have hsame : s.SameButOut u := by rw [h]
  have hcov : ∀ m, (u.started m).Covers (s.started m) := by
    rw [h] at hl ⊢
    exact fun _ => ⟨hl, rfl, fun _ => rfl, fun _ _ => rfl⟩
  obtain ⟨w, hw, hrun⟩ := hsame.runCommand (c := True) (fun _ => hcov) hi hs hu he
  refine ⟨w, hw, by rw [hrun.same], fun a ha => ?_⟩
  exact (hrun.covers trivial).read a (by rwa [runCommand_limit hi hs he])

end Sys2Proof.Machine
end

section
/-! Listings that grow token by token (30_encoding.md R84): closed groups, then an open group whose tag byte is still to be
patched (41_token_encoder.md R113). -/

namespace Sys2Proof

/-- The closed groups `closed`, then a group with tokens `toks` that has the tag byte `t` so far, represent `p` plain bytes, and
may go on with any items that are well formed from there: with any tag byte that has the bits of `t` for these tokens. -/
def ListingPrefix (l : LengthBits) (closed toks : List Instr) (t : Byte) (p : Nat) : Prop :=
  ∀ t' rest, (∀ j, j < toks.length → t'.getLsbD j = t.getLsbD j) →
    encoderOutputFrom l rest (some ⟨t', toks.length⟩) p = true →
    encoderOutput l (closed ++ .tag t' :: (toks ++ rest)) = true

theorem ListingPrefix.first (l : LengthBits) (t : Byte) : ListingPrefix l [] [] t 0 := fun _ _ _ h => h

theorem OpenGroup.expects_of {t : Byte} {k : Nat} {literal : Bool} (hk : k < 8) (hb : t.getLsbD k = literal) :
    OpenGroup.expects ⟨t, k⟩ literal = true := by
  rw [OpenGroup.expects, hb]
  simp [hk]

/-- A literal may follow in the open group, with its tag bit set. -/
theorem ListingPrefix.lit {l : LengthBits} {closed toks : List Instr} {t t' : Byte} {p : Nat}
    (h : ListingPrefix l closed toks t p) (hlen : toks.length < 8)
    (hlow : ∀ j, j < toks.length → t'.getLsbD j = t.getLsbD j)
    (hbit : t'.getLsbD toks.length = true) (b : Byte) : ListingPrefix l closed (toks ++ [.lit b]) t' (p + 1) := by
  intro t'' rest hsame hrest
  rw [List.length_append, List.length_singleton] at hsame hrest
  rw [List.append_assoc]
  refine h t'' _ (fun j hj => (hsame j (by omega)).trans (hlow j hj)) ?_
  have hexp := OpenGroup.expects_of hlen ((hsame _ (Nat.lt_succ_self _)).trans hbit)
  exact Bool.and_eq_true_iff.mpr ⟨hexp, hrest⟩

/-- A match in the encoder's ranges may follow in the open group, with its tag bit clear. -/
theorem ListingPrefix.matched {l : LengthBits} {closed toks : List Instr} {t : Byte} {p off len : Nat}
    (h : ListingPrefix l closed toks t p) (hlen : toks.length < 8) (hbit : t.getLsbD toks.length = false)
    (hrange : l.produces off len = true) (hoff : off ≤ p) :
    ListingPrefix l closed (toks ++ [Instr.ofMatch l off len]) t (p + len) := by
  intro t' rest hsame hrest
  rw [List.length_append, List.length_singleton] at hsame hrest
  rw [List.append_assoc]
  refine h t' _ (fun j hj => hsame j (by omega)) ?_
  have hexp := OpenGroup.expects_of hlen ((hsame _ (Nat.lt_succ_self _)).trans hbit)
  have hcons : encoderOutputFrom l (Instr.ofMatch l off len :: rest) (some ⟨t', toks.length⟩) p =
      (decide (l = l) && OpenGroup.expects ⟨t', toks.length⟩ false && l.produces off len && decide (off ≤ p) &&
        encoderOutputFrom l rest (some ⟨t', toks.length + 1⟩) (p + len)) := by cases l <;> rfl
  rw [List.singleton_append, hcons, hexp, hrange, hrest]
  simp [hoff]

/-- After eight tokens a new group may follow. -/
theorem ListingPrefix.close {l : LengthBits} {closed toks : List Instr} {t : Byte} {p : Nat}
    (h : ListingPrefix l closed toks t p) (hlen : toks.length = 8) (t' : Byte) :
    ListingPrefix l (closed ++ .tag t :: toks) [] t' p := by
  intro t'' rest _ hrest
  have hclose : OpenGroup.mayClose ⟨t, toks.length⟩ false = true := by simp [OpenGroup.mayClose, hlen]
  have := h t (.tag t'' :: rest) (fun _ _ => rfl) (Bool.and_eq_true_iff.mpr ⟨hclose, hrest⟩)
  simpa using this

/-- After one to eight tokens the listing may end. -/
theorem ListingPrefix.output {l : LengthBits} {closed toks : List Instr} {t : Byte} {p : Nat}
    (h : ListingPrefix l closed toks t p) (hpos : 1 ≤ toks.length) (hlen : toks.length ≤ 8) :
    encoderOutput l (closed ++ .tag t :: toks) = true := by
  have hclose : OpenGroup.mayClose ⟨t, toks.length⟩ true = true := by simp [OpenGroup.mayClose, hpos, hlen]
  simpa using h t [] (fun _ _ => rfl) hclose

/-! ### The tag byte and the bit cursor (41_token_encoder.md R112) -/

/-- Setting the cursor's bit leaves the bits below it. -/
theorem tag_or_cursor_low (t : Byte) {k j : Nat} (hj : j < k) : (t ||| 1#8 <<< k).getLsbD j = t.getLsbD j := by
  simp [hj]

theorem tag_or_cursor_bit (t : Byte) {k : Nat} (hk : k < 8) : (t ||| 1#8 <<< k).getLsbD k = true := by
  simp [hk]

/-- A tag below the cursor has the cursor's bit clear. -/
theorem tag_cursor_clear {t : Byte} {k : Nat} (h : t.toNat < (1#8 <<< k).toNat) : t.getLsbD k = false := by
  have hpow : (1#8 <<< k).toNat ≤ 2 ^ k := by
    rw [BitVec.toNat_shiftLeft, Nat.shiftLeft_eq]
    exact Nat.le_trans (Nat.mod_le _ _) (Nat.le_of_eq (Nat.one_mul _))
  exact Nat.testBit_lt_two_pow (Nat.lt_of_lt_of_le h hpow)

/-! ### The bytes of a growing listing -/

@[simp] theorem assemble_append (xs ys : List Instr) : assemble (xs ++ ys) = assemble xs ++ assemble ys :=
  List.flatMap_append

@[simp] theorem assemble_tag (t : Byte) (items : List Instr) : assemble (.tag t :: items) = t :: assemble items := rfl

@[simp] theorem assemble_lit (b : Byte) (items : List Instr) : assemble (.lit b :: items) = b :: assemble items := rfl

@[simp] theorem assemble_ofMatch (l : LengthBits) (off len : Nat) (items : List Instr) :
    assemble (Instr.ofMatch l off len :: items) =
      hiByte (pack l off len) :: loByte (pack l off len) :: assemble items := by
  cases l <;> rfl

/-- A literal emitted: its byte at the end of the stream, and the open group's tag byte patched. -/
theorem assemble_emitLit (closed toks : List Instr) (t t' b : Byte) :
    assemble (closed ++ .tag t' :: (toks ++ [.lit b])) =
      (assemble (closed ++ .tag t :: toks) ++ [b]).set (assemble closed).length t' := by
  simp

/-- A match emitted: its two bytes at the end of the stream. -/
theorem assemble_emitMatch (closed toks : List Instr) (t : Byte) (l : LengthBits) (off len : Nat) :
    assemble (closed ++ .tag t :: (toks ++ [Instr.ofMatch l off len])) =
      assemble (closed ++ .tag t :: toks) ++ [hiByte (pack l off len)] ++ [loByte (pack l off len)] := by
  simp

/-! ### The tokens of a growing listing -/

/-- The items represent a byte for each literal and 2 or more for each match, `p` bytes together; a match is among them only if
the input has a repeat. -/
structure Represents (items : List Instr) (p : Nat) (repeats : Prop) : Prop where
  size : items.countP Instr.isLit + 2 * items.countP Instr.isMatch ≤ p
  literals : ¬ repeats → items.countP Instr.isMatch = 0 ∧ items.countP Instr.isLit = p

theorem Represents.nil (repeats : Prop) : Represents [] 0 repeats := ⟨Nat.le_refl 0, fun _ => ⟨rfl, rfl⟩⟩

/-- Items of a kind other than TAG, counted after one more token and with the open group's tag byte patched. -/
theorem countP_emit {q : Instr → Bool} (hq : ∀ t, q (.tag t) = false) (closed toks : List Instr) (t t' : Byte) (i : Instr) :
    (closed ++ .tag t' :: (toks ++ [i])).countP q = (closed ++ .tag t :: toks).countP q + [i].countP q := by
  simp only [List.countP_append, List.countP_cons, hq]
  omega

section
variable {closed toks : List Instr} {t : Byte} {p : Nat} {repeats : Prop}

theorem Represents.tag (h : Represents closed p repeats) (t : Byte) : Represents (closed ++ [.tag t]) p repeats := by
  have hlit : (closed ++ [Instr.tag t]).countP Instr.isLit = closed.countP Instr.isLit := by simp
  have hmatch : (closed ++ [Instr.tag t]).countP Instr.isMatch = closed.countP Instr.isMatch := by simp [List.countP_append]
  refine ⟨?_, fun hr => ?_⟩
  · rw [hlit, hmatch]
    exact h.size
  · rw [hlit, hmatch]
    exact h.literals hr

theorem Represents.lit (h : Represents (closed ++ .tag t :: toks) p repeats) (t' b : Byte) :
    Represents (closed ++ .tag t' :: (toks ++ [.lit b])) (p + 1) repeats := by
  have hlit := countP_emit isLit_tag closed toks t t' (.lit b)
  have hmatch := countP_emit isMatch_tag closed toks t t' (.lit b)
  rw [show [Instr.lit b].countP Instr.isLit = 1 from rfl] at hlit
  rw [show [Instr.lit b].countP Instr.isMatch = 0 from rfl] at hmatch
  have hsize := h.size
  refine ⟨by omega, fun hr => ?_⟩
  have hall := h.literals hr
  omega

theorem Represents.matched (h : Represents (closed ++ .tag t :: toks) p repeats) (hr : repeats) {len : Nat} (hlen : 2 ≤ len)
    (l : LengthBits) (off : Nat) :
    Represents (closed ++ .tag t :: (toks ++ [Instr.ofMatch l off len])) (p + len) repeats := by
  have hlit := countP_emit isLit_tag closed toks t t (Instr.ofMatch l off len)
  have hmatch := countP_emit isMatch_tag closed toks t t (Instr.ofMatch l off len)
  rw [List.countP_singleton, isLit_ofMatch] at hlit
  rw [List.countP_singleton, isMatch_ofMatch] at hmatch
  have hsize := h.size
  refine ⟨?_, fun hn => absurd hr hn⟩
  simp only [Bool.false_eq_true, if_false, if_true] at hlit hmatch
  omega

end

end Sys2Proof
end

section
/-! Steps and runs of the engine with no host move (43_commands_and_control.md R155, R157, R158). -/

namespace Sys2Proof.Machine

/-- With no host move a step runs the operation fetched. -/
theorem step_of_fetch {s : State} {i : Instr} (hh : s.host = []) (hf : s.fetch = some i) : step s = exec i s := by
  rw [step_of_host_nil hh, hf]

/-- An idle engine with no host move stands still. -/
theorem step_of_idle {s : State} (hh : s.host = []) (hp : s.phase = .idle) : step s = .next s := by
  have hf : s.fetch = none := by rw [State.fetch, hp]
  rw [step_of_host_nil hh, hf]

/-- With no host move a step changes neither the parameters, nor the arguments, nor IN. -/
theorem step_frame {s t : State} (hh : s.host = []) (he : step s = .next t) :
    t.host = [] ∧ t.config = s.config ∧ t.inLen = s.inLen ∧ t.outLimit = s.outLimit ∧ t.inMem = s.inMem := by
  rw [step_of_host_nil hh] at he
  cases hf : s.fetch with
  | none =>
    obtain rfl := Host.Outcome.next.inj (hf ▸ he)
    exact ⟨hh, rfl, rfl, rfl, rfl⟩
  | some i =>
    obtain ⟨hc, hn, hl, hin, -, hhost, -⟩ := exec_frame (i := i) (by simpa [hf] using he)
    exact ⟨hhost.trans hh, hc, hn, hl, hin⟩

/-- One step more at the end of a run. -/
theorem steps_then {k : Nat} {s t : State} (h : steps k s = .next t) : steps (k + 1) s = step t := by
  induction k generalizing s with
  | zero =>
    obtain rfl := Host.Outcome.next.inj h
    rw [steps_succ]
    cases step s <;> rfl
  | succ k ih =>
    obtain ⟨u, hu, h⟩ := steps_succ_next.mp h
    rw [steps_succ, hu]
    exact ih h

/-- A run whose every step comes closer to an end, or meets a stop, reaches one of them. -/
theorem steps_reach {P : State → Nat → Prop} {Ended Stop : State → Prop}
    (hstep : ∀ {t left}, P t left →
      Ended t ∨ (∃ u left', step t = .next u ∧ P u left' ∧ left' < left) ∨ (0 < left ∧ Stop t))
    {t : State} {left : Nat} (h : P t left) :
    ∃ k u, steps k t = .next u ∧ ((k ≤ left ∧ Ended u) ∨ (k < left ∧ Stop u)) := by
  induction left using Nat.strongRecOn generalizing t with
  | ind left ih =>
    rcases hstep h with hend | ⟨t', left', ht', h', hlt⟩ | ⟨hpos, hstop⟩
    · exact ⟨0, t, rfl, .inl ⟨Nat.zero_le _, hend⟩⟩
    · obtain ⟨k, u, hu, hres⟩ := ih left' hlt h'
      refine ⟨k + 1, u, steps_succ_next.mpr ⟨t', ht', hu⟩, ?_⟩
      exact hres.imp (And.imp_left (by omega)) (And.imp_left (by omega))
    · exact ⟨0, t, rfl, .inr ⟨hpos, hstop⟩⟩

end Sys2Proof.Machine
end

section
/-! A running COMPRESS, point by point (41_token_encoder.md R110 to R123): OUT holds the stream of the tokens emitted so far,
which is a listing well formed as encoder output, and every operation brings the end closer. -/

namespace Sys2Proof.Machine

/-! ### OUT as the stream written so far -/

/-- OUT holds the bytes `bs` from index 0 on, as far as the limit lets them be written. -/
def State.Holds (s : State) (bs : List Byte) : Prop := ∀ a, a < s.limit → a < bs.length → s.outMem.read a = bs[a]?

/-- A guarded write right after the bytes adds one. -/
theorem State.Holds.append {s : State} {bs : List Byte} (h : s.Holds bs) {a : Nat} (ha : a = bs.length) (v : Byte) :
    (s.gwrite a v).Holds (bs ++ [v]) := by
  intro x hl hx
  rw [List.length_append, List.length_singleton] at hx
  have hl : x < s.limit := hl
  rw [State.gwrite_read_at]
  by_cases hxa : x = bs.length
  · rw [if_pos ⟨hxa.trans ha.symm, hl⟩]
    simp [hxa]
  · have hlt : x < bs.length := by omega
    rw [if_neg (by omega), List.getElem?_append_left hlt]
    exact h x hl hlt

/-- A guarded write among the bytes replaces one. -/
theorem State.Holds.set {s : State} {bs : List Byte} (h : s.Holds bs) (a : Nat) (v : Byte) :
    (s.gwrite a v).Holds (bs.set a v) := by
  intro x hl hx
  rw [List.length_set] at hx
  have hl : x < s.limit := hl
  rw [State.gwrite_read_at]
  by_cases hxa : x = a
  · rw [if_pos ⟨hxa, hl⟩]
    subst hxa
    simp [hx]
  · rw [if_neg (fun e => hxa e.1), List.getElem?_set_ne (Ne.symm hxa)]
    exact h x hl hx

/-! ### The listing emitted so far -/

/-- The input has two bytes that a candidate in the window of a cursor position agrees with (41_token_encoder.md R122). -/
def State.HasRepeat (s : State) : Prop :=
  ∃ p c, p + 2 ≤ s.n ∧ p - s.split.windowSize ≤ c ∧ c < p ∧ s.inByte c = s.inByte p ∧ s.inByte (c + 1) = s.inByte (p + 1)

/-- The items have been emitted: their stream lies in OUT below `op`, and they represent the bytes that `ip` has passed. -/
structure State.Encoded (s : State) (items : List Instr) : Prop where
  op : s.op = (assemble items).length
  out : s.Holds (assemble items)
  input : Represents items s.ip s.HasRepeat

/-- The whole input has been encoded. -/
structure State.EncodedAll (s : State) : Prop where
  ip : s.ip = s.n
  listing : ∃ items, encoderOutput s.split items = true ∧ s.Encoded items

/-- The size of a listing (30_encoding.md R81), with the tokens counted by kind. -/
theorem length_assemble {l : LengthBits} {items : List Instr} (h : encoderOutput l items = true) :
    (assemble items).length = (items.countP Instr.isLit + items.countP Instr.isMatch + 7) / 8 +
      items.countP Instr.isLit + 2 * items.countP Instr.isMatch := streamSizeOfAListing l items h

/-- The stream is no longer than the input and a byte for every eight bytes of it (41_token_encoder.md R123). -/
theorem State.EncodedAll.op_le {s : State} (h : s.EncodedAll) : s.op ≤ s.n + (s.n + 7) / 8 := by
  obtain ⟨hip, items, hout, hop, -, hsize, -⟩ := h
  have hlen := length_assemble hout
  omega

/-- Without a repeat the stream is exactly that long (41_token_encoder.md R122). -/
theorem State.EncodedAll.op_eq {s : State} (h : s.EncodedAll) (hr : ¬ s.HasRepeat) : s.op = s.n + (s.n + 7) / 8 := by
  obtain ⟨hip, items, hout, hop, -, -, hlit⟩ := h
  obtain ⟨hmatches, hlits⟩ := hlit hr
  have hlen := length_assemble hout
  omega

/-! ### The points of a run -/

/-- Between two groups, with input left. -/
structure State.AtTag (s : State) : Prop where
  phase : s.phase = .awaitingTag
  mode : s.mode = .compress
  stage : s.stage = .token
  cursor : s.bit = 0#8
  input : s.ip < s.n
  listing : ∃ closed, ListingPrefix s.split closed [] 0 s.ip ∧ s.Encoded closed

/-- In a group, at token `g`, with `k` tokens emitted. -/
structure State.InGroup (s : State) (stage : Stage) (g k : Nat) : Prop where
  phase : s.phase = .processingGroup
  mode : s.mode = .compress
  stage_eq : s.stage = stage
  cursor : s.bit = 1#8 <<< g
  cursor_lt : g < 8
  good : s.CompressGood
  listing : ∃ closed toks, toks.length = k ∧ s.tagpos = (assemble closed).length ∧
    ListingPrefix s.split closed toks s.tag s.ip ∧ s.Encoded (closed ++ .tag s.tag :: toks)

/-- COMPRESS has completed. -/
structure State.AtEnd (s : State) : Prop where
  completed : s.Completed
  result : s.result.toNat = s.op
  encoded : s.EncodedAll

/-- The points of a COMPRESS between two operations, each with a bound on the operations still to come: at most four for each
byte of input left (41_token_encoder.md R110, R115). -/
inductive State.CompressPoint (s : State) : (left : Nat) → Prop
  | ended (h : s.AtEnd) : s.CompressPoint 0
  | tag (h : s.AtTag) : s.CompressPoint (4 * (s.n - s.ip))
  | token (g : Nat) (h : s.InGroup .token g g) : s.CompressPoint (4 * (s.n - s.ip) - 1)
  | body (g : Nat) (h : s.InGroup .body g g) : s.CompressPoint (4 * (s.n - s.ip) - 2)
  | advance (g : Nat) (h : s.InGroup .advance g (g + 1)) : s.CompressPoint (4 * (s.n - s.ip) + 1)

/-- The input is encoded, but `op` has left 32 bits: the completion is refused (U4, log 12). -/
structure State.OutOfDomain (s : State) : Prop where
  refused : step s = .refused .resultOutOfDomain
  op : 2 ^ 32 ≤ s.op
  encoded : s.EncodedAll

/-! ### The operations from point to point -/

theorem State.AtTag.openGroup {s : State} (h : s.AtTag) :
    State.InGroup { s.gwrite s.op 0#8 with
      tagpos := s.op, tag := 0#8, op := s.op + 1, bit := 1#8, phase := .processingGroup, stage := .token } .token 0 0 := by
  obtain ⟨closed, hpre, hop, hout, hin⟩ := h.listing
  refine ⟨rfl, h.mode, rfl, rfl, by decide, openGroup_compressGood h.input, closed, [], rfl, hop, hpre, ?_, ?_, hin.tag 0#8⟩
  · simp [hop]
  · rw [assemble_append]
    exact hout.append hop 0#8

/-- FINDMATCH emits nothing. -/
theorem State.InGroup.find {s : State} {g : Nat} (h : s.InGroup .token g g) {kind : TokenKind} {byte : Byte} {off len : Nat}
    (hl : State.LatchGood { s.withScan s.scan with
      tokKind := kind, tokByte := byte, tokOff := off, tokLen := len, stage := .body }) :
    State.InGroup { s.withScan s.scan with
      tokKind := kind, tokByte := byte, tokOff := off, tokLen := len, stage := .body } .body g g := by
  obtain ⟨closed, toks, hk, hpos, hpre, hop, hout, hin⟩ := h.listing
  exact ⟨h.phase, h.mode, rfl, h.cursor, h.cursor_lt, findMatch_compressGood h.good h.stage_eq hl,
    closed, toks, hk, hpos, hpre, hop, hout, hin⟩

theorem State.InGroup.oneHot {s : State} {stage : Stage} {g k : Nat} (h : s.InGroup stage g k) : oneHot s.bit :=
  ⟨g, h.cursor_lt, h.cursor⟩

theorem State.InGroup.emitLit {s : State} {g : Nat} (h : s.InGroup .body g g) :
    State.InGroup { (s.gwrite s.op s.tokByte).gwrite s.tagpos s.tagWithBit with
      op := s.op + 1, tag := s.tagWithBit, ip := s.ip + 1, stage := .advance } .advance g (g + 1) := by
  obtain ⟨closed, toks, rfl, hpos, hpre, hop, hout, hin⟩ := h.listing
  have htag : s.tagWithBit = s.tag ||| 1#8 <<< toks.length := by rw [State.tagWithBit, h.cursor]
  have hbytes := assemble_emitLit closed toks s.tag s.tagWithBit s.tokByte
  refine ⟨h.phase, h.mode, rfl, h.cursor, h.cursor_lt, emitLit_compressGood h.good h.oneHot h.stage_eq,
    closed, toks ++ [.lit s.tokByte], by simp, hpos, ?_, ?_, ?_, hin.lit _ _⟩
  · exact hpre.lit h.cursor_lt (fun j hj => htag ▸ tag_or_cursor_low _ hj) (htag ▸ tag_or_cursor_bit _ h.cursor_lt) _
  · rw [hbytes, List.length_set, List.length_append, ← hop]
    rfl
  · rw [hbytes, ← hpos]
    exact (hout.append hop s.tokByte).set s.tagpos s.tagWithBit

/-- A good match latch is a repeat of the input. -/
theorem State.LatchGood.hasRepeat {s : State} (h : s.LatchGood) (hk : s.tokKind = .matched) : s.HasRepeat := by
  obtain ⟨-, hmatch⟩ := h
  obtain ⟨hoff, hip, hwin, hlen, -, hend, hagree⟩ := hmatch hk
  exact ⟨s.ip, s.ip - s.tokOff, by omega, by omega, by omega, hagree 0 (by omega), hagree 1 hlen⟩

/-- A good match latch is in the encoder's ranges (30_encoding.md R78). -/
theorem State.LatchGood.produces {s : State} (h : s.LatchGood) (hk : s.tokKind = .matched) :
    s.split.produces s.tokOff s.tokLen = true := by
  obtain ⟨-, hmatch⟩ := h
  obtain ⟨hoff, -, hwin, hlen, hmax, -⟩ := hmatch hk
  simp [LengthBits.produces, (s.split.admits_iff_le ..).mpr ⟨hwin, hmax⟩, hoff, hlen]

theorem State.InGroup.emitMatch {s : State} {g : Nat} (h : s.InGroup .body g g) (hk : s.tokKind = .matched) :
    State.InGroup { (s.gwrite s.op (hiByte (pack s.split s.tokOff s.tokLen))).gwrite (s.op + 1)
        (loByte (pack s.split s.tokOff s.tokLen)) with
      op := s.op + 2, ip := s.ip + s.tokLen, stage := .advance } .advance g (g + 1) := by
  obtain ⟨closed, toks, rfl, hpos, hpre, hop, hout, hin⟩ := h.listing
  obtain ⟨-, -, -, hbody, -⟩ := h.good
  obtain ⟨-, htag, hlatch⟩ := hbody h.stage_eq
  obtain ⟨-, hoff, -, hlen, -⟩ := hlatch.2 hk
  have hbytes := assemble_emitMatch closed toks s.tag s.split s.tokOff s.tokLen
  refine ⟨h.phase, h.mode, rfl, h.cursor, h.cursor_lt, emitMatch_compressGood h.good h.stage_eq hk _ _,
    closed, toks ++ [Instr.ofMatch s.split s.tokOff s.tokLen], by simp, hpos, ?_, ?_, ?_,
    hin.matched (hlatch.hasRepeat hk) hlen _ _⟩
  · exact hpre.matched h.cursor_lt (tag_cursor_clear (h.cursor ▸ htag)) (hlatch.produces hk) hoff
  · show s.op + 2 = (assemble (closed ++ .tag s.tag :: (toks ++ [Instr.ofMatch s.split s.tokOff s.tokLen]))).length
    rw [hbytes, List.length_append, List.length_append, ← hop]
    rfl
  · show State.Holds _ (assemble (closed ++ .tag s.tag :: (toks ++ [Instr.ofMatch s.split s.tokOff s.tokLen])))
    rw [hbytes]
    exact (hout.append hop _).append (by rw [List.length_append, ← hop]; rfl) _

/-- NEXT_BIT moves the cursor from token `g` to the next (43_commands_and_control.md R154). -/
theorem shiftCursor_cursor (g : Nat) : shiftCursor (1#8 <<< g) = 1#8 <<< (g + 1) := (BitVec.shiftLeft_add ..).symm

theorem State.InGroup.nextGroup {s : State} (h : s.InGroup .advance 7 8) (hn : s.ip < s.n) :
    State.AtTag { s with bit := shiftCursor s.bit, stage := .token, phase := .awaitingTag } := by
  obtain ⟨closed, toks, hk, -, hpre, henc⟩ := h.listing
  refine ⟨rfl, h.mode, rfl, ?_, hn, _, hpre.close hk 0, henc.op, henc.out, henc.input⟩
  show shiftCursor s.bit = 0#8
  rw [h.cursor, shiftCursor_cursor]
  decide

theorem State.InGroup.nextToken {s : State} {g : Nat} (h : s.InGroup .advance g (g + 1)) (hg : g + 1 < 8) (hn : s.ip < s.n) :
    State.InGroup { s with bit := shiftCursor s.bit, stage := .token, phase := .processingGroup } .token (g + 1) (g + 1) := by
  obtain ⟨closed, toks, hk, hpos, hpre, henc⟩ := h.listing
  have hcursor : shiftCursor s.bit = 1#8 <<< (g + 1) := by rw [h.cursor, shiftCursor_cursor]
  have hz : shiftCursor s.bit ≠ 0#8 := oneHot_ne_zero ⟨g + 1, hg, hcursor⟩
  exact ⟨rfl, h.mode, rfl, hcursor, hg, nextToken_compressGood h.good h.oneHot h.stage_eq hn hz,
    closed, toks, hk, hpos, hpre, henc.op, henc.out, henc.input⟩

/-- At the end of the input a group with a token ends the listing. -/
theorem State.InGroup.encodedAll {s : State} {g : Nat} (h : s.InGroup .advance g (g + 1)) (hn : s.n ≤ s.ip) :
    s.EncodedAll := by
  obtain ⟨closed, toks, hk, -, hpre, henc⟩ := h.listing
  obtain ⟨-, -, -, -, hadv⟩ := h.good
  have hlt := h.cursor_lt
  exact ⟨Nat.le_antisymm (hadv h.stage_eq).1 hn, _, hpre.output (by omega) (by omega), henc⟩

/-- Completion ends the command, wherever the cursor stands (43_commands_and_control.md R156). -/
theorem State.EncodedAll.finish {s : State} (h : s.EncodedAll) (ho : s.op < 2 ^ 32) (b : Byte) (g : Stage) :
    State.AtEnd { s with bit := b, stage := g }.finish := by
  obtain ⟨hip, items, hout, henc⟩ := h
  exact ⟨⟨rfl, rfl⟩, Nat.mod_eq_of_lt ho, hip, items, hout, henc.op, henc.out, henc.input⟩

/-! ### The steps of the engine -/

theorem State.AtTag.step_eq {s : State} (hh : s.host = []) (h : s.AtTag) : step s = exec .openGroup s :=
  step_of_fetch hh (by rw [State.fetch, h.phase, h.mode])

theorem State.InGroup.step_eq {s : State} {stage : Stage} {g k : Nat} (hh : s.host = []) (h : s.InGroup stage g k) :
    step s = exec s.compressOp s :=
  step_of_fetch hh (by rw [State.fetch, h.phase, h.mode])

/-- NEXT_BIT at the end of the input with `op` beyond 32 bits. -/
theorem exec_nextBit_refused {s : State} (hb : s.bit ≠ 0#8) (hn : s.n ≤ s.ip) (ho : 2 ^ 32 ≤ s.op) :
    exec .nextBit s = .refused .resultOutOfDomain :=
  requiring_refused.mpr ⟨decide_eq_true hb, (if_pos hn).trans (complete_refused.mpr ⟨ho, rfl⟩)⟩

/-- An idle engine is at the end. -/
theorem State.CompressPoint.atEnd {s : State} {left : Nat} (h : s.CompressPoint left) (hp : s.phase = .idle) : s.AtEnd := by
  cases h with
  | ended h => exact h
  | tag h =>
    rw [h.phase] at hp
    cases hp
  | token g h | body g h | advance g h =>
    rw [h.phase] at hp
    cases hp

/-- A step leads to a point with fewer operations to come. -/
def State.Approaches (s : State) (left : Nat) : Prop :=
  ∃ t left', step s = .next t ∧ t.CompressPoint left' ∧ left' < left

theorem State.AtTag.approaches {s : State} (hh : s.host = []) (h : s.AtTag) : s.Approaches (4 * (s.n - s.ip)) := by
  have hin := h.input
  refine ⟨_, _, (h.step_eq hh).trans (Effect.openGroup h.cursor hin).exec_eq, .token 0 h.openGroup, ?_⟩
  show 4 * (s.n - s.ip) - 1 < 4 * (s.n - s.ip)
  omega

theorem State.InGroup.token_approaches {s : State} {g : Nat} (hh : s.host = []) (h : s.InGroup .token g g) :
    s.Approaches (4 * (s.n - s.ip) - 1) := by
  obtain ⟨-, -, htoken, -⟩ := h.good
  have hin := (htoken h.stage_eq).1
  have hop : step s = exec .findMatch s := by rw [h.step_eq hh, State.compressOp, h.stage_eq]
  have hlt : 4 * (s.n - s.ip) - 2 < 4 * (s.n - s.ip) - 1 := by omega
  by_cases hl : s.scan.bestLen < 2
  · exact ⟨_, _, hop.trans (Effect.findLiteral hin hl).exec_eq, .body g (h.find ⟨fun _ => rfl, by simp⟩), hlt⟩
  · have hl := Nat.not_lt.mp hl
    exact ⟨_, _, hop.trans (Effect.findMatched hin hl).exec_eq, .body g (h.find (findMatched_latchGood hin hl)), hlt⟩

theorem State.InGroup.body_approaches {s : State} {g : Nat} (hh : s.host = []) (h : s.InGroup .body g g) :
    s.Approaches (4 * (s.n - s.ip) - 2) := by
  obtain ⟨-, -, -, hbody, -⟩ := h.good
  obtain ⟨hin, -, -, hmatch⟩ := hbody h.stage_eq
  have hb := oneHot_ne_zero h.oneHot
  cases hk : s.tokKind with
  | literal =>
    have hop : step s = exec .emitLit s := by rw [h.step_eq hh, State.compressOp, h.stage_eq, hk]
    refine ⟨_, _, hop.trans (Effect.emitLit hb hk).exec_eq, .advance g h.emitLit, ?_⟩
    show 4 * (s.n - (s.ip + 1)) + 1 < 4 * (s.n - s.ip) - 2
    omega
  | matched =>
    obtain ⟨-, -, -, hlen, -, hend, -⟩ := hmatch hk
    have hop : step s = exec .emitMatch s := by rw [h.step_eq hh, State.compressOp, h.stage_eq, hk]
    refine ⟨_, _, hop.trans (Effect.emitMatch hb hk).exec_eq, .advance g (h.emitMatch hk), ?_⟩
    show 4 * (s.n - (s.ip + s.tokLen)) + 1 < 4 * (s.n - s.ip) - 2
    omega

theorem State.InGroup.advance_eq {s : State} {g k : Nat} (hh : s.host = []) (h : s.InGroup .advance g k) :
    step s = exec .nextBit s := by
  rw [h.step_eq hh, State.compressOp, h.stage_eq]

/-- NEXT_BIT with input left: the eighth token closes the group. -/
theorem State.InGroup.advance_approaches {s : State} {g : Nat} (hh : s.host = []) (h : s.InGroup .advance g (g + 1))
    (hin : s.ip < s.n) : s.Approaches (4 * (s.n - s.ip) + 1) := by
  have hb := oneHot_ne_zero h.oneHot
  have hg := h.cursor_lt
  by_cases hlast : g = 7
  · subst hlast
    have htag := h.nextGroup hin
    exact ⟨_, _, (h.advance_eq hh).trans (Effect.nextGroup hb hin htag.cursor).exec_eq, .tag htag, Nat.lt_succ_self _⟩
  · have htoken := h.nextToken (by omega) hin
    exact ⟨_, _, (h.advance_eq hh).trans (Effect.nextToken hb hin (oneHot_ne_zero htoken.oneHot)).exec_eq,
      .token _ htoken, Nat.lt_succ_of_le (Nat.sub_le _ _)⟩

/-- NEXT_BIT at the end of the input: completion, or its refusal. -/
theorem State.InGroup.advance_ends {s : State} {g : Nat} (hh : s.host = []) (h : s.InGroup .advance g (g + 1))
    (hn : s.n ≤ s.ip) : s.Approaches (4 * (s.n - s.ip) + 1) ∨ s.OutOfDomain := by
  have hb := oneHot_ne_zero h.oneHot
  have hall := h.encodedAll hn
  by_cases ho : s.op < 2 ^ 32
  · exact .inl ⟨_, _, (h.advance_eq hh).trans (Effect.complete hb hn ho).exec_eq, .ended (hall.finish ho _ _),
      Nat.succ_pos _⟩
  · have ho := Nat.not_lt.mp ho
    exact .inr ⟨(h.advance_eq hh).trans (exec_nextBit_refused hb hn ho), ho, hall⟩

/-- From every point but the end the engine comes closer to the end, or the completion is refused. -/
theorem State.CompressPoint.step {s : State} {left : Nat} (hh : s.host = []) (h : s.CompressPoint left) :
    s.AtEnd ∨ s.Approaches left ∨ (0 < left ∧ s.OutOfDomain) := by
  cases h with
  | ended h => exact .inl h
  | tag h => exact .inr (.inl (h.approaches hh))
  | token g h => exact .inr (.inl (h.token_approaches hh))
  | body g h => exact .inr (.inl (h.body_approaches hh))
  | advance g h =>
    by_cases hn : s.n ≤ s.ip
    · exact .inr ((h.advance_ends hh hn).imp_right fun hdom => ⟨Nat.succ_pos _, hdom⟩)
    · exact .inr (.inl (h.advance_approaches hh (Nat.not_le.mp hn)))

/-! ### The whole run -/

/-- `t` is a point of a COMPRESS given in `s`. -/
structure State.CompressRun (s t : State) (left : Nat) : Prop where
  host : t.host = []
  config : t.config = s.config
  inLen : t.inLen = s.inLen
  outLimit : t.outLimit = s.outLimit
  inMem : t.inMem = s.inMem
  point : t.CompressPoint left

theorem State.CompressRun.step {s t : State} {left : Nat} (h : s.CompressRun t left) :
    t.AtEnd ∨ (∃ u left', Machine.step t = .next u ∧ s.CompressRun u left' ∧ left' < left) ∨ (0 < left ∧ t.OutOfDomain) := by
  obtain ⟨hh, hc, hn, hl, hin, hpoint⟩ := h
  refine (hpoint.step hh).imp_right (Or.imp_left ?_)
  rintro ⟨u, left', hu, hpoint', hlt⟩
  obtain ⟨hh', hc', hn', hl', hin'⟩ := step_frame hh hu
  exact ⟨u, left', hu, ⟨hh', hc'.trans hc, hn'.trans hn, hl'.trans hl, hin'.trans hin, hpoint'⟩, hlt⟩

/-- Whatever step the engine takes in a COMPRESS, it is at a point of it again. -/
theorem compressRun_keeps {s t u : State} (h : ∃ left, s.CompressRun t left) (he : step t = .next u) :
    ∃ left, s.CompressRun u left := by
  obtain ⟨left, h⟩ := h
  rcases h.step with hend | ⟨u', left', hu, h', -⟩ | ⟨-, hdom⟩
  · rw [step_of_idle h.host hend.completed.1] at he
    exact Host.Outcome.next.inj he ▸ ⟨left, h⟩
  · rw [hu] at he
    exact Host.Outcome.next.inj he ▸ ⟨left', h'⟩
  · rw [hdom.refused] at he
    cases he

/-- The command start is a point of the run, with four operations to come for each byte of input. -/
theorem State.Ready.compressRun {s : State} (h : s.Ready) :
    ∃ t left, exec .compress s = .next t ∧ s.CompressRun t left ∧ left ≤ 4 * s.n := by
  have hstart : exec .compress s = _ := startCommand_ready h .compress
  obtain ⟨-, -, hh, -⟩ := h
  have henc : (s.started .compress).Encoded [] := ⟨rfl, fun a _ ha => absurd ha (Nat.not_lt_zero a), .nil _⟩
  by_cases hn : s.n = 0
  · rw [if_pos hn] at hstart
    have hall : (s.started .compress).EncodedAll := ⟨hn.symm, [], rfl, henc⟩
    exact ⟨_, 0, hstart, ⟨hh, rfl, rfl, rfl, rfl, .ended (hall.finish (Nat.two_pow_pos 32) _ _)⟩, Nat.zero_le _⟩
  · rw [if_neg hn] at hstart
    have htag : (s.started .compress).AtTag :=
      ⟨rfl, rfl, rfl, rfl, Nat.pos_of_ne_zero hn, [], .first _ _, henc⟩
    exact ⟨_, _, hstart, ⟨hh, rfl, rfl, rfl, rfl, .tag htag⟩, Nat.le_refl _⟩

theorem runCommand_compressRun {s t : State} {k : Nat} (hs : s.Ready) (he : runCommand .compress k s = .next t) :
    ∃ left, s.CompressRun t left := by
  obtain ⟨u, left, hstart, h, -⟩ := hs.compressRun
  obtain ⟨u', hstart', hrun⟩ := runCommand_next.mp he
  obtain rfl := Host.Outcome.next.inj (hstart.symm.trans hstart')
  exact steps_keeps compressRun_keeps ⟨left, h⟩ hrun

/-- COMPRESS reaches its end, or its completion out of domain, within four operations for each byte of input. -/
theorem State.Ready.compress_ends {s : State} (hs : s.Ready) :
    ∃ k t, runCommand .compress k s = .next t ∧
      ((k ≤ 4 * s.n ∧ t.AtEnd) ∨
       (k < 4 * s.n ∧ t.OutOfDomain ∧ runCommand .compress (k + 1) s = .refused .resultOutOfDomain)) := by
  obtain ⟨u, left, hstart, h, hleft⟩ := hs.compressRun
  obtain ⟨k, t, ht, hres⟩ := steps_reach State.CompressRun.step h
  refine ⟨k, t, runCommand_next.mpr ⟨u, hstart, ht⟩, ?_⟩
  rcases hres with ⟨hk, hend⟩ | ⟨hk, hdom⟩
  · exact .inl ⟨Nat.le_trans hk hleft, hend⟩
  · refine .inr ⟨Nat.lt_of_lt_of_le hk hleft, hdom, ?_⟩
    rw [runCommand, hstart]
    exact (steps_then ht).trans hdom.refused

section
variable {s t : State} {left : Nat} (h : s.CompressRun t left)
include h

theorem State.CompressRun.n_eq : t.n = s.n := congrArg BitVec.toNat h.inLen

theorem State.CompressRun.limit_eq : t.limit = s.limit := congrArg BitVec.toNat h.outLimit

theorem State.CompressRun.split_eq : t.split = s.split := congrArg Config.lengthBits h.config

theorem State.CompressRun.hasRepeat_iff : t.HasRepeat ↔ s.HasRepeat := by
  have hin : t.inByte = s.inByte := by
    funext a
    rw [State.inByte, h.inMem]
    rfl
  rw [State.HasRepeat, h.n_eq, h.split_eq, hin]
  rfl

end

/-- Settles O44: the run reaches its end or its refusal, and there the whole input is encoded. -/
theorem compressCompletesWithinTheBound : Obligations.CompressCompletesWithinTheBound := by
  intro s hs
  obtain ⟨k, t, ht, hres⟩ := hs.compress_ends
  obtain ⟨left, hrun⟩ := runCommand_compressRun hs ht
  rcases hres with ⟨hk, hend⟩ | ⟨hk, hdom, href⟩
  · exact .inl ⟨k, t, hk, ht, hend.completed, hrun.n_eq ▸ hend.encoded.ip, hend.result, hrun.n_eq ▸ hend.encoded.op_le⟩
  · exact .inr ⟨k, t, hk, ht, hrun.n_eq ▸ hdom.encoded.ip, hdom.op, hrun.n_eq ▸ hdom.encoded.op_le, href⟩

/-- In domain COMPRESS completes. -/
theorem State.Ready.compress_completes {s : State} (hs : s.Ready) (hdomain : s.n + (s.n + 7) / 8 < 2 ^ 32) :
    ∃ k t left, runCommand .compress k s = .next t ∧ s.CompressRun t left ∧ t.AtEnd := by
  obtain ⟨k, t, ht, hres⟩ := hs.compress_ends
  obtain ⟨left, hrun⟩ := runCommand_compressRun hs ht
  rcases hres with ⟨-, hend⟩ | ⟨-, hdom, -⟩
  · exact ⟨k, t, left, ht, hrun, hend⟩
  · have hop := hdom.op
    have hle := hrun.n_eq ▸ hdom.encoded.op_le
    omega

/-- Settles O50: without a repeat no match is emitted, so the stream's size is exact. -/
theorem literalOnlyInputExpandsExactly : Obligations.LiteralOnlyInputExpandsExactly := by
  intro s hs hdomain hpairs
  obtain ⟨k, t, left, ht, hrun, hend⟩ := hs.compress_completes hdomain
  have hrep : ¬ t.HasRepeat := by
    rw [hrun.hasRepeat_iff]
    rintro ⟨p, c, hp, hw, hc, h0, h1⟩
    exact hpairs p c hp hw hc ⟨h0, h1⟩
  exact ⟨k, t, ht, hend.completed, hend.result.trans (hrun.n_eq ▸ hend.encoded.op_eq hrep)⟩

/-- Settles O51: at the end OUT holds the stream of the listing emitted, and the worst case bounds its size. -/
theorem compressWritesAWellFormedStream : Obligations.CompressWritesAWellFormedStream := by
  intro s hs
  refine ⟨fun k t ht hc hfit => ?_, fun hroom => ?_⟩
  · obtain ⟨left, hrun⟩ := runCommand_compressRun hs ht
    obtain ⟨-, hresult, -, items, hout, hop, hholds, -⟩ := hrun.point.atEnd hc.1
    rw [hrun.split_eq] at hout
    refine ⟨items, hout, hop.symm.trans hresult.symm, fun a ha => hholds a ?_ ?_⟩
    · rw [hrun.limit_eq]
      omega
    · omega
  · have hlimit : s.limit < 2 ^ 32 := s.outLimit.isLt
    obtain ⟨k, t, left, ht, hrun, hend⟩ := hs.compress_completes (by omega)
    have hle := hrun.n_eq ▸ hend.encoded.op_le
    have hresult := hend.result
    exact ⟨k, t, ht, hend.completed, by omega⟩

end Sys2Proof.Machine
end

section
/-! The decompressor's operations (42_decompressor.md R131 to R141): what each leaves of the stream cursors, of OUT and of the
copy in progress. -/

namespace Sys2Proof.Machine

/-! ### TAG and LIT (R131, R134) -/

/-- Settles O26: the `requires` clause of TAG holds. -/
theorem tagOpensTheGroup : Obligations.TagOpensTheGroup := fun _ b hb hn => (Effect.tag b hb hn).exec_eq

/-- A read after a write that is made under a condition. -/
theorem Memory.read_write_if (m : Memory) (c : Prop) [Decidable c] (a x : Nat) (v : Byte) :
    Memory.read (if c then m.write a v else m) x = if x = a ∧ c then some v else m.read x := by
  by_cases hc : c
  · simp only [hc, if_true, and_true, Memory.read_write]
  · simp only [hc, if_false, and_false]

/-- Settles O27: the literal is written under LIT's own guard, which is that of a phantom literal too. -/
theorem litCopiesOneByte : Obligations.LitCopiesOneByte := fun s b hb ht =>
  ⟨_, (Effect.lit b hb (State.tagBitSet_true.mpr ht)).exec_eq, rfl, fun a => s.outMem.read_write_if _ s.op a b⟩

/-! ### MATCH (R136, R138, R139) -/

/-- A MATCH of the split in force, with two bytes left, sets up the copy of its own fields. -/
theorem exec_match_read {l : LengthBits} {off len : Nat} {s : State} (hl : s.split = l) (hf : l.admits off len = true)
    (hb : s.bit ≠ 0#8) (ht : s.tagBitSet = false) (hn : s.ip + 2 ≤ s.n) :
    exec (Instr.ofMatch l off len) s = .next { s with
      val := pack l off len, ip := s.ip + 2, mLen := len, mOff := off, cnt := len,
      stage := if len = 0 then .advance else .body } := by
  subst hl
  rw [(Effect.matchRead _ off len (matchFields_ofMatch _ _ _) hb ht hn).exec_eq, unpackLength_pack hf, unpackOffset_pack hf]

/-- Settles O29: fields in range are unpacked as they were packed. -/
theorem matchSetsUpTheCopy : Obligations.MatchSetsUpTheCopy := by
  intro i l off len s hi hwf hl hb ht hn
  obtain rfl := eq_ofMatch hi
  rw [wf_ofMatch] at hwf
  exact ⟨_, exec_match_read hl hwf hb (State.tagBitSet_false.mpr ht) hn, rfl, pack_toNat hwf⟩

/-- Settles O30: the tail skip looks at no operand. -/
theorem tailSkipTouchesNothing : Obligations.TailSkipTouchesNothing := by
  intro i l off len s hi hl hb ht hn
  subst hl
  exact (Effect.matchSkip i off len hi hb (State.tagBitSet_false.mpr ht) hn).exec_eq

/-! ### COPY_BYTE (R137, R140, R141) -/

/-- The state that COPY_BYTE leaves. -/
def State.copied (s : State) : State :=
  { s.copyWrite with op := s.op + 1, cnt := s.cnt - 1, stage := if s.cnt = 1 then .advance else .body }

theorem exec_copyByte {s : State} (hc : 0 < s.cnt) : exec .copyByte s = .next s.copied := (Effect.copyByte hc).exec_eq

/-- A copy step with a source byte is a guarded write of it. -/
theorem State.copyWrite_of_source {s : State} (h1 : 1 ≤ s.mOff) (h2 : s.mOff ≤ s.op) :
    s.copyWrite = s.gwrite s.op (s.outByte (s.op - s.mOff)) := by
  have hsource : s.wellReferenced = true := decide_eq_true ⟨h1, h2⟩
  simp [State.copyWrite, State.copiedByte, State.illReferencedStep, hsource, State.gwrite]

/-- A copy step at or past the limit touches nothing. -/
theorem State.copyWrite_of_full {s : State} (h : s.limit ≤ s.op) : s.copyWrite = s := by
  simp [State.copyWrite, State.illReferencedStep, State.gwrite, Nat.not_lt.mpr h]

/-- A copy step below the limit without a source byte writes a drawn byte and marks the run. -/
theorem State.copyWrite_of_no_source {s : State} (hl : s.op < s.limit) (h : s.mOff = 0 ∨ s.op < s.mOff) :
    s.copyWrite = { s.gwrite s.op (Config.freeByte s.draws) with draws := s.draws + 1, illRef := true } := by
  have hsource : s.wellReferenced = false := decide_eq_false (by omega)
  simp [State.copyWrite, State.copiedByte, State.illReferencedStep, hsource, hl]

/-- A guarded write below the limit is a write. -/
theorem State.gwrite_read_below {s : State} {a : Nat} (h : a < s.limit) (v : Byte) (x : Nat) :
    (s.gwrite a v).outMem.read x = if x = a then some v else s.outMem.read x := by
  simp only [State.gwrite_read, h, and_true]

/-- Settles O31: a copy step with a source byte and room. -/
theorem copyByteCopiesFromTheOutput : Obligations.CopyByteCopiesFromTheOutput := by
  intro s hc hl h1 h2
  rw [exec_copyByte hc, State.copied, State.copyWrite_of_source h1 h2]
  exact ⟨_, rfl, rfl, State.gwrite_read_below hl _⟩

/-- Settles O32: a copy step without room. -/
theorem copyBytePastTheLimitOnlyCounts : Obligations.CopyBytePastTheLimitOnlyCounts := by
  intro s hc hl
  rw [exec_copyByte hc, State.copied, State.copyWrite_of_full hl]

/-- Settles O33: a copy step with room and no source byte. -/
theorem illReferencedCopyWritesSomeByte : Obligations.IllReferencedCopyWritesSomeByte := by
  intro s hc hl h
  rw [exec_copyByte hc, State.copied, State.copyWrite_of_no_source hl h]
  exact ⟨_, _, rfl, rfl, State.gwrite_read_below hl _⟩

/-! ### The steps of a running DECOMPRESS (R130, R155) -/

/-- The state that a literal at the cursor leaves: the byte copied if there is one and there is room for it. -/
def State.afterLiteral (s : State) : State :=
  { s with
    outMem := if s.ip < s.n ∧ s.op < s.limit then s.outMem.write s.op (s.inByte s.ip) else s.outMem
    ip := s.ip + 1, op := s.op + 1, stage := .advance }

/-- The state that a match of packed value `v` leaves: its fields set up the copy. -/
def State.afterMatch (s : State) (v : Half) : State :=
  { s with
    val := v, ip := s.ip + 2, mLen := unpackLength s.split v, mOff := unpackOffset s.split v
    cnt := unpackLength s.split v, stage := if unpackLength s.split v = 0 then .advance else .body }

section
variable {s : State} (hh : s.host = []) (hm : s.mode = .decompress)
include hh hm

/-- AWAITING_TAG: the byte at the cursor is the tag byte. -/
theorem step_tagByte (hp : s.phase = .awaitingTag) (hb : s.bit = 0#8) (hn : s.ip < s.n) :
    step s = .next { s with
      tag := s.inByte s.ip, ip := s.ip + 1, bit := 1#8, phase := .processingGroup, stage := .token } := by
  have hitem : s.itemAt .tagByte = .tag (s.inByte s.ip) := by
    rw [State.itemAt, ItemPlace.length, s.streamBytes_one hn]
    rfl
  have hf : s.fetch = some (.tag (s.inByte s.ip)) := by rw [State.fetch, hp, hm, ← hitem]
  exact (step_of_fetch hh hf).trans (Effect.tag _ hb hn).exec_eq

variable (hp : s.phase = .processingGroup)
include hp

/-- At a set tag bit the byte at the cursor is a literal; at the end of the input nothing is read (R135). -/
theorem step_literal (hs : s.stage = .token) (hb : s.bit ≠ 0#8) (ht : s.tagBitSet = true) :
    step s = .next s.afterLiteral := by
  have hplace : s.tokenPlace = .literal := if_pos ht
  have hf : s.fetch = some (s.itemAt .literal) := by rw [State.fetch, hp, hm, State.decompressOp, hs, hplace]
  rw [step_of_fetch hh hf]
  by_cases hn : s.ip < s.n
  · have hitem : s.itemAt .literal = .lit (s.inByte s.ip) := by
      rw [State.itemAt, ItemPlace.length, s.streamBytes_one hn]
      rfl
    rw [hitem]
    exact (Effect.lit _ hb ht).exec_eq
  · obtain ⟨b, hitem⟩ := s.itemAt_cases .literal
    rw [hitem, (Effect.lit b hb ht).exec_eq]
    simp [State.afterLiteral, hn]

omit hh in
theorem fetch_match (hs : s.stage = .token) (ht : s.tagBitSet = false) :
    s.fetch = some (s.itemAt (.matchToken s.split)) := by
  have hplace : s.tokenPlace = .matchToken s.split := if_neg (by simp [ht])
  rw [State.fetch, hp, hm, State.decompressOp, hs, hplace]

/-- At a clear tag bit with two bytes left they are a packed value, whose fields set up the copy. -/
theorem step_match (hs : s.stage = .token) (hb : s.bit ≠ 0#8) (ht : s.tagBitSet = false) (hn : s.ip + 2 ≤ s.n) {v : Half}
    (hv : v = ofBytes (s.inByte s.ip) (s.inByte (s.ip + 1))) : step s = .next (s.afterMatch v) := by
  have hitem : s.itemAt (.matchToken s.split) = Instr.ofMatch s.split (unpackOffset s.split v) (unpackLength s.split v) := by
    rw [State.itemAt, ItemPlace.length, s.streamBytes_two hn, decodeItem_matchToken, hv]
  rw [step_of_fetch hh (fetch_match hm hp hs ht), hitem, exec_match_read rfl (unpack_admits _ v) hb ht hn, pack_unpack]
  rfl

/-- At a clear tag bit with fewer than two bytes left the token is skipped. -/
theorem step_matchSkip (hs : s.stage = .token) (hb : s.bit ≠ 0#8) (ht : s.tagBitSet = false) (hn : s.n < s.ip + 2) :
    step s = .next { s with ip := s.ip + 2, stage := .advance } := by
  obtain ⟨off, len, -, hitem⟩ := s.itemAt_cases (.matchToken s.split)
  rw [step_of_fetch hh (fetch_match hm hp hs ht), hitem]
  exact (Effect.matchSkip _ off len (matchFields_ofMatch _ _ _) hb ht hn).exec_eq

theorem step_copyByte (hs : s.stage = .body) (hc : 0 < s.cnt) : step s = .next s.copied := by
  rw [step_of_fetch hh (i := .copyByte) (by rw [State.fetch, hp, hm, State.decompressOp, hs]), exec_copyByte hc]

theorem step_nextBit (hs : s.stage = .advance) : step s = exec .nextBit s :=
  step_of_fetch hh (by rw [State.fetch, hp, hm, State.decompressOp, hs])

/-- NEXT_BIT at the end of the input, in domain, is the completion (R155, R156). -/
theorem step_completes (hs : s.stage = .advance) (hb : s.bit ≠ 0#8) (hn : s.n ≤ s.ip) (ho : s.op < 2 ^ 32) :
    step s = .next { s with bit := shiftCursor s.bit, stage := .token }.finish :=
  (step_nextBit hh hm hp hs).trans (Effect.complete hb hn ho).exec_eq

end

end Sys2Proof.Machine
end

section
/-! Whole tokens of DECOMPRESS (42_decompressor.md sections 2, 3): the phantom literal, and the copy loop of a match with what
it leaves in OUT. -/

namespace Sys2Proof.Machine

/-! ### The tag bit under the cursor (R132) -/

/-- Under the cursor of token `g` lies bit `g` of the tag byte. -/
theorem State.tagBitSet_of_cursor {s : State} {g : Nat} (hb : s.bit = 1#8 <<< g) (hg : g < 8) :
    s.tagBitSet = s.tag.getLsbD g := by
  have hand : s.tag &&& s.bit = if s.tag.getLsbD g then BitVec.twoPow 8 g else 0#8 := by
    rw [hb, ← BitVec.and_twoPow]
    rfl
  have hpos : BitVec.twoPow 8 g ≠ 0#8 := oneHot_ne_zero ⟨g, hg, rfl⟩
  rw [State.tagBitSet, hand]
  cases s.tag.getLsbD g <;> simp [hpos]

/-! ### The phantom literal (R135) -/

/-- Settles O28: the invariant has a token without input at bit 0 only, LIT's guard writes nothing there, and NEXT_BIT
completes. -/
theorem phantomLiteralCountsAndEnds : Obligations.PhantomLiteralCountsAndEnds := by
  intro s h hh hp hm hs ht hn
  obtain ⟨-, -, hd⟩ := h.group hp
  obtain ⟨⟨htoken, -⟩, -⟩ := hd hm
  obtain ⟨hle, hlast⟩ := htoken hs
  have hip : s.ip = s.n := Nat.le_antisymm hle hn
  have hbit : s.bit = 1#8 := hlast hip
  have hb : s.bit ≠ 0#8 := by simp [hbit]
  have hstep : step s = .next { s with ip := s.n + 1, op := s.op + 1, stage := .advance } := by
    rw [step_literal hh hm hp hs hb ht]
    simp [State.afterLiteral, hip]
  refine ⟨hip, hbit, (State.tagBitSet_of_cursor (g := 0) hbit (by decide)).symm.trans ht, hstep, fun ho => ?_⟩
  have hnext := step_completes (s := { s with ip := s.n + 1, op := s.op + 1, stage := .advance }) hh hm hp rfl hb
    (Nat.le_succ s.n) ho
  exact ⟨_, steps_succ_next.mpr ⟨_, hstep, steps_succ_next.mpr ⟨_, hnext, rfl⟩⟩, ⟨rfl, rfl⟩, rfl, Nat.mod_eq_of_lt ho,
    fun _ => rfl⟩

/-! ### The copy loop (R136, R137, R141) -/

/-- A match is being copied, with no host move to come. -/
structure State.Copying (s : State) : Prop where
  host : s.host = []
  mode : s.mode = .decompress
  phase : s.phase = .processingGroup
  stage : s.stage = .body
  more : 0 < s.cnt

/-- The loop ends after `cnt` copy steps, and what each of them keeps it keeps. -/
theorem State.Copying.loop {P : State → Prop} (hstep : ∀ {t : State}, P t → 0 < t.cnt → P t.copied) {s : State}
    (h : s.Copying) (hP : P s) : ∃ t, steps s.cnt s = .next t ∧ P t ∧ t.cnt = 0 ∧ t.stage = .advance := by
  obtain ⟨c, hc⟩ : ∃ c, s.cnt = c + 1 := Nat.exists_eq_add_one.mpr h.more
  induction c generalizing s with
  | zero =>
    have hnext := step_copyByte h.host h.mode h.phase h.stage h.more
    rw [hc]
    exact ⟨_, steps_succ_next.mpr ⟨_, hnext, rfl⟩, hstep hP h.more, congrArg (· - 1) hc, if_pos hc⟩
  | succ c ih =>
    have hnext := step_copyByte h.host h.mode h.phase h.stage h.more
    have hcnt : s.copied.cnt = c + 1 := congrArg (· - 1) hc
    have hcopy : s.copied.Copying := ⟨h.host, h.mode, h.phase, if_neg (by omega), by omega⟩
    obtain ⟨t, ht, hres⟩ := ih hcopy (hstep hP h.more) hcnt
    rw [hcnt] at ht
    rw [hc]
    exact ⟨t, steps_succ_next.mpr ⟨_, hnext, ht⟩, hres⟩

/-- `t` is a point of the copy loop entered in `s`: only the copy's registers and OUT's side have changed, and OUT only among
the bytes the loop has passed, below the limit. -/
structure State.CopyFrom (s t : State) : Prop where
  rest : t = { s with
    op := t.op, cnt := t.cnt, stage := t.stage, outMem := t.outMem, draws := t.draws, illRef := t.illRef }
  sum : t.op + t.cnt = s.op + s.cnt
  op_le : s.op ≤ t.op
  out : ∀ a, a < s.op ∨ s.op + s.cnt ≤ a ∨ s.limit ≤ a → t.outMem.read a = s.outMem.read a

theorem State.CopyFrom.copied {s t : State} (h : s.CopyFrom t) (hc : 0 < t.cnt) : s.CopyFrom t.copied := by
  obtain ⟨hrest, hsum, hle, hout⟩ := h
  have hlim : t.limit = s.limit := by rw [hrest]; rfl
  refine ⟨?_, ?_, Nat.le_succ_of_le hle, fun a ha => ?_⟩
  · rw [hrest]
    rfl
  · show t.op + 1 + (t.cnt - 1) = s.op + s.cnt
    omega
  · rcases t.gwrite_read_cases t.op a t.copiedByte with hsame | ⟨heq, hlt⟩
    · exact hsame.trans (hout a ha)
    · omega

/-- Settles O34: at the loop's end `cnt` is 0, so `op` has advanced by what `cnt` was. -/
theorem copyLoopRunsCntTimes : Obligations.CopyLoopRunsCntTimes := by
  intro s hh hp hm hs hc
  have hcopy : s.Copying := ⟨hh, hm, hp, hs, hc⟩
  obtain ⟨t, ht, ⟨hrest, hsum, -, hout⟩, hcnt, hstage⟩ :=
    hcopy.loop (P := s.CopyFrom) State.CopyFrom.copied ⟨rfl, rfl, Nat.le_refl _, fun _ _ => rfl⟩
  have hop : t.op = s.op + s.cnt := by omega
  rw [hcnt, hstage, hop] at hrest
  exact ⟨t, ht, hrest, hout⟩

/-! ### What the copy loop leaves in OUT (R137, R147) -/

/-- From index `lo` on OUT shows the bytes `x`, as far as `op` and the limit. -/
def State.Shows (s : State) (x : Nat → Byte) (lo : Nat) : Prop := ∀ a, lo ≤ a → a < s.op → a < s.limit → s.outByte a = x a

/-- One byte of OUT, read with its unwritten content, after a guarded write. -/
theorem State.gwrite_outByte (s : State) (a x : Nat) (v : Byte) :
    (s.gwrite a v).outByte x = if x = a ∧ x < s.limit then v else s.outByte x := by
  rw [State.outByte, State.gwrite_read_at]
  split <;> rfl

/-- A guarded write at `op` of the next byte to show, if there is room for it, shows one byte more. -/
theorem State.Shows.write {s t : State} {x : Nat → Byte} {lo : Nat} (h : s.Shows x lo) {v : Byte}
    (hv : s.op < s.limit → v = x s.op) (hlim : t.limit = s.limit) (hop : t.op = s.op + 1)
    (hout : t.outByte = (s.gwrite s.op v).outByte) : t.Shows x lo := by
  intro a hlo ha hl
  rw [hlim] at hl
  rw [hout, State.gwrite_outByte]
  by_cases hx : a = s.op
  · subst hx
    rw [if_pos ⟨rfl, hl⟩, hv hl]
  · rw [if_neg (fun e => hx e.1)]
    exact h a hlo (by omega) hl

/-- A copy step whose source byte is shown, and is the next byte to show, shows it and does not mark the run. -/
theorem State.Shows.copied {s : State} {x : Nat → Byte} {lo : Nat} (h : s.Shows x lo) (h1 : 1 ≤ s.mOff)
    (h2 : lo + s.mOff ≤ s.op) (hx : x s.op = x (s.op - s.mOff)) :
    s.copied.Shows x lo ∧ s.copied.illRef = s.illRef := by
  have hwrite := State.copyWrite_of_source h1 (Nat.le_trans (Nat.le_add_left _ _) h2)
  have hout : s.copied.outByte = (s.gwrite s.op (s.outByte (s.op - s.mOff))).outByte :=
    (congrArg State.outByte hwrite :)
  have hill : s.copied.illRef = s.illRef := (congrArg State.illRef hwrite :)
  exact ⟨h.write (fun hl => (h _ (by omega) (by omega) (by omega)).trans hx.symm) rfl rfl hout, hill⟩

/-- `t` is a point of the copy loop entered in `s` that shows the bytes `x` from `lo` on, with no new mark. -/
structure State.CopyShows (s : State) (x : Nat → Byte) (lo : Nat) (t : State) : Prop where
  copy : s.CopyFrom t
  shows : t.Shows x lo
  illRef : t.illRef = s.illRef

/-- Bytes that repeat themselves `m_off` later are shown by the next copy step too. -/
theorem State.CopyShows.copied {s t : State} {x : Nat → Byte} {lo : Nat} (h : s.CopyShows x lo t) (h1 : 1 ≤ s.mOff)
    (hlo : lo + s.mOff ≤ s.op) (hx : ∀ a, s.op ≤ a → x a = x (a - s.mOff)) (hc : 0 < t.cnt) :
    s.CopyShows x lo t.copied := by
  obtain ⟨hcopy, hshows, hill⟩ := h
  have hle := hcopy.op_le
  have hmoff : t.mOff = s.mOff := by rw [hcopy.rest]
  have hnext := hshows.copied (hmoff ▸ h1) (by omega) (hmoff ▸ hx t.op hle)
  exact ⟨hcopy.copied hc, hnext.1, hnext.2.trans hill⟩

/-- The `o` bytes before index `p`, repeated from there on. -/
def State.pattern (s : State) (p o : Nat) (a : Nat) : Byte := s.outByte (p - o + (a - (p - o)) % o)

theorem State.pattern_before (s : State) {p o a : Nat} (hlo : p - o ≤ a) (ha : a < p) (ho : o ≤ p) :
    s.pattern p o a = s.outByte a := by
  rw [State.pattern, Nat.mod_eq_of_lt (by omega), Nat.add_sub_cancel' hlo]

theorem State.pattern_repeats (s : State) {p o a : Nat} (ho : o ≤ p) (ha : p ≤ a) :
    s.pattern p o a = s.pattern p o (a - o) := by
  have hshift : a - (p - o) = a - o - (p - o) + o := by omega
  rw [State.pattern, State.pattern, hshift, Nat.add_mod_right]

theorem State.pattern_after (s : State) {p o : Nat} (ho : o ≤ p) (j : Nat) :
    s.pattern p o (p + j) = s.outByte (p - o + j % o) := by
  have hshift : p + j - (p - o) = j + o := by omega
  rw [State.pattern, hshift, Nat.add_mod_right]

theorem ofMatch_injective {l : LengthBits} {off len off' len' : Nat}
    (h : Instr.ofMatch l off len = Instr.ofMatch l off' len') : off = off' ∧ len = len' := by
  have hfields := congrArg Instr.matchFields? h
  simpa using hfields

/-- Settles O35: the match sets up the loop, each of whose steps extends the repeated pattern by a byte. -/
theorem overlappingMatchRepeatsThePattern : Obligations.OverlappingMatchRepeatsThePattern := by
  intro s o l hh hp hm hs hb ht hn hdec h1 ho hroom
  rw [decodeItem_matchToken] at hdec
  obtain ⟨hoff, hlen⟩ := ofMatch_injective (congrArg Prod.fst (Except.ok.inj hdec))
  have hstep := step_match hh hm hp hs hb (State.tagBitSet_false.mpr ht) hn rfl
  generalize ofBytes (s.inByte s.ip) (s.inByte (s.ip + 1)) = v at hstep hoff hlen
  subst hoff hlen
  by_cases hl : unpackLength s.split v = 0
  · rw [hl]
    exact ⟨_, steps_succ_next.mpr ⟨_, hstep, rfl⟩, rfl, rfl, rfl, nofun⟩
  · have hcopy : (s.afterMatch v).Copying := ⟨hh, hm, hp, if_neg hl, Nat.pos_of_ne_zero hl⟩
    have hstart : (s.afterMatch v).CopyShows (s.pattern s.op (unpackOffset s.split v)) (s.op - unpackOffset s.split v)
        (s.afterMatch v) :=
      ⟨⟨rfl, rfl, Nat.le_refl _, fun _ _ => rfl⟩, fun a hlo ha _ => (s.pattern_before hlo ha ho).symm, rfl⟩
    obtain ⟨t, ht, ⟨⟨hrest, hsum, -⟩, hshows, hill⟩, hcnt, -⟩ := hcopy.loop
      (State.CopyShows.copied · h1 (Nat.le_of_eq (Nat.sub_add_cancel ho)) fun _ => s.pattern_repeats ho) hstart
    have hop : t.op = s.op + unpackLength s.split v := by
      rw [hcnt] at hsum
      exact hsum
    have hlim : t.limit = s.limit := by
      rw [hrest]
      rfl
    refine ⟨t, steps_succ_next.mpr ⟨_, hstep, ht⟩, hop, by rw [hrest]; rfl, hill, fun j hj => ?_⟩
    have hlo : s.op - unpackOffset s.split v ≤ s.op + j := Nat.le_add_right_of_le (Nat.sub_le _ _)
    rw [← s.pattern_after ho j]
    exact hshows _ hlo (by omega) (by omega)

end Sys2Proof.Machine
end

section
/-! A running DECOMPRESS, point by point (42_decompressor.md R130 to R148): what it may still write and how many operations it
may still need, whatever bytes the stream holds. -/

namespace Sys2Proof.Machine

/-! ### The bound on the output (R148) -/

/-- The output so far, `pending` bytes of a match still to copy, and `M` for every two bytes of input left come to no more than
`M` for every two bytes of input. `credit` is the TAG byte just read, which stands for no output: a phantom literal
draws on it. -/
def State.Within (s : State) (pending credit : Nat) : Prop :=
  2 * (s.op + pending) + s.split.maxMatch * (s.n - s.ip + credit) ≤ s.split.maxMatch * s.n

/-- Input that has been passed buys `M` output bytes for every two of its bytes. -/
theorem State.Within.spend {s t : State} {pending credit pending' credit' d : Nat} (h : s.Within pending credit)
    (hs : t.split = s.split) (hn : t.n = s.n) (hin : t.n - t.ip + credit' + d ≤ s.n - s.ip + credit)
    (hout : 2 * (t.op + pending') ≤ 2 * (s.op + pending) + s.split.maxMatch * d) : t.Within pending' credit' := by
  have hle := Nat.mul_le_mul_left s.split.maxMatch hin
  rw [hn, Nat.mul_add s.split.maxMatch _ d] at hle
  rw [State.Within] at h
  rw [State.Within, hs, hn]
  omega

theorem State.Within.op_le {s : State} (h : s.Within 0 0) : s.op ≤ s.split.maxMatch * s.n / 2 := by
  have hle := Nat.le_trans (Nat.le_add_right _ _) h
  omega

/-! ### The points of a run -/

/-- In a group of DECOMPRESS. -/
structure State.InTokens (s : State) (stage : Stage) : Prop where
  phase : s.phase = .processingGroup
  mode : s.mode = .decompress
  stage_eq : s.stage = stage
  oneHot : oneHot s.bit

/-- DECOMPRESS has completed. -/
structure State.DecompressEnd (s : State) : Prop where
  completed : s.Completed
  result : s.result.toNat = s.op
  ip_ge : s.n ≤ s.ip
  ip_le : s.ip ≤ s.n + 2
  within : s.Within 0 0

/-- The most operations that the input left can ask for, `M + 3` for each of its bytes. -/
def State.bytesLeft (s : State) : Nat := (s.split.maxMatch + 3) * (s.n - s.ip)

/-- The points of a DECOMPRESS between two operations, each with a bound on the operations still to come: a match of two bytes
takes at most `M + 2`. A token is met without input only where the credit of its group's TAG stands (R135, R139). -/
inductive State.DecompressPoint (s : State) : (left : Nat) → Prop
  | ended (h : s.DecompressEnd) : s.DecompressPoint 0
  | tag (hp : s.phase = .awaitingTag) (hm : s.mode = .decompress) (hb : s.bit = 0#8) (hin : s.ip < s.n)
      (hw : s.Within 0 0) : s.DecompressPoint s.bytesLeft
  | token (credit : Nat) (h : s.InTokens .token) (hle : s.ip ≤ s.n) (hin : s.ip < s.n ∨ credit = 1)
      (hw : s.Within 0 credit) : s.DecompressPoint (s.bytesLeft + 2 * credit)
  | body (h : s.InTokens .body) (hle : s.ip ≤ s.n) (hc : 0 < s.cnt) (hw : s.Within s.cnt 0) :
      s.DecompressPoint (s.bytesLeft + (s.cnt + 1))
  | advance (h : s.InTokens .advance) (hle : s.ip ≤ s.n + 2) (hw : s.Within 0 0) : s.DecompressPoint (s.bytesLeft + 1)

/-- The stream has been read, but `op` has left 32 bits: the completion is refused (U4, log 12). -/
structure State.DecompressRefused (s : State) : Prop where
  refused : step s = .refused .resultOutOfDomain
  op : 2 ^ 32 ≤ s.op
  ip_ge : s.n ≤ s.ip
  ip_le : s.ip ≤ s.n + 2
  within : s.Within 0 0

/-! ### The steps of the engine -/

/-- A step leads to a point with fewer operations to come. -/
def State.Nears (s : State) (left : Nat) : Prop :=
  ∃ t left', step s = .next t ∧ t.DecompressPoint left' ∧ left' < left

/-- Passing `d` bytes of the input saves as many operations as they can ask for. -/
theorem nears_of_passed {s t : State} {d k c : Nat} (hstep : step s = .next t) (hpoint : t.DecompressPoint (t.bytesLeft + k))
    (hs : t.split = s.split) (hn : t.n = s.n) (hip : t.ip = s.ip + d) (hd : s.ip + d ≤ s.n)
    (hk : k < (s.split.maxMatch + 3) * d + c) : s.Nears (s.bytesLeft + c) := by
  refine ⟨t, _, hstep, hpoint, ?_⟩
  have hleft : s.n - s.ip = s.n - (s.ip + d) + d := by omega
  rw [State.bytesLeft, State.bytesLeft, hs, hn, hip, hleft, Nat.mul_add]
  omega

/-- At the end of the input a token still needs two operations, its own and NEXT_BIT. -/
theorem nears_of_end {s t : State} {credit : Nat} (hstep : step s = .next t) (hpoint : t.DecompressPoint (t.bytesLeft + 1))
    (hend : t.n ≤ t.ip) (hin : s.ip < s.n ∨ credit = 1) : s.Nears (s.bytesLeft + 2 * credit) := by
  refine ⟨t, _, hstep, hpoint, ?_⟩
  have hzero : t.bytesLeft = 0 := by rw [State.bytesLeft, Nat.sub_eq_zero_of_le hend, Nat.mul_zero]
  rcases hin with hlt | hcredit
  · have hleft : (s.split.maxMatch + 3) * 1 ≤ s.bytesLeft := Nat.mul_le_mul_left _ (Nat.sub_pos_of_lt hlt)
    omega
  · omega

section
variable {s : State} (hh : s.host = [])
include hh

theorem nears_of_tag (hp : s.phase = .awaitingTag) (hm : s.mode = .decompress) (hb : s.bit = 0#8) (hin : s.ip < s.n)
    (hw : s.Within 0 0) : s.Nears s.bytesLeft := by
  refine nears_of_passed (d := 1) (c := 0) (step_tagByte hh hm hp hb hin)
    (.token 1 ⟨rfl, hm, rfl, oneHot_one⟩ hin (.inr rfl) ?_) rfl rfl rfl hin (by omega)
  refine hw.spend (d := 0) rfl rfl ?_ (Nat.le_refl _)
  show s.n - (s.ip + 1) + 1 + 0 ≤ s.n - s.ip + 0
  omega

theorem State.InTokens.nears_of_literal {credit : Nat} (h : s.InTokens .token) (hle : s.ip ≤ s.n)
    (hin : s.ip < s.n ∨ credit = 1) (hw : s.Within 0 credit) (ht : s.tagBitSet = true) :
    s.Nears (s.bytesLeft + 2 * credit) := by
  have hM := s.split.maxMatch_bounds.1
  have hstep := step_literal hh h.mode h.phase h.stage_eq (oneHot_ne_zero h.oneHot) ht
  have hwithin : s.afterLiteral.Within 0 0 := by
    refine hw.spend (d := 1) rfl rfl ?_ ?_
    · show s.n - (s.ip + 1) + 0 + 1 ≤ s.n - s.ip + credit
      omega
    · show 2 * (s.op + 1 + 0) ≤ 2 * (s.op + 0) + s.split.maxMatch * 1
      omega
  have hpoint : s.afterLiteral.DecompressPoint (s.afterLiteral.bytesLeft + 1) :=
    .advance ⟨h.phase, h.mode, rfl, h.oneHot⟩ (Nat.le_trans (Nat.succ_le_succ hle) (Nat.le_succ _)) hwithin
  by_cases hn : s.ip < s.n
  · exact nears_of_passed (d := 1) hstep hpoint rfl rfl rfl hn (by omega)
  · exact nears_of_end hstep hpoint (Nat.le_succ_of_le (Nat.not_lt.mp hn)) hin

theorem State.InTokens.nears_of_skip {credit : Nat} (h : s.InTokens .token) (hle : s.ip ≤ s.n)
    (hin : s.ip < s.n ∨ credit = 1) (hw : s.Within 0 credit) (ht : s.tagBitSet = false) (hn : s.n < s.ip + 2) :
    s.Nears (s.bytesLeft + 2 * credit) := by
  refine nears_of_end (step_matchSkip hh h.mode h.phase h.stage_eq (oneHot_ne_zero h.oneHot) ht hn)
    (.advance ⟨h.phase, h.mode, rfl, h.oneHot⟩ (Nat.add_le_add_right hle 2) ?_) (Nat.le_of_lt hn) hin
  refine hw.spend (d := 0) rfl rfl ?_ (Nat.le_refl _)
  show s.n - (s.ip + 2) + 0 + 0 ≤ s.n - s.ip + credit
  omega

theorem State.InTokens.nears_of_match {credit : Nat} (h : s.InTokens .token) (hw : s.Within 0 credit)
    (ht : s.tagBitSet = false) (hn : s.ip + 2 ≤ s.n) : s.Nears (s.bytesLeft + 2 * credit) := by
  have hstep := step_match hh h.mode h.phase h.stage_eq (oneHot_ne_zero h.oneHot) ht hn rfl
  generalize ofBytes (s.inByte s.ip) (s.inByte (s.ip + 1)) = v at hstep
  obtain ⟨-, hlen⟩ := (s.split.admits_iff_le ..).mp (unpack_admits s.split v)
  have hwithin : (s.afterMatch v).Within (unpackLength s.split v) 0 := by
    refine hw.spend (d := 2) rfl rfl ?_ ?_
    · show s.n - (s.ip + 2) + 0 + 2 ≤ s.n - s.ip + credit
      omega
    · show 2 * (s.op + unpackLength s.split v) ≤ 2 * (s.op + 0) + s.split.maxMatch * 2
      omega
  by_cases h0 : unpackLength s.split v = 0
  · rw [h0] at hwithin
    exact nears_of_passed (d := 2) hstep
      (.advance ⟨h.phase, h.mode, if_pos h0, h.oneHot⟩ (Nat.le_add_right_of_le hn) hwithin) rfl rfl rfl hn (by omega)
  · have hk : unpackLength s.split v + 1 < (s.split.maxMatch + 3) * 2 + 2 * credit := by omega
    exact nears_of_passed (d := 2) hstep
      (.body ⟨h.phase, h.mode, if_neg h0, h.oneHot⟩ hn (Nat.pos_of_ne_zero h0) hwithin) rfl rfl rfl hn hk

theorem State.InTokens.nears_of_copy (h : s.InTokens .body) (hle : s.ip ≤ s.n) (hc : 0 < s.cnt) (hw : s.Within s.cnt 0) :
    s.Nears (s.bytesLeft + (s.cnt + 1)) := by
  have hstep := step_copyByte hh h.mode h.phase h.stage_eq hc
  have hleft : s.copied.bytesLeft = s.bytesLeft := rfl
  have hcnt : s.copied.cnt = s.cnt - 1 := rfl
  have hwithin : s.copied.Within (s.cnt - 1) 0 := by
    refine hw.spend (d := 0) rfl rfl (Nat.le_refl _) ?_
    show 2 * (s.op + 1 + (s.cnt - 1)) ≤ 2 * (s.op + s.cnt) + s.split.maxMatch * 0
    omega
  by_cases h1 : s.cnt = 1
  · rw [h1] at hwithin
    exact ⟨_, _, hstep, .advance ⟨h.phase, h.mode, if_pos h1, h.oneHot⟩ (Nat.le_add_right_of_le hle) hwithin, by omega⟩
  · exact ⟨_, _, hstep, .body ⟨h.phase, h.mode, if_neg h1, h.oneHot⟩ hle (by omega) hwithin, by omega⟩

theorem State.InTokens.nears_of_advance (h : s.InTokens .advance) (hw : s.Within 0 0) (hin : s.ip < s.n) :
    s.Nears (s.bytesLeft + 1) := by
  have hb := oneHot_ne_zero h.oneHot
  have hop := step_nextBit hh h.mode h.phase h.stage_eq
  by_cases hz : shiftCursor s.bit = 0#8
  · exact ⟨_, _, hop.trans (Effect.nextGroup hb hin hz).exec_eq, .tag rfl h.mode hz hin hw, Nat.lt_succ_self _⟩
  · exact ⟨_, _, hop.trans (Effect.nextToken hb hin hz).exec_eq,
      .token 0 ⟨rfl, h.mode, rfl, oneHot_shiftCursor h.oneHot hz⟩ (Nat.le_of_lt hin) (.inl hin) hw, Nat.lt_succ_self _⟩

/-- NEXT_BIT at the end of the input: completion, or its refusal. -/
theorem State.InTokens.ends (h : s.InTokens .advance) (hle : s.ip ≤ s.n + 2) (hw : s.Within 0 0) (hn : s.n ≤ s.ip) :
    s.Nears (s.bytesLeft + 1) ∨ s.DecompressRefused := by
  have hb := oneHot_ne_zero h.oneHot
  by_cases ho : s.op < 2 ^ 32
  · exact .inl ⟨_, _, step_completes hh h.mode h.phase h.stage_eq hb hn ho,
      .ended ⟨⟨rfl, rfl⟩, Nat.mod_eq_of_lt ho, hn, hle, hw⟩, Nat.succ_pos _⟩
  · have ho := Nat.not_lt.mp ho
    have hop := step_nextBit hh h.mode h.phase h.stage_eq
    exact .inr ⟨hop.trans (exec_nextBit_refused hb hn ho), ho, hn, hle, hw⟩

/-- From every point but the end the engine comes closer to the end, or the completion is refused. -/
theorem State.DecompressPoint.step {left : Nat} (h : s.DecompressPoint left) :
    s.DecompressEnd ∨ s.Nears left ∨ (0 < left ∧ s.DecompressRefused) := by
  cases h with
  | ended h => exact .inl h
  | tag hp hm hb hin hw => exact .inr (.inl (nears_of_tag hh hp hm hb hin hw))
  | token credit h hle hin hw =>
    refine .inr (.inl ?_)
    cases ht : s.tagBitSet with
    | true => exact h.nears_of_literal hh hle hin hw ht
    | false =>
      by_cases hn : s.ip + 2 ≤ s.n
      · exact h.nears_of_match hh hw ht hn
      · exact h.nears_of_skip hh hle hin hw ht (Nat.not_le.mp hn)
  | body h hle hc hw => exact .inr (.inl (h.nears_of_copy hh hle hc hw))
  | advance h hle hw =>
    by_cases hn : s.n ≤ s.ip
    · exact .inr ((h.ends hh hle hw hn).imp_right fun hr => ⟨Nat.succ_pos _, hr⟩)
    · exact .inr (.inl (h.nears_of_advance hh hw (Nat.not_le.mp hn)))

end

/-! ### The whole run -/

/-- `t` is a point of a DECOMPRESS given in `s`. -/
structure State.DecompressRun (s t : State) (left : Nat) : Prop where
  host : t.host = []
  config : t.config = s.config
  inLen : t.inLen = s.inLen
  outLimit : t.outLimit = s.outLimit
  inMem : t.inMem = s.inMem
  point : t.DecompressPoint left

theorem State.DecompressRun.step {s t : State} {left : Nat} (h : s.DecompressRun t left) :
    t.DecompressEnd ∨ (∃ u left', Machine.step t = .next u ∧ s.DecompressRun u left' ∧ left' < left) ∨
      (0 < left ∧ t.DecompressRefused) := by
  obtain ⟨hh, hc, hn, hl, hin, hpoint⟩ := h
  refine (hpoint.step hh).imp_right (Or.imp_left ?_)
  rintro ⟨u, left', hu, hpoint', hlt⟩
  obtain ⟨hh', hc', hn', hl', hin'⟩ := step_frame hh hu
  exact ⟨u, left', hu, ⟨hh', hc'.trans hc, hn'.trans hn, hl'.trans hl, hin'.trans hin, hpoint'⟩, hlt⟩

theorem decompressRun_keeps {s t u : State} (h : ∃ left, s.DecompressRun t left) (he : step t = .next u) :
    ∃ left, s.DecompressRun u left := by
  obtain ⟨left, h⟩ := h
  rcases h.step with hend | ⟨u', left', hu, h', -⟩ | ⟨-, href⟩
  · rw [step_of_idle h.host hend.completed.1] at he
    exact Host.Outcome.next.inj he ▸ ⟨left, h⟩
  · rw [hu] at he
    exact Host.Outcome.next.inj he ▸ ⟨left', h'⟩
  · rw [href.refused] at he
    cases he

/-- The command start is a point of the run, with `M + 3` operations to come for each byte of input. -/
theorem State.Ready.decompressRun {s : State} (h : s.Ready) :
    ∃ t left, exec .decompress s = .next t ∧ s.DecompressRun t left ∧ left ≤ (s.split.maxMatch + 3) * s.n := by
  have hstart : exec .decompress s = _ := startCommand_ready h .decompress
  obtain ⟨-, -, hh, -⟩ := h
  have hw : (s.started .decompress).Within 0 0 := Nat.le_of_eq (Nat.zero_add _)
  by_cases hn : s.n = 0
  · rw [if_pos hn] at hstart
    have hend : (s.started .decompress).finish.DecompressEnd := ⟨⟨rfl, rfl⟩, rfl, Nat.le_of_eq hn, Nat.zero_le _, hw⟩
    exact ⟨_, 0, hstart, ⟨hh, rfl, rfl, rfl, rfl, .ended hend⟩, Nat.zero_le _⟩
  · rw [if_neg hn] at hstart
    exact ⟨_, _, hstart, ⟨hh, rfl, rfl, rfl, rfl, .tag rfl rfl rfl (Nat.pos_of_ne_zero hn) hw⟩, Nat.le_refl _⟩

section
variable {s t : State} {left : Nat} (h : s.DecompressRun t left)
include h

theorem State.DecompressRun.n_eq : t.n = s.n := congrArg BitVec.toNat h.inLen

theorem State.DecompressRun.split_eq : t.split = s.split := congrArg Config.lengthBits h.config

end

/-- DECOMPRESS reaches its end, or its completion out of domain, within `M + 3` operations for each byte of input. -/
theorem State.Ready.decompress_ends {s : State} (hs : s.Ready) :
    ∃ k t left, runCommand .decompress k s = .next t ∧ s.DecompressRun t left ∧
      ((k ≤ (s.split.maxMatch + 3) * s.n ∧ t.DecompressEnd) ∨
       (k < (s.split.maxMatch + 3) * s.n ∧ t.DecompressRefused ∧
        runCommand .decompress (k + 1) s = .refused .resultOutOfDomain)) := by
  obtain ⟨u, left, hstart, h, hleft⟩ := hs.decompressRun
  obtain ⟨k, t, ht, hres⟩ := steps_reach State.DecompressRun.step h
  obtain ⟨left', hrun⟩ := steps_keeps (P := fun t => ∃ left, s.DecompressRun t left) decompressRun_keeps ⟨left, h⟩ ht
  refine ⟨k, t, left', runCommand_next.mpr ⟨u, hstart, ht⟩, hrun, ?_⟩
  rcases hres with ⟨hk, hend⟩ | ⟨hk, href⟩
  · exact .inl ⟨Nat.le_trans hk hleft, hend⟩
  · refine .inr ⟨Nat.lt_of_lt_of_le hk hleft, href, ?_⟩
    rw [runCommand, hstart]
    exact (steps_then ht).trans href.refused

/-- Settles O45: the run reaches its end or its refusal, and no point of it exceeds the bound on the output. -/
theorem decompressCompletesWithinTheBound : Obligations.DecompressCompletesWithinTheBound := by
  intro s hs
  obtain ⟨k, t, left, ht, hrun, hres⟩ := hs.decompress_ends
  rw [← hrun.n_eq, ← hrun.split_eq] at hres ⊢
  rcases hres with ⟨hk, hend⟩ | ⟨hk, href, hstop⟩
  · exact .inl ⟨k, t, hk, ht, hend.completed, hend.ip_ge, hend.ip_le, hend.result, hend.within.op_le⟩
  · exact .inr ⟨k, t, hk, ht, href.ip_ge, href.ip_le, href.op, href.within.op_le, hstop⟩

end Sys2Proof.Machine
end

section
/-! What the items of a listing stand for (30_encoding.md R84): the plain bytes that they spell. -/

namespace Sys2Proof

/-- Item `i` stands for the bytes of `x` from `p` up to `q`: a literal for its own, a match for bytes that stand `off` back as
well, and any other item for none. -/
def Instr.Spells (x : Nat → Byte) (i : Instr) (p q : Nat) : Prop :=
  match i.matchFields?, i with
  | some (_, off, len), _ => q = p + len ∧ ∀ j, j < len → x (p + j) = x (p + j - off)
  | none, .lit b => q = p + 1 ∧ x p = b
  | none, _ => q = p

/-- The items stand for the bytes of `x` from `p` up to `q`, one after the other. -/
def Spells (x : Nat → Byte) : List Instr → (p q : Nat) → Prop
  | [], p, q => q = p
  | i :: rest, p, q => ∃ m, i.Spells x p m ∧ Spells x rest m q

variable {x : Nat → Byte} {p q : Nat}

@[simp] theorem Instr.spells_tag (t : Byte) : (Instr.tag t).Spells x p q ↔ q = p := Iff.rfl

@[simp] theorem Instr.spells_lit (b : Byte) : (Instr.lit b).Spells x p q ↔ q = p + 1 ∧ x p = b := Iff.rfl

@[simp] theorem Instr.spells_ofMatch (l : LengthBits) (off len : Nat) :
    (Instr.ofMatch l off len).Spells x p q ↔ q = p + len ∧ ∀ j, j < len → x (p + j) = x (p + j - off) := by
  cases l <;> exact Iff.rfl

theorem Instr.Spells.le {i : Instr} (h : i.Spells x p q) : p ≤ q := by
  unfold Instr.Spells at h
  split at h <;> omega

theorem Spells.le {items : List Instr} (h : Spells x items p q) : p ≤ q := by
  induction items generalizing p with
  | nil => exact Nat.le_of_eq h.symm
  | cons i rest ih =>
    obtain ⟨m, hi, hrest⟩ := h
    exact Nat.le_trans hi.le (ih hrest)

theorem spells_append {xs ys : List Instr} : Spells x (xs ++ ys) p q ↔ ∃ m, Spells x xs p m ∧ Spells x ys m q := by
  induction xs generalizing p with
  | nil => simp [Spells]
  | cons i xs ih =>
    simp only [List.cons_append, Spells, ih]
    constructor
    · rintro ⟨m, hi, m', hxs, hys⟩
      exact ⟨m', ⟨m, hi, hxs⟩, hys⟩
    · rintro ⟨m', ⟨m, hi, hxs⟩, hys⟩
      exact ⟨m, hi, m', hxs, hys⟩

/-- One more token in the open group, whatever becomes of its tag byte. -/
theorem Spells.emit {closed toks : List Instr} {t t' : Byte} {i : Instr} {r : Nat}
    (h : Spells x (closed ++ .tag t :: toks) p q) (hi : i.Spells x q r) :
    Spells x (closed ++ .tag t' :: (toks ++ [i])) p r := by
  obtain ⟨m, hclosed, m', htag, htoks⟩ := spells_append.mp h
  exact spells_append.mpr ⟨m, hclosed, m', htag, spells_append.mpr ⟨q, htoks, r, hi, rfl⟩⟩

end Sys2Proof
end

section
/-! What COMPRESS emits spells its input (41_token_encoder.md R110 to R119): every token stands for the bytes that the cursor
passes with it. `State.InGroup` says of some listing that it is well formed; here that listing is followed together with what
it spells. -/

namespace Sys2Proof.Machine

/-- The items have been emitted: their stream lies in OUT below `op`, and they spell the input that `ip` has passed. -/
structure State.Spelled (s : State) (items : List Instr) : Prop where
  op : s.op = (assemble items).length
  out : s.Holds (assemble items)
  spells : Spells s.inByte items 0 s.ip

/-- The closed groups and the open group's tokens have been emitted, and the listing may go on. -/
structure State.SpelledGroup (s : State) (closed toks : List Instr) : Prop where
  tagpos : s.tagpos = (assemble closed).length
  listing : ListingPrefix s.split closed toks s.tag s.ip
  spelled : s.Spelled (closed ++ .tag s.tag :: toks)

/-- At every point of a COMPRESS what has been emitted spells the input passed. -/
structure State.SpellsInput (s : State) : Prop where
  between : s.phase = .awaitingTag → ∃ closed, ListingPrefix s.split closed [] 0 s.ip ∧ s.Spelled closed
  group : s.phase = .processingGroup → ∃ g closed toks, s.bit = 1#8 <<< g ∧ g < 8 ∧
    toks.length = (if s.stage = .advance then g + 1 else g) ∧ s.SpelledGroup closed toks
  ended : s.phase = .idle → ∃ items, encoderOutput s.split items = true ∧ s.Spelled items

theorem State.SpellsInput.of_between {s : State} {closed : List Instr} (hp : s.phase = .awaitingTag)
    (hl : ListingPrefix s.split closed [] 0 s.ip) (h : s.Spelled closed) : s.SpellsInput :=
  ⟨fun _ => ⟨closed, hl, h⟩, fun e => by simp [hp] at e, fun e => by simp [hp] at e⟩

theorem State.SpellsInput.of_group {s : State} {g : Nat} {closed toks : List Instr} (hp : s.phase = .processingGroup)
    (hb : s.bit = 1#8 <<< g) (hg : g < 8) (hk : toks.length = (if s.stage = .advance then g + 1 else g))
    (h : s.SpelledGroup closed toks) : s.SpellsInput :=
  ⟨fun e => by simp [hp] at e, fun _ => ⟨g, closed, toks, hb, hg, hk, h⟩, fun e => by simp [hp] at e⟩

theorem State.SpellsInput.of_ended {s : State} {items : List Instr} (hp : s.phase = .idle)
    (hout : encoderOutput s.split items = true) (h : s.Spelled items) : s.SpellsInput :=
  ⟨fun e => by simp [hp] at e, fun e => by simp [hp] at e, fun _ => ⟨items, hout, h⟩⟩

/-! ### The operations -/

theorem State.Spelled.openGroup {s : State} {closed : List Instr} (h : s.Spelled closed)
    (hl : ListingPrefix s.split closed [] 0 s.ip) :
    State.SpelledGroup { s.gwrite s.op 0#8 with
      tagpos := s.op, tag := 0#8, op := s.op + 1, bit := 1#8, phase := .processingGroup, stage := .token } closed [] := by
  obtain ⟨hop, hout, hspells⟩ := h
  refine ⟨hop, hl, by simp [hop], ?_, spells_append.mpr ⟨s.ip, hspells, s.ip, rfl, rfl⟩⟩
  rw [assemble_append]
  exact hout.append hop 0#8

theorem State.SpelledGroup.emitLit {s : State} {closed toks : List Instr} (h : s.SpelledGroup closed toks)
    (hb : s.bit = 1#8 <<< toks.length) (hlen : toks.length < 8) (hbyte : s.tokByte = s.inByte s.ip) :
    State.SpelledGroup { (s.gwrite s.op s.tokByte).gwrite s.tagpos s.tagWithBit with
      op := s.op + 1, tag := s.tagWithBit, ip := s.ip + 1, stage := .advance } closed (toks ++ [.lit s.tokByte]) := by
  obtain ⟨hpos, hl, hop, hout, hspells⟩ := h
  have htag : s.tagWithBit = s.tag ||| 1#8 <<< toks.length := by rw [State.tagWithBit, hb]
  have hbytes := assemble_emitLit closed toks s.tag s.tagWithBit s.tokByte
  refine ⟨hpos, ?_, ?_, ?_, hspells.emit ⟨rfl, hbyte.symm⟩⟩
  · exact hl.lit hlen (fun j hj => htag ▸ tag_or_cursor_low _ hj) (htag ▸ tag_or_cursor_bit _ hlen) _
  · rw [hbytes, List.length_set, List.length_append, ← hop]
    rfl
  · rw [hbytes, ← hpos]
    exact (hout.append hop s.tokByte).set s.tagpos s.tagWithBit

theorem State.SpelledGroup.emitMatch {s : State} {closed toks : List Instr} (h : s.SpelledGroup closed toks)
    (hb : s.bit = 1#8 <<< toks.length) (hlen : toks.length < 8) (htag : s.tag.toNat < s.bit.toNat) (hlatch : s.LatchGood)
    (hk : s.tokKind = .matched) :
    State.SpelledGroup { (s.gwrite s.op (hiByte (pack s.split s.tokOff s.tokLen))).gwrite (s.op + 1)
        (loByte (pack s.split s.tokOff s.tokLen)) with
      op := s.op + 2, ip := s.ip + s.tokLen, stage := .advance } closed
      (toks ++ [Instr.ofMatch s.split s.tokOff s.tokLen]) := by
  obtain ⟨hpos, hl, hop, hout, hspells⟩ := h
  obtain ⟨hoff, hip, -, -, -, -, hagree⟩ := hlatch.2 hk
  have hbytes := assemble_emitMatch closed toks s.tag s.split s.tokOff s.tokLen
  have hmatch : (Instr.ofMatch s.split s.tokOff s.tokLen).Spells s.inByte s.ip (s.ip + s.tokLen) := by
    refine (Instr.spells_ofMatch ..).mpr ⟨rfl, fun j hj => ?_⟩
    have hshift : s.ip + j - s.tokOff = s.ip - s.tokOff + j := by omega
    rw [hshift]
    exact (hagree j hj).symm
  refine ⟨hpos, ?_, ?_, ?_, hspells.emit hmatch⟩
  · exact hl.matched hlen (tag_cursor_clear (hb ▸ htag)) (hlatch.produces hk) hip
  · show s.op + 2 = (assemble (closed ++ .tag s.tag :: (toks ++ [Instr.ofMatch s.split s.tokOff s.tokLen]))).length
    rw [hbytes, List.length_append, List.length_append, ← hop]
    rfl
  · show State.Holds _ (assemble (closed ++ .tag s.tag :: (toks ++ [Instr.ofMatch s.split s.tokOff s.tokLen])))
    rw [hbytes]
    exact (hout.append hop _).append (by rw [List.length_append, ← hop]; rfl) _

/-- NEXT_BIT leaves the cursor at the next token, and moves it out at the eighth. -/
theorem nextCursor_eq_zero_iff {g : Nat} (hg : g < 8) : 1#8 <<< (g + 1) = 0#8 ↔ g = 7 := by
  revert g
  decide

/-- The engine's operation of a COMPRESS. -/
theorem State.SpellsInput.engine {i : Instr} {s t : State} (h : s.SpellsInput) (hm : s.mode = .compress)
    (hgood : s.phase = .processingGroup → s.CompressGood) (hf : s.fetch = some i) (he : exec i s = .next t) :
    t.SpellsInput := by
  have hsel := fetch_selects hf
  cases exec_effect he with
  | ignored i hi => exact h
  | startedEmpty i m hi hp | started i m hi hp => exact absurd hp (fetch_running hf)
  | tag b hb hn => exact absurd hsel.2 (by simp [hm])
  | lit | copyByte => exact absurd hsel.2.1 (by simp [hm])
  | matchRead i off len hi | matchSkip i off len hi => exact absurd ((State.selects_match hi).mp hsel).2.1 (by simp [hm])
  | openGroup hb hn =>
    obtain ⟨closed, hl, hspelled⟩ := h.between hsel.1
    exact .of_group (g := 0) rfl rfl (by decide) rfl (hspelled.openGroup hl)
  | findLiteral hn hl | findMatched hn hl =>
    obtain ⟨hp, -, hs⟩ := hsel
    obtain ⟨g, closed, toks, hb, hg, hk, hpos, hl, hop, hout, hspells⟩ := h.group hp
    rw [hs] at hk
    exact .of_group hp hb hg hk ⟨hpos, hl, hop, hout, hspells⟩
  | emitLit hb hkind =>
    obtain ⟨hp, -, hs⟩ := hsel
    obtain ⟨g, closed, toks, hb, hg, hk, hspelled⟩ := h.group hp
    obtain ⟨-, -, -, hbody, -⟩ := hgood hp
    obtain ⟨-, -, hbyte, -⟩ := hbody hs
    obtain rfl : toks.length = g := by simpa [hs] using hk
    exact .of_group hp hb hg (by simp) (hspelled.emitLit hb hg (hbyte hkind))
  | emitMatch hb hkind =>
    obtain ⟨hp, -, hs⟩ := hsel
    obtain ⟨g, closed, toks, hb, hg, hk, hspelled⟩ := h.group hp
    obtain ⟨-, -, -, hbody, -⟩ := hgood hp
    obtain ⟨-, htag, hlatch⟩ := hbody hs
    obtain rfl : toks.length = g := by simpa [hs] using hk
    exact .of_group hp hb hg (by simp) (hspelled.emitMatch hb hg htag hlatch hkind)
  | complete hb hn ho =>
    obtain ⟨hp, hs⟩ := hsel
    obtain ⟨g, closed, toks, hb, hg, hk, -, hl, hspelled⟩ := h.group hp
    obtain hk : toks.length = g + 1 := by simpa [hs] using hk
    exact .of_ended rfl (hl.output (by omega) (by omega)) ⟨hspelled.op, hspelled.out, hspelled.spells⟩
  | nextGroup hb hn hz =>
    obtain ⟨hp, hs⟩ := hsel
    obtain ⟨g, closed, toks, hb, hg, hk, -, hl, hspelled⟩ := h.group hp
    rw [hb, shiftCursor_cursor, nextCursor_eq_zero_iff hg] at hz
    obtain hk : toks.length = 8 := by simpa [hs, hz] using hk
    exact .of_between rfl (hl.close hk 0) ⟨hspelled.op, hspelled.out, hspelled.spells⟩
  | nextToken hb hn hz =>
    obtain ⟨hp, hs⟩ := hsel
    obtain ⟨g, closed, toks, hb, hg, hk, hpos, hl, hspelled⟩ := h.group hp
    rw [hb, shiftCursor_cursor, Ne, nextCursor_eq_zero_iff hg] at hz
    obtain hk : toks.length = g + 1 := by simpa [hs] using hk
    exact .of_group (g := g + 1) rfl ((congrArg shiftCursor hb).trans (shiftCursor_cursor g)) (by omega) hk
      ⟨hpos, hl, hspelled.op, hspelled.out, hspelled.spells⟩

/-! ### The run -/

/-- At a point of a COMPRESS that is not its end the mode is COMPRESS, and an open group is a good one. -/
theorem State.CompressPoint.running {s : State} {left : Nat} (h : s.CompressPoint left) (hp : s.phase ≠ .idle) :
    s.mode = .compress ∧ (s.phase = .processingGroup → s.CompressGood) := by
  cases h with
  | ended h => exact absurd h.completed.1 hp
  | tag h => exact ⟨h.mode, fun e => by simp [h.phase] at e⟩
  | token g h | body g h | advance g h => exact ⟨h.mode, fun _ => h.good⟩

theorem State.SpellsInput.step {s t : State} {left : Nat} (h : s.SpellsInput) (hh : s.host = [])
    (hpoint : s.CompressPoint left) (he : Machine.step s = .next t) : t.SpellsInput := by
  rw [step_of_host_nil hh] at he
  cases hf : s.fetch with
  | none => exact Host.Outcome.next.inj (hf ▸ he) ▸ h
  | some i =>
    obtain ⟨hm, hgood⟩ := hpoint.running (fetch_running hf)
    exact h.engine hm hgood hf (by simpa [hf] using he)

/-- A command start has emitted nothing and passed nothing. -/
theorem State.Ready.spellsInput {s t : State} (h : s.Ready) (he : exec .compress s = .next t) : t.SpellsInput := by
  have hnone : (s.started .compress).Spelled [] := ⟨rfl, fun a _ ha => absurd ha (Nat.not_lt_zero a), rfl⟩
  have hstart : exec .compress s = _ := startCommand_ready h .compress
  obtain rfl := Host.Outcome.next.inj (hstart.symm.trans he)
  split
  · exact .of_ended (items := []) rfl rfl ⟨hnone.op, hnone.out, hnone.spells⟩
  · exact .of_between rfl (.first _ _) hnone

theorem runCommand_spellsInput {s t : State} {k : Nat} (hs : s.Ready) (he : runCommand .compress k s = .next t) :
    t.SpellsInput := by
  obtain ⟨u, hstart, hrun⟩ := runCommand_next.mp he
  have hstarted : ∃ left, s.CompressRun u left := runCommand_compressRun (k := 0) hs (runCommand_next.mpr ⟨u, hstart, rfl⟩)
  refine (steps_keeps (P := fun t => (∃ left, s.CompressRun t left) ∧ t.SpellsInput) ?_
    ⟨hstarted, hs.spellsInput hstart⟩ hrun).2
  rintro t u ⟨⟨left, hcompress⟩, hspells⟩ he
  exact ⟨compressRun_keeps ⟨left, hcompress⟩ he, hspells.step hcompress.host hcompress.point he⟩

/-- What a completed COMPRESS with room for its result leaves in OUT is the stream of a well-formed listing that spells the
whole input. -/
theorem compressed_spells {s t : State} {k : Nat} (hs : s.Ready) (he : runCommand .compress k s = .next t)
    (hc : t.Completed) (hfit : t.result.toNat ≤ s.limit) :
    ∃ items, encoderOutput s.split items = true ∧ (assemble items).length = t.result.toNat ∧
      Spells s.inByte items 0 s.n ∧ ∀ a, a < t.result.toNat → t.outMem.read a = (assemble items)[a]? := by
  obtain ⟨left, hrun⟩ := runCommand_compressRun hs he
  obtain ⟨-, hresult, hall⟩ := hrun.point.atEnd hc.1
  obtain ⟨items, hout, hop, hholds, hspells⟩ := (runCommand_spellsInput hs he).ended hc.1
  have hin : t.inByte = s.inByte := by
    funext a
    rw [State.inByte, hrun.inMem]
    rfl
  rw [hall.ip, hrun.n_eq, hin] at hspells
  rw [hrun.split_eq] at hout
  refine ⟨items, hout, hop.symm.trans hresult.symm, hspells, fun a ha => hholds a ?_ ?_⟩
  · rw [hrun.limit_eq]
    omega
  · omega

end Sys2Proof.Machine
end

section
/-! DECOMPRESS of a well-formed stream (42_decompressor.md R145): it writes the bytes that the stream's items spell, and so
undoes COMPRESS. -/

namespace Sys2Proof

/-! ### Reading a listing off the stream -/

/-- From index `p` on the bytes `f` are those of the list. -/
def Reads (f : Nat → Byte) : (p : Nat) → List Byte → Prop
  | _, [] => True
  | p, b :: bs => f p = b ∧ Reads f (p + 1) bs

theorem reads_of_getElem? {f : Nat → Byte} {p : Nat} {bs : List Byte} (h : ∀ j, j < bs.length → bs[j]? = some (f (p + j))) :
    Reads f p bs := by
  induction bs generalizing p with
  | nil => trivial
  | cons b bs ih =>
    have hb : some b = some (f p) := h 0 (Nat.succ_pos _)
    refine ⟨(Option.some.inj hb).symm, ih fun j hj => ?_⟩
    rw [Nat.add_right_comm]
    exact h (j + 1) (Nat.succ_lt_succ hj)

/-- A listing may begin where a group of eight tokens has just been read. -/
theorem encoderOutputFrom_of_encoderOutput {l : LengthBits} {items : List Instr} (h : encoderOutput l items = true)
    (hne : items ≠ []) (t : Byte) : encoderOutputFrom l items (some ⟨t, 8⟩) 0 = true := by
  rcases encoderOutput_cases h with rfl | ⟨t', rest, rfl, hrest⟩
  · exact absurd rfl hne
  · exact Bool.and_eq_true_iff.mpr ⟨rfl, hrest⟩

theorem OpenGroup.expects_iff {t : Byte} {k : Nat} {literal : Bool} :
    OpenGroup.expects ⟨t, k⟩ literal = true ↔ k < 8 ∧ t.getLsbD k = literal := by
  simp [OpenGroup.expects]

theorem OpenGroup.mayClose_iff {t : Byte} {k : Nat} : OpenGroup.mayClose ⟨t, k⟩ false = true ↔ k = 8 := by
  simp [OpenGroup.mayClose]

theorem LengthBits.produces_iff {l : LengthBits} {off len : Nat} :
    l.produces off len = true ↔ 1 ≤ off ∧ 2 ≤ len ∧ l.admits off len = true := by
  simp [LengthBits.produces, and_assoc]

/-- Every item of a group has a byte. -/
theorem length_assemble_pos {l : LengthBits} {i : Instr} {rest : List Instr} {g : OpenGroup} {p : Nat}
    (h : encoderOutputFrom l (i :: rest) (some g) p = true) : 0 < (assemble (i :: rest)).length := by
  rcases encoderOutputFrom_cons h with ⟨t, rfl, -⟩ | ⟨b, rfl, -⟩ | ⟨off, len, rfl, -⟩
  · exact Nat.succ_pos _
  · exact Nat.succ_pos _
  · rw [assemble_ofMatch]
    exact Nat.succ_pos _

end Sys2Proof

namespace Sys2Proof.Machine

/-! ### A point of the decoding -/

/-- From the cursor on the stream is that of `rest`: the items after `k` tokens of the open group, which spell the bytes of `x`
from `p` up to `N`. -/
structure State.Ahead (s : State) (x : Nat → Byte) (N : Nat) (rest : List Instr) (k p : Nat) : Prop where
  size : s.ip + (assemble rest).length = s.n
  bytes : Reads s.inByte s.ip (assemble rest)
  listing : encoderOutputFrom s.split rest (some ⟨s.tag, k⟩) p = true
  spells : Spells x rest p N

section
variable {s : State} {x : Nat → Byte} {N k p : Nat} {rest : List Instr} (h : s.Ahead x N rest k p)
include h

/-- With input left there is an item ahead. -/
theorem State.Ahead.exists_item (hin : s.ip < s.n) : ∃ i rest', rest = i :: rest' := by
  have hsize := h.size
  cases rest with
  | nil =>
    rw [assemble_nil, List.length_nil] at hsize
    omega
  | cons i rest' => exact ⟨i, rest', rfl⟩

/-- At the end of the input there is none, and all bytes have been spelled. -/
theorem State.Ahead.at_end (hn : s.n ≤ s.ip) : s.ip = s.n ∧ p = N := by
  have hsize := h.size
  cases rest with
  | nil => exact ⟨hsize, h.spells.symm⟩
  | cons i rest' =>
    have hpos := length_assemble_pos h.listing
    omega

end

section
variable {s : State} {x : Nat → Byte} {N k p : Nat} {rest : List Instr}

/-- After eight tokens comes a TAG, and a token after it. -/
theorem State.Ahead.tagByte (h : s.Ahead x N rest 8 p) (hin : s.ip < s.n) :
    s.ip + 1 < s.n ∧ ∃ rest', State.Ahead { s with
      tag := s.inByte s.ip, ip := s.ip + 1, bit := 1#8, phase := .processingGroup, stage := .token } x N rest' 0 p := by
  obtain ⟨i, rest', rfl⟩ := h.exists_item hin
  obtain ⟨hsize, hbytes, hlisting, hspells⟩ := h
  rcases encoderOutputFrom_cons hlisting with ⟨t, rfl, -, hrest⟩ | ⟨b, -, hexp, -⟩ | ⟨off, len, -, hexp, -⟩
  · obtain ⟨m, hm, hspells⟩ := hspells
    obtain ⟨rfl, hbytes⟩ := hbytes
    rw [hm] at hspells
    rw [assemble_tag, List.length_cons] at hsize
    have hpos : 0 < (assemble rest').length := by
      cases rest' with
      | nil => cases hrest
      | cons i rest'' => exact length_assemble_pos hrest
    exact ⟨by omega, rest', by show s.ip + 1 + _ = s.n; omega, hbytes, hrest, hspells⟩
  · exact absurd (OpenGroup.expects_iff.mp hexp).1 (Nat.lt_irrefl 8)
  · exact absurd (OpenGroup.expects_iff.mp hexp).1 (Nat.lt_irrefl 8)

/-- At a set tag bit comes a literal, the next byte to spell. -/
theorem State.Ahead.literal (h : s.Ahead x N rest k p) (hk : k < 8) (hin : s.ip < s.n) (ht : s.tag.getLsbD k = true) :
    s.inByte s.ip = x p ∧ ∃ rest', s.afterLiteral.Ahead x N rest' (k + 1) (p + 1) := by
  obtain ⟨i, rest', rfl⟩ := h.exists_item hin
  obtain ⟨hsize, hbytes, hlisting, hspells⟩ := h
  rcases encoderOutputFrom_cons hlisting with ⟨t, -, hclose, -⟩ | ⟨b, rfl, -, hrest⟩ | ⟨off, len, -, hexp, -⟩
  · exact absurd (OpenGroup.mayClose_iff.mp hclose) (Nat.ne_of_lt hk)
  · obtain ⟨m, ⟨rfl, hx⟩, hspells⟩ := hspells
    obtain ⟨hb, hbytes⟩ := hbytes
    rw [assemble_lit, List.length_cons] at hsize
    exact ⟨hb.trans hx.symm, rest', by show s.ip + 1 + _ = s.n; omega, hbytes, hrest, hspells⟩
  · simp [(OpenGroup.expects_iff.mp hexp).2] at ht

/-- At a clear tag bit comes a match, which copies bytes that have been spelled. -/
theorem State.Ahead.matched (h : s.Ahead x N rest k p) (hk : k < 8) (hin : s.ip < s.n) (ht : s.tag.getLsbD k = false)
    {v : Half} (hv : v = ofBytes (s.inByte s.ip) (s.inByte (s.ip + 1))) :
    s.ip + 2 ≤ s.n ∧ 1 ≤ unpackOffset s.split v ∧ unpackOffset s.split v ≤ p ∧ 2 ≤ unpackLength s.split v ∧
      (∀ j, j < unpackLength s.split v → x (p + j) = x (p + j - unpackOffset s.split v)) ∧
      ∃ rest', (s.afterMatch v).Ahead x N rest' (k + 1) (p + unpackLength s.split v) := by
  obtain ⟨i, rest', rfl⟩ := h.exists_item hin
  obtain ⟨hsize, hbytes, hlisting, hspells⟩ := h
  rcases encoderOutputFrom_cons hlisting with ⟨t, -, hclose, -⟩ | ⟨b, -, hexp, -⟩ | ⟨off, len, rfl, -, hrange, hoff, hrest⟩
  · exact absurd (OpenGroup.mayClose_iff.mp hclose) (Nat.ne_of_lt hk)
  · simp [(OpenGroup.expects_iff.mp hexp).2] at ht
  · obtain ⟨m, hmatch, hspells⟩ := hspells
    obtain ⟨rfl, hcopy⟩ := (Instr.spells_ofMatch ..).mp hmatch
    rw [assemble_ofMatch] at hsize hbytes
    obtain ⟨hhi, hlo, hbytes⟩ := hbytes
    rw [hhi, hlo, ofBytes_hiByte_loByte] at hv
    obtain ⟨hoff1, hlen2, hadmits⟩ := LengthBits.produces_iff.mp hrange
    subst hv
    simp only [List.length_cons] at hsize
    rw [unpackOffset_pack hadmits, unpackLength_pack hadmits]
    exact ⟨by omega, hoff1, hoff, hlen2, hcopy, rest', by show s.ip + 2 + _ = s.n; omega, hbytes, hrest, hspells⟩

end

/-! ### The points of a decoding -/

/-- In a group of DECOMPRESS, with the cursor at token `g`. -/
structure State.AtToken (s : State) (stage : Stage) (g : Nat) : Prop where
  tokens : s.InTokens stage
  cursor : s.bit = 1#8 <<< g
  cursor_lt : g < 8

/-- The points of a DECOMPRESS of a stream whose items spell the first `N` bytes of `x`. -/
inductive State.DecodePoint (s : State) (x : Nat → Byte) (N : Nat) : Prop
  | ended (hp : s.phase = .idle) (hop : s.op = N) (hip : s.ip = s.n)
  | tag (hp : s.phase = .awaitingTag) (hm : s.mode = .decompress) (hb : s.bit = 0#8) (hin : s.ip < s.n)
      {rest : List Instr} (h : s.Ahead x N rest 8 s.op)
  | token {g : Nat} (ht : s.AtToken .token g) (hin : s.ip < s.n) {rest : List Instr} (h : s.Ahead x N rest g s.op)
  | body {g : Nat} (ht : s.AtToken .body g) (hc : 0 < s.cnt) (h1 : 1 ≤ s.mOff) (hoff : s.mOff ≤ s.op)
      (hcopy : ∀ j, j < s.cnt → x (s.op + j) = x (s.op + j - s.mOff)) {rest : List Instr}
      (h : s.Ahead x N rest (g + 1) (s.op + s.cnt))
  | advance {g : Nat} (ht : s.AtToken .advance g) {rest : List Instr} (h : s.Ahead x N rest (g + 1) s.op)

/-- At a point of the decoding OUT shows the bytes spelled so far, and no match was ill-referenced. -/
structure State.Decodes (s : State) (x : Nat → Byte) (N : Nat) : Prop where
  illRef : s.illRef = false
  shows : s.Shows x 0
  point : s.DecodePoint x N

section
variable {s : State} {x : Nat → Byte} {N : Nat} (hill : s.illRef = false) (hshows : s.Shows x 0)
include hill hshows

theorem State.AtToken.decodes_literal {g : Nat} (ht : s.AtToken .token g) (hin : s.ip < s.n) {rest : List Instr}
    (h : s.Ahead x N rest g s.op) (hbit : s.tag.getLsbD g = true) : s.afterLiteral.Decodes x N := by
  obtain ⟨hbyte, rest', hahead⟩ := h.literal ht.cursor_lt hin hbit
  have hout : s.afterLiteral.outByte = (s.gwrite s.op (s.inByte s.ip)).outByte := by
    have hmem : s.afterLiteral.outMem = (s.gwrite s.op (s.inByte s.ip)).outMem := by simp [State.afterLiteral, hin]
    funext a
    rw [State.outByte, hmem]
    rfl
  obtain ⟨⟨hp, hm, -, hone⟩, hb, hg⟩ := ht
  exact ⟨hill, hshows.write (fun _ => hbyte) rfl rfl hout, .advance ⟨⟨hp, hm, rfl, hone⟩, hb, hg⟩ hahead⟩

theorem State.AtToken.decodes_copy {g : Nat} (ht : s.AtToken .body g) (h1 : 1 ≤ s.mOff) (hoff : s.mOff ≤ s.op)
    (hc : 0 < s.cnt) (hcopy : ∀ j, j < s.cnt → x (s.op + j) = x (s.op + j - s.mOff)) {rest : List Instr}
    (h : s.Ahead x N rest (g + 1) (s.op + s.cnt)) : s.copied.Decodes x N := by
  obtain ⟨hshows', hill'⟩ := hshows.copied h1 (by omega) (hcopy 0 hc)
  obtain ⟨⟨hp, hm, -, hone⟩, hb, hg⟩ := ht
  have hahead : s.copied.Ahead x N rest (g + 1) (s.op + 1 + (s.cnt - 1)) := by
    rw [show s.op + 1 + (s.cnt - 1) = s.op + s.cnt by omega]
    exact ⟨h.size, h.bytes, h.listing, h.spells⟩
  refine ⟨hill'.trans hill, hshows', ?_⟩
  by_cases hlast : s.cnt = 1
  · rw [hlast] at hahead
    exact .advance ⟨⟨hp, hm, if_pos hlast, hone⟩, hb, hg⟩ hahead
  · refine .body ⟨⟨hp, hm, if_neg hlast, hone⟩, hb, hg⟩ (by show 0 < s.cnt - 1; omega) h1 (Nat.le_succ_of_le hoff) ?_ hahead
    intro j (hj : j < s.cnt - 1)
    show x (s.op + 1 + j) = x (s.op + 1 + j - s.mOff)
    rw [Nat.add_right_comm, Nat.add_assoc]
    exact hcopy (j + 1) (by omega)

theorem State.AtToken.decodes_match {g : Nat} (ht : s.AtToken .token g) {rest : List Instr} {v : Half}
    (h1 : 1 ≤ unpackOffset s.split v) (hoff : unpackOffset s.split v ≤ s.op) (hlen : 2 ≤ unpackLength s.split v)
    (hcopy : ∀ j, j < unpackLength s.split v → x (s.op + j) = x (s.op + j - unpackOffset s.split v))
    (h : (s.afterMatch v).Ahead x N rest (g + 1) (s.op + unpackLength s.split v)) : (s.afterMatch v).Decodes x N := by
  obtain ⟨⟨hp, hm, -, hone⟩, hb, hg⟩ := ht
  have hpos : 0 < unpackLength s.split v := Nat.lt_of_lt_of_le (by decide) hlen
  exact ⟨hill, hshows, .body ⟨⟨hp, hm, if_neg (Nat.ne_of_gt hpos), hone⟩, hb, hg⟩ hpos h1 hoff hcopy h⟩

theorem State.AtToken.decodes_advance {g : Nat} (ht : s.AtToken .advance g) {rest : List Instr}
    (h : s.Ahead x N rest (g + 1) s.op) {t : State} (he : exec .nextBit s = .next t) : t.Decodes x N := by
  obtain ⟨⟨hp, hm, -, hone⟩, hb, hg⟩ := ht
  have hcursor : shiftCursor s.bit = 1#8 <<< (g + 1) := by rw [hb, shiftCursor_cursor]
  cases exec_effect he with
  | ignored i hi | startedEmpty i m hi | started i m hi => exact absurd hi (by simp)
  | matchRead i off len hi | matchSkip i off len hi => cases hi
  | complete _ hn ho =>
    obtain ⟨hip, hop⟩ := h.at_end hn
    exact ⟨hill, hshows, .ended rfl hop hip⟩
  | nextGroup _ hin hz =>
    obtain rfl := (nextCursor_eq_zero_iff hg).mp (hcursor ▸ hz)
    exact ⟨hill, hshows, .tag rfl hm hz hin ⟨h.size, h.bytes, h.listing, h.spells⟩⟩
  | nextToken _ hin hz =>
    have hlast : g ≠ 7 := fun e => hz (hcursor.trans ((nextCursor_eq_zero_iff hg).mpr e))
    exact ⟨hill, hshows, .token ⟨⟨rfl, hm, rfl, oneHot_shiftCursor hone hz⟩, hcursor, by omega⟩ hin
      ⟨h.size, h.bytes, h.listing, h.spells⟩⟩

end

/-- Every step of the engine keeps to the decoding. -/
theorem State.Decodes.step {s t : State} {x : Nat → Byte} {N : Nat} (h : s.Decodes x N) (hh : s.host = [])
    (he : Machine.step s = .next t) : t.Decodes x N := by
  obtain ⟨hill, hshows, hpoint⟩ := h
  cases hpoint with
  | ended hp hop hip =>
    rw [step_of_idle hh hp] at he
    exact Host.Outcome.next.inj he ▸ ⟨hill, hshows, .ended hp hop hip⟩
  | tag hp hm hb hin h =>
    rw [step_tagByte hh hm hp hb hin] at he
    obtain ⟨hin', rest', hahead⟩ := h.tagByte hin
    exact Host.Outcome.next.inj he ▸ ⟨hill, hshows, .token (g := 0) ⟨⟨rfl, hm, rfl, oneHot_one⟩, rfl, by decide⟩ hin' hahead⟩
  | @token g ht hin rest h =>
    obtain ⟨hp, hm, hs, hone⟩ := ht.tokens
    have hb := oneHot_ne_zero hone
    have htag := State.tagBitSet_of_cursor ht.cursor ht.cursor_lt
    cases hbit : s.tag.getLsbD g with
    | true =>
      rw [step_literal hh hm hp hs hb (htag.trans hbit)] at he
      exact Host.Outcome.next.inj he ▸ ht.decodes_literal hill hshows hin h hbit
    | false =>
      obtain ⟨hn, h1, hoff, hlen, hcopy, rest', hahead⟩ := h.matched ht.cursor_lt hin hbit rfl
      rw [step_match hh hm hp hs hb (htag.trans hbit) hn rfl] at he
      exact Host.Outcome.next.inj he ▸ ht.decodes_match hill hshows h1 hoff hlen hcopy hahead
  | body ht hc h1 hoff hcopy h =>
    obtain ⟨hp, hm, hs, -⟩ := ht.tokens
    rw [step_copyByte hh hm hp hs hc] at he
    exact Host.Outcome.next.inj he ▸ ht.decodes_copy hill hshows h1 hoff hc hcopy h
  | advance ht h =>
    obtain ⟨hp, hm, hs, -⟩ := ht.tokens
    exact ht.decodes_advance hill hshows h ((step_nextBit hh hm hp hs).symm.trans he)

/-- The decoding never writes past the bytes that the stream spells. -/
theorem State.Decodes.op_le {s : State} {x : Nat → Byte} {N : Nat} (h : s.Decodes x N) : s.op ≤ N := by
  cases h.point with
  | ended hp hop hip => exact Nat.le_of_eq hop
  | tag hp hm hb hin h => exact h.spells.le
  | token ht hin h => exact h.spells.le
  | body ht hc h1 hoff hcopy h => exact Nat.le_trans (Nat.le_add_right _ _) h.spells.le
  | advance ht h => exact h.spells.le

/-! ### The run -/

/-- DECOMPRESS starts at a point of the decoding of the stream that its input holds. -/
theorem State.Ready.decodes {s t : State} {x : Nat → Byte} {N : Nat} {items : List Instr} (hs : s.Ready)
    (hout : encoderOutput s.split items = true) (hsize : (assemble items).length = s.n)
    (hbytes : Reads s.inByte 0 (assemble items)) (hspells : Spells x items 0 N) (he : exec .decompress s = .next t) :
    t.Decodes x N := by
  have hstart : exec .decompress s = _ := startCommand_ready hs .decompress
  obtain rfl := Host.Outcome.next.inj (hstart.symm.trans he)
  have hshows : (s.started .decompress).Shows x 0 := fun a _ ha => absurd ha (Nat.not_lt_zero a)
  by_cases hn : s.n = 0
  · rw [if_pos hn]
    have hnil : items = [] := by
      cases items with
      | nil => rfl
      | cons i rest =>
        have hpos := length_assemble_pos (encoderOutputFrom_of_encoderOutput hout (List.cons_ne_nil _ _) 0)
        omega
    subst hnil
    exact ⟨rfl, hshows, .ended rfl hspells.symm hn.symm⟩
  · rw [if_neg hn]
    have hne : items ≠ [] := by
      rintro rfl
      exact hn hsize.symm
    exact ⟨rfl, hshows, .tag rfl rfl rfl (Nat.pos_of_ne_zero hn)
      ⟨(Nat.zero_add _).trans hsize, hbytes, encoderOutputFrom_of_encoderOutput hout hne _, hspells⟩⟩

/-- DECOMPRESS of the stream of a well-formed listing completes at the end of the stream, with the bytes that its items spell
and no ill-referenced match. -/
theorem State.Ready.decompress_spelled {s : State} {x : Nat → Byte} {N : Nat} {items : List Instr} (hs : s.Ready)
    (hout : encoderOutput s.split items = true) (hsize : (assemble items).length = s.n)
    (hbytes : Reads s.inByte 0 (assemble items)) (hspells : Spells x items 0 N) (hN : N < 2 ^ 32) :
    ∃ k t, runCommand .decompress k s = .next t ∧ t.Completed ∧ t.result.toNat = N ∧ t.ip = s.n ∧ t.illRef = false ∧
      ∀ a, a < N → a < s.limit → t.outByte a = x a := by
  obtain ⟨k, t, left, ht, hrun, hres⟩ := hs.decompress_ends
  obtain ⟨u, hstart, hsteps⟩ := runCommand_next.mp ht
  have hdecodes : t.Decodes x N := by
    obtain ⟨v, left', hstart', hrun', -⟩ := hs.decompressRun
    obtain rfl := Host.Outcome.next.inj (hstart.symm.trans hstart')
    refine (steps_keeps (P := fun t => t.host = [] ∧ t.Decodes x N) ?_
      ⟨hrun'.host, hs.decodes hout hsize hbytes hspells hstart⟩ hsteps).2
    rintro t u ⟨hh, h⟩ he
    exact ⟨(step_frame hh he).1, h.step hh he⟩
  rcases hres with ⟨-, hend⟩ | ⟨-, href, -⟩
  · obtain ⟨hill, hshows, hpoint⟩ := hdecodes
    have hidle := hend.completed.1
    cases hpoint with
    | ended hp hop hip =>
      refine ⟨k, t, ht, hend.completed, hend.result.trans hop, hip.trans hrun.n_eq, hill, fun a ha hl => ?_⟩
      exact hshows a (Nat.zero_le a) (hop ▸ ha) (Nat.lt_of_lt_of_eq hl (congrArg BitVec.toNat hrun.outLimit).symm)
    | tag hp => exact absurd (hp.symm.trans hidle) (by simp)
    | token ht | body ht | advance ht => exact absurd (ht.tokens.phase.symm.trans hidle) (by simp)
  · have hop := href.op
    have hle := hdecodes.op_le
    omega

/-- Settles O52: COMPRESS leaves a well-formed stream that spells its input, and DECOMPRESS writes what such a stream spells. -/
theorem decompressInvertsCompress : Obligations.DecompressInvertsCompress := by
  intro s hs
  refine ⟨fun k t ht hc hfit u hu hsplit hlen hin => ?_, (compressWritesAWellFormedStream s hs).2⟩
  obtain ⟨items, hout, hsize, hspells, hstream⟩ := compressed_spells hs ht hc hfit
  have hn : u.n = t.result.toNat := congrArg BitVec.toNat hlen
  have hbytes : Reads u.inByte 0 (assemble items) := reads_of_getElem? fun j hj => by
    have hj := hsize ▸ hj
    have hread := hstream j hj
    rw [Nat.zero_add, hin j hj, State.outByte, hread, List.getElem?_eq_getElem (hsize ▸ hj)]
    rfl
  obtain ⟨j, w, hw, hcw, hresult, hip, hill, hshows⟩ :=
    hu.decompress_spelled (hsplit ▸ hout) (hsize.trans hn.symm) hbytes hspells s.n_lt
  exact ⟨j, w, hw, hcw, BitVec.eq_of_toNat_eq hresult, hip.trans hn, hill, hshows⟩

end Sys2Proof.Machine
end

section
/-! What a step is, by whose turn it is, and what the commands and NEXT_BIT leave (43_commands_and_control.md R150 to R160):
the engine's turn and the item it reads, the host's memory accesses, and a move that is held back while BUSY = 1. -/

namespace Sys2Proof.Machine

/-! ### The engine's turn -/

theorem step_of_turn {s u : State} {i : Instr} (h : nextAction s = engineAction u) (hf : u.fetch = some i) :
    step s = exec i u := by
  rw [step, h, engineAction, hf]

theorem step_of_idle_turn {s u : State} (h : nextAction s = engineAction u) (hf : u.fetch = none) : step s = .next u := by
  rw [step, h, engineAction, hf]

theorem nextAction_of_wait {s : State} {rest : List HostMove} (h : s.host = .wait :: rest) :
    nextAction s = engineAction { s with host := rest } := by
  rw [nextAction, h]

/-- A move that the host does not make while BUSY gives the turn to the engine and stays (U5, log 14). -/
theorem nextAction_of_held {s : State} {m : HostMove} {rest : List HostMove} (h : s.host = m :: rest)
    (ha : s.admits m = false) : nextAction s = engineAction s := by
  have hw : m ≠ .wait := by
    rintro rfl
    cases ha
  simp [nextAction, h, ha]

/-! ### A move that is held back -/

/-- No operation looks at the host's moves. -/
theorem Effect.withHost {i : Instr} {s t : State} (h : Effect s i t) (moves : List HostMove) :
    Effect { s with host := moves } i { t with host := moves } := by
  cases h with
  | ignored i hi hb => exact .ignored i hi hb
  | startedEmpty i m hi hp hb ha hn => exact .startedEmpty i m hi hp hb ha hn
  | started i m hi hp hb ha hn => exact .started i m hi hp hb ha hn
  | tag b hb hn => exact .tag b hb hn
  | lit b hb ht => exact .lit b hb ht
  | matchRead i off len hi hb ht hn => exact .matchRead i off len hi hb ht hn
  | matchSkip i off len hi hb ht hn => exact .matchSkip i off len hi hb ht hn
  | findLiteral hn hl => exact .findLiteral hn hl
  | findMatched hn hl => exact .findMatched hn hl
  | openGroup hb hn => exact .openGroup hb hn
  | emitLit hb hk => exact .emitLit hb hk
  | emitMatch hb hk => exact .emitMatch hb hk
  | copyByte hc => exact .copyByte hc
  | complete hb hn ho => exact .complete hb hn ho
  | nextGroup hb hn hz => exact .nextGroup hb hn hz
  | nextToken hb hn hz => exact .nextToken hb hn hz

/-- Behind a held-back move the engine does what it does without a host. -/
theorem step_of_held_without_host {s t : State} {m : HostMove} {rest : List HostMove} (h : s.host = m :: rest)
    (ha : s.admits m = false) (he : step s = .next t) :
    step { s with host := [] } = .next { t with host := [] } ∧ t.host = s.host ∧ t.inMem = s.inMem ∧
      t.hostData = s.hostData := by
  have hturn := nextAction_of_held h ha
  have hfree : nextAction { s with host := [] } = engineAction { s with host := [] } := rfl
  cases hf : s.fetch with
  | none =>
    obtain rfl := Host.Outcome.next.inj ((step_of_idle_turn hturn hf).symm.trans he)
    exact ⟨step_of_idle_turn hfree hf, rfl, rfl, rfl⟩
  | some i =>
    rw [step_of_turn hturn hf] at he
    obtain ⟨-, -, -, hin, -, hhost, hdata⟩ := exec_frame he
    exact ⟨(step_of_turn hfree hf).trans ((exec_effect he).withHost []).exec_eq, hhost, hin, hdata⟩

/-- Settles O16: the four moves are held back while BUSY = 1, so the step is the engine's. -/
theorem hostKeepsHandsOffWhileBusy : Obligations.HostKeepsHandsOffWhileBusy := by
  intro s t m rest hb hh hm he
  have ha : s.admits m = false := by
    obtain ⟨a, v, rfl | rfl | rfl | rfl⟩ := hm <;> simp [State.admits, hb]
  obtain ⟨hw, hhost, hin, hdata⟩ := step_of_held_without_host hh ha he
  exact ⟨hhost.trans hh, hin, hdata, _, hw, fun _ => rfl⟩

/-! ### The item at the cursor (30_encoding.md R77) -/

theorem State.itemAt_of_decode {s : State} {p : ItemPlace} {i : Instr} {bs : List Byte}
    (h : decodeItem p (s.streamBytes p.length) = .ok (i, bs)) : s.itemAt p = i := by
  rw [State.itemAt, h]

theorem State.itemAt_tagByte {s : State} (hn : s.ip < s.n) : s.itemAt .tagByte = .tag (s.inByte s.ip) :=
  State.itemAt_of_decode (bs := []) (by rw [ItemPlace.length, s.streamBytes_one hn, decodeItem])

theorem State.itemAt_literal {s : State} (hn : s.ip < s.n) : s.itemAt .literal = .lit (s.inByte s.ip) :=
  State.itemAt_of_decode (bs := []) (by rw [ItemPlace.length, s.streamBytes_one hn, decodeItem])

theorem decodeItem_of_short {p : ItemPlace} {bs : List Byte} (h : bs.length < p.length) :
    decodeItem p bs = .error .truncated := by
  match p, bs with
  | .tagByte, [] | .literal, [] | .matchToken _, [] | .matchToken _, [_] => rfl
  | .tagByte, _ :: _ | .literal, _ :: _ | .matchToken _, _ :: _ :: _ =>
    simp only [ItemPlace.length, List.length_cons] at h
    omega

theorem ItemPlace.length_pos (p : ItemPlace) : 0 < p.length := by cases p <;> exact Nat.succ_pos _

/-- An item that the stream ends inside of has operands of zeros (log 11). -/
theorem State.itemAt_of_short {s : State} {p : ItemPlace} (h : s.n < s.ip + p.length) : s.itemAt p = cutOffItem p := by
  have hpos := ItemPlace.length_pos p
  have hlen : (s.streamBytes p.length).length < p.length := by
    rw [State.streamBytes, List.length_map, List.length_range]
    omega
  rw [State.itemAt, decodeItem_of_short hlen]

/-! ### The step -/

section
variable {s : State} (hp : s.phase = .processingGroup)
include hp

theorem fetch_compressOp (hm : s.mode = .compress) : s.fetch = some s.compressOp := by rw [State.fetch, hp, hm]

theorem fetch_decompressOp (hm : s.mode = .decompress) : s.fetch = some s.decompressOp := by rw [State.fetch, hp, hm]

/-- A token of DECOMPRESS is the item at the place that the tag bit selects (42_decompressor.md R132). -/
theorem fetch_token (hm : s.mode = .decompress) (hs : s.stage = .token) : s.fetch = some (s.itemAt s.tokenPlace) := by
  rw [fetch_decompressOp hp hm, State.decompressOp, hs]

end

/-- Settles O9: the operation that the control state fetches, a stream item as it decodes at its place. -/
theorem stepRunsTheSelectedOperation : Obligations.StepRunsTheSelectedOperation := by
  intro s hh
  have run {i : Instr} (hf : s.fetch = some i) : step s = exec i s := step_of_fetch hh hf
  refine ⟨step_of_idle hh, fun hp hm => run ?_, fun hp hm hn => run ?_, fun hp hm => ?_, fun hp hm => ?_⟩
  · rw [State.fetch, hp, hm]
  · rw [State.fetch, hp, hm, ← State.itemAt_tagByte hn]
  · have hf := fetch_compressOp hp hm
    refine ⟨fun hs => run ?_, fun hs hk => run ?_, fun hs hk => run ?_, fun hs => run ?_⟩
    · rw [hf, State.compressOp, hs]
    · rw [hf, State.compressOp, hs, hk]
    · rw [hf, State.compressOp, hs, hk]
    · rw [hf, State.compressOp, hs]
  · have literal (hs : s.stage = .token) (ht : s.tag &&& s.bit ≠ 0#8) : step s = exec (s.itemAt .literal) s := by
      have hplace : s.tokenPlace = .literal := if_pos (State.tagBitSet_true.mpr ht)
      exact run (hplace ▸ fetch_token hp hm hs)
    have matched (hs : s.stage = .token) (ht : s.tag &&& s.bit = 0#8) :
        step s = exec (s.itemAt (.matchToken s.split)) s := run (fetch_match hm hp hs (State.tagBitSet_false.mpr ht))
    refine ⟨fun hs ht hn => ?_, fun hs ht hn => ?_, fun hs ht hn => ?_, fun hs ht hn => ?_, fun hs => run ?_,
      step_nextBit hh hm hp⟩
    · rw [literal hs ht, State.itemAt_literal hn]
    · have hdecode := decodeItem_matchToken s.split (s.inByte s.ip) (s.inByte (s.ip + 1)) []
      refine ⟨_, hdecode, (matched hs ht).trans (congrArg (exec · s) (State.itemAt_of_decode (bs := []) ?_))⟩
      rw [ItemPlace.length, s.streamBytes_two hn, hdecode]
    · rw [matched hs ht, State.itemAt_of_short hn, cutOffItem]
    · rw [literal hs ht, State.itemAt_of_short (Nat.lt_succ_of_le hn), cutOffItem]
    · rw [fetch_decompressOp hp hm, State.decompressOp, hs]

/-- Settles O10: a CMD write that decodes is the command's step, and the two other moves leave the engine its turn. -/
theorem stepTakesTheHostMove : Obligations.StepTakesTheHostMove := by
  intro s m rest h
  refine ⟨fun v i bs hm hd => ?_, fun i hm hf => ?_, fun i ha hf => step_of_turn (nextAction_of_held h ha) hf⟩
  · exact step_of_command (hm ▸ h) hd
  · exact step_of_turn (nextAction_of_wait (hm ▸ h)) hf

/-! ### The host's accesses to the memories (20_memory.md R53) -/

theorem atIndex_of_lt {size : Word} {a : Nat} {t : State} (h : a < size.toNat) : atIndex size a t = .next t := if_pos h

theorem atIndex_of_le {size : Word} {a : Nat} {t : State} (h : size.toNat ≤ a) : atIndex size a t = .fault .noSuchIndex :=
  if_neg (Nat.not_lt.mpr h)

/-- Settles O15: while BUSY = 0 each access is its effect, made at an index the memory has. -/
theorem hostAccessesTheMemories : Obligations.HostAccessesTheMemories := by
  intro s a v rest hb
  have free : (!s.busy) = true := by simp [hb]
  have writeIn (h : s.host = .writeIn a v :: rest) := step_of_hostEffect h free (by simp) (by simp)
  have writeOut (h : s.host = .writeOut a v :: rest) := step_of_hostEffect h free (by simp) (by simp)
  have readOut (h : s.host = .readOut a :: rest) := step_of_hostEffect h free (by simp) (by simp)
  refine ⟨fun h ha => ?_, fun h ha => ?_, fun h ha => ?_, fun h ha => ?_, fun h ha => ?_, fun h ha => ?_⟩
  · exact ⟨_, (writeIn h).trans (atIndex_of_lt ha), rfl, fun x => Memory.read_write s.inMem a x v⟩
  · exact ⟨_, (writeOut h).trans (atIndex_of_lt ha), rfl, fun x => Memory.read_write s.outMem a x v⟩
  · exact ⟨_, (readOut h).trans (atIndex_of_lt ha), rfl, BitVec.toNat_setWidth_of_le (by decide)⟩
  · exact (writeIn h).trans (atIndex_of_le ha)
  · exact (writeOut h).trans (atIndex_of_le ha)
  · exact (readOut h).trans (atIndex_of_le ha)

/-! ### The commands and NEXT_BIT (R152 to R156) -/

/-- Settles O17: the start's registers, and with no input the completion's on top of them. -/
theorem commandStartSetsTheRegisters : Obligations.CommandStartSetsTheRegisters :=
  fun i m _ hi hp hb hin hout => ⟨fun hn => (Effect.started i m hi hp hb ⟨hin, hout⟩ hn).exec_eq,
    fun hn => (Effect.startedEmpty i m hi hp hb ⟨hin, hout⟩ hn).exec_eq⟩

/-- The cursor is shifted out at bit 7 only. -/
theorem shiftCursor_eq_zero_iff {b : Byte} : shiftCursor b = 0#8 ↔ b = 0#8 ∨ b = 0x80#8 := by
  have hlt := b.isLt
  simp only [← BitVec.toNat_inj, shiftCursor_toNat, BitVec.toNat_ofNat]
  omega

/-- Settles O19: at the end of the input the completion or its refusal, before it the next group or the next token. -/
theorem nextBitMovesOn : Obligations.NextBitMovesOn := by
  intro s hb
  refine ⟨fun hn ho => ?_, exec_nextBit_refused hb, fun hn h80 => ?_, fun hn h80 => ?_⟩
  · exact ⟨_, (Effect.complete hb hn ho).exec_eq, rfl, shiftCursor_toNat s.bit, Nat.mod_eq_of_lt ho⟩
  · have hz : shiftCursor s.bit = 0#8 := shiftCursor_eq_zero_iff.mpr (.inr h80)
    rw [(Effect.nextGroup hb hn hz).exec_eq, hz]
  · have hz : shiftCursor s.bit ≠ 0#8 := mt shiftCursor_eq_zero_iff.mp (not_or_intro hb h80)
    exact ⟨_, (Effect.nextToken hb hn hz).exec_eq, rfl, shiftCursor_toNat s.bit, hz⟩

end Sys2Proof.Machine
end

section
/-! The block raises nothing (60_exceptions.md R170): from the invariant, every operation that the engine selects lies inside
its `requires` clause, and only a completion out of domain is refused (10_state.md R27, U4). -/

namespace Sys2Proof.Machine

/-- With the tag bit under the cursor clear, a MATCH row of the instance's split always has an effect: it reads its token
where two bytes are left, and skips it where they are not (42_decompressor.md R136, R139). -/
theorem exists_match_effect {s : State} {i : Instr} {off len : Nat} (hi : i.matchFields? = some (s.split, off, len))
    (hb : s.bit ≠ 0#8) (ht : s.tagBitSet = false) : ∃ t, Effect s i t := by
  by_cases hn : s.ip + 2 ≤ s.n
  · exact ⟨_, .matchRead i off len hi hb ht hn⟩
  · exact ⟨_, .matchSkip i off len hi hb ht (Nat.lt_of_not_le hn)⟩

/-- FINDMATCH has an effect wherever input is left (40_match_finder.md R97, R98). -/
theorem exists_findMatch_effect {s : State} (hn : s.ip < s.n) : ∃ t, Effect s .findMatch t := by
  by_cases hl : s.scan.bestLen < 2
  · exact ⟨_, .findLiteral hn hl⟩
  · exact ⟨_, .findMatched hn (Nat.le_of_not_lt hl)⟩

/-- Every operation fetched from the invariant but NEXT_BIT meets its `requires` clause and has an effect. -/
theorem State.Inv.exists_effect {s : State} {i : Instr} (h : s.Inv) (hf : s.fetch = some i) (hi : i ≠ .nextBit) :
    ∃ t, Effect s i t := by
  cases hp : s.phase with
  | idle => exact absurd hp (fetch_running hf)
  | awaitingTag =>
    obtain ⟨hb, hn, -, -⟩ := h.awaiting hp
    rcases fetch_awaiting hf hp with ⟨-, rfl⟩ | ⟨-, b, rfl⟩
    · exact ⟨_, .openGroup hb hn⟩
    · exact ⟨_, .tag b hb hn⟩
  | processingGroup =>
    obtain ⟨hone, hcompress, hdecompress⟩ := h.group hp
    have hb := oneHot_ne_zero hone
    cases hm : s.mode with
    | compress =>
      obtain ⟨-, -, htoken, -, -⟩ := hcompress hm
      rcases fetch_compress hf hp hm with ⟨hs, rfl⟩ | ⟨-, hk, rfl⟩ | ⟨-, hk, rfl⟩ | ⟨-, rfl⟩
      · exact exists_findMatch_effect (htoken hs).1
      · exact ⟨_, .emitLit hb hk⟩
      · exact ⟨_, .emitMatch hb hk⟩
      · exact absurd rfl hi
    | decompress =>
      obtain ⟨⟨-, hbody, -⟩, -⟩ := hdecompress hm
      rcases fetch_decompress hf hp hm with ⟨-, ht, b, rfl⟩ | ⟨-, ht, off, len, hfields⟩ | ⟨hs, rfl⟩ | ⟨-, rfl⟩
      · exact ⟨_, .lit b hb ht⟩
      · exact exists_match_effect hfields hb ht
      · obtain ⟨-, hc, -⟩ := hbody hs
        exact ⟨_, .copyByte hc⟩
      · exact absurd rfl hi

/-- NEXT_BIT with an open group moves on, unless it completes a command out of domain (43_commands_and_control.md R154, R156;
10_state.md R27, U4). -/
theorem exec_nextBit_next_or_refused {s : State} (hb : s.bit ≠ 0#8) :
    (∃ t, exec .nextBit s = .next t) ∨
      (exec .nextBit s = .refused .resultOutOfDomain ∧ 2 ^ 32 ≤ s.op ∧ s.n ≤ s.ip) := by
  rcases Nat.lt_or_ge s.ip s.n with hn | hn
  · by_cases hz : shiftCursor s.bit = 0#8
    · exact .inl ⟨_, (Effect.nextGroup hb hn hz).exec_eq⟩
    · exact .inl ⟨_, (Effect.nextToken hb hn hz).exec_eq⟩
  · rcases Nat.lt_or_ge s.op (2 ^ 32) with ho | ho
    · exact .inl ⟨_, (Effect.complete hb hn ho).exec_eq⟩
    · exact .inr ⟨exec_nextBit_refused hb hn ho, ho, hn⟩

/-- Settles O43: every operation fetched but NEXT_BIT has an effect, and NEXT_BIT is refused at a completion out of domain
only. -/
theorem noEngineStepStops : Obligations.NoEngineStepStops := by
  intro s h hh
  cases hf : s.fetch with
  | none => exact .inl ⟨s, step_of_idle_turn (by rw [nextAction, hh]) hf⟩
  | some i =>
    rw [step_of_fetch hh hf]
    by_cases hi : i = .nextBit
    · subst hi
      obtain ⟨hp, -⟩ := fetch_selects hf
      exact exec_nextBit_next_or_refused (oneHot_ne_zero (h.group hp).1)
    · obtain ⟨t, ht⟩ := h.exists_effect hf hi
      exact .inl ⟨t, ht.exec_eq⟩

end Sys2Proof.Machine
end

section
/-! Hardware reset (70_reset_and_hazards.md R185; 10_state.md R37): a reset may land at any time, and the reads of the
memories after it. -/

namespace Sys2Proof.Machine

theorem step_of_reset {s : State} {rest : List HostMove} (h : s.host = .reset :: rest) :
    step s = .next { s with host := rest }.hardReset :=
  step_of_hostEffect h rfl (by simp) (by simp)

theorem State.hardReset_inByte (s : State) (a : Nat) : s.hardReset.inByte a = s.inByte a := rfl

/-- Only a running command's reset leaves OUT unspecified (93_implementation_defined.md U8). -/
theorem State.hardReset_outByte {s : State} (hb : s.busy = false) (a : Nat) : s.hardReset.outByte a = s.outByte a := by
  simp [State.outByte, hb]

/-- Settles O8: the reset lands whatever the engine does, and its state has the fields `hardReset` gives. -/
theorem hardwareResetAbandonsTheCommand : Obligations.HardwareResetAbandonsTheCommand := by
  intro s rest h
  refine ⟨_, step_of_reset h, rfl, rfl, rfl, rfl, fun a => ?_, fun hb a => ?_⟩
  · exact State.hardReset_inByte { s with host := rest } a
  · exact State.hardReset_outByte (s := { s with host := rest }) hb a

end Sys2Proof.Machine
end
